-- ==== Sys2Proof/Word.lean ====
section
/-! DEFINITION. The two word types of the LCSB: the 8-bit byte of every buffer and byte string (R14), and the
32-bit word of every register, command and bus datum (R10, R110). -/

namespace Sys2Proof

/-- One byte of a byte string or of a buffer (R14, R16). -/
abbrev Byte := BitVec 8

/-- One 32-bit register, command word or bus datum (R10, R13: bit 0 is the least significant bit, and every value
is unsigned). -/
abbrev Word := BitVec 32

end Sys2Proof
end

