-- ==== Sys2Proof/Syntax.lean ====
section
/-! DEFINITION. The commands of the LCSB, one constructor per row of spec/opcode_table.json. A command carries every
field of its 32-bit word but OPC, the must-be-zero fields included, because the command rules themselves check
those fields (R148: `if RSV != 0 or LEN != 0 or OFF != 0`, and so on). -/

namespace Sys2Proof

/-- The eleven commands: seven of format CE (R111, R114) with fields RSV, OFF and LEN, and four of format SC (R112,
R115) with fields RSV and ARG. -/
inductive Instr where
  /-- AESENC (R148): encrypt BLK into TAG. -/
  | aesenc (rsv off len : Byte)
  /-- CTRXOR (R182): XOR the keystream into FBUF[off .. off+len). -/
  | ctrxor (rsv off len : Byte)
  /-- CMAC (R183): the full tag of FBUF[off .. off+len). -/
  | cmac (rsv off len : Byte)
  /-- MICGEN (R184): the MIC of the header and payload FBUF[0 .. len). -/
  | micgen (rsv off len : Byte)
  /-- SEAL (R204): encrypt the payload of FBUF[0 .. len) and append the MIC. -/
  | sealFrame (rsv off len : Byte)
  /-- OPEN (R205): verify the MIC of the frame FBUF[0 .. len), then decrypt its payload. -/
  | openFrame (rsv off len : Byte)
  /-- KEYCLR (R149): erase the key. -/
  | keyclr (rsv off len : Byte)
  /-- SENC (R236): encode STBUF[0 .. arg) into EBUF. -/
  | senc (rsv : BitVec 16) (arg : Byte)
  /-- SRXB (R247): feed the byte arg to the decoder. -/
  | srxb (rsv : BitVec 16) (arg : Byte)
  /-- SRXACK (R248): release SRBUF. -/
  | srxack (rsv : BitVec 16) (arg : Byte)
  /-- SRXRST (R249): return the decoder to hunt. -/
  | srxrst (rsv : BitVec 16) (arg : Byte)
deriving DecidableEq, Repr

end Sys2Proof
end

