-- ==== Sys2Proof/WellFormed.lean ====
section
/-! DEFINITION. The checks a command's word must pass beyond its OPC: RSV is 0 (R117, R119) and so is every other
must-be-zero field (R118, R119). A command that fails one still runs: a CE command then ends with PARAM_INVALID
(R117, R118) and an SC command sets CMDERR (R119). -/

namespace Sys2Proof

/-- RSV, LEN and OFF are all 0: what AESENC and KEYCLR require (R118). -/
def noOperands (rsv off len : Byte) : Bool := rsv == 0 && off == 0 && len == 0

/-- RSV and OFF are 0: what MICGEN, SEAL and OPEN require (R118). -/
def lenOnly (rsv off : Byte) : Bool := rsv == 0 && off == 0

/-- The word of the command is free of PARAM_INVALID (format CE, R117, R118) and of CMDERR (format SC, R119). -/
def Instr.wellFormed : Instr → Bool
  | .aesenc rsv off len => noOperands rsv off len
  | .ctrxor rsv _ _ => rsv == 0
  | .cmac rsv _ _ => rsv == 0
  | .micgen rsv off _ => lenOnly rsv off
  | .sealFrame rsv off _ => lenOnly rsv off
  | .openFrame rsv off _ => lenOnly rsv off
  | .keyclr rsv off len => noOperands rsv off len
  | .senc rsv _ => rsv == 0
  | .srxb rsv _ => rsv == 0
  | .srxack rsv arg => rsv == 0 && arg == 0
  | .srxrst rsv arg => rsv == 0 && arg == 0

end Sys2Proof
end

