-- ==== Sys2Proof/Decode.lean ====
section
/-! DEFINITION. Command words: the two formats (R110 to R112), the decoder (total on every word, R120), the encoder,
and the assembler forms of R122 to R124. -/

namespace Sys2Proof

/-- The format of a command word. The word does not say it: the register written does (R110). -/
inductive Format where
  | ce   -- written to CMD
  | sc   -- written to SER_CMD
deriving DecidableEq, Repr

/-- Why a word names no command. -/
inductive DecodeError where
  | illegalCmd (opc : Byte)   -- R116: the engine step ends with ILLEGAL_CMD
  | illegalSer (opc : Byte)   -- R119: the SER_CMD write sets CMDERR
deriving DecidableEq, Repr

/-! ### Fields (R111, R112) -/

/-- OPC, bits 7:0 of both formats. -/
def opcOf (w : Word) : Byte := w.extractLsb' 0 8
/-- LEN, bits 15:8 of format CE. -/
def lenOf (w : Word) : Byte := w.extractLsb' 8 8
/-- OFF, bits 23:16 of format CE. -/
def offOf (w : Word) : Byte := w.extractLsb' 16 8
/-- RSV, bits 31:24 of format CE. -/
def rsvOf (w : Word) : Byte := w.extractLsb' 24 8
/-- ARG, bits 15:8 of format SC. -/
def argOf (w : Word) : Byte := w.extractLsb' 8 8
/-- RSV, bits 31:16 of format SC. -/
def serRsvOf (w : Word) : BitVec 16 := w.extractLsb' 16 16

/-- A field of any width put in its place in a 32-bit word, its lowest bit at bit `lo` (R13, R122). -/
def fieldAt {n : Nat} (v : BitVec n) (lo : Nat) : Word := v.setWidth 32 <<< lo

/-! ### Decoding -/

/-- The CE command of a word written to CMD (R114), or ILLEGAL_CMD (R116). OPC is looked at first (R121). -/
def decodeCe (w : Word) : Except DecodeError Instr :=
  let rsv := rsvOf w
  let off := offOf w
  let len := lenOf w
  if opcOf w = 0x01 then .ok (.aesenc rsv off len)
  else if opcOf w = 0x02 then .ok (.ctrxor rsv off len)
  else if opcOf w = 0x03 then .ok (.cmac rsv off len)
  else if opcOf w = 0x04 then .ok (.micgen rsv off len)
  else if opcOf w = 0x05 then .ok (.sealFrame rsv off len)
  else if opcOf w = 0x06 then .ok (.openFrame rsv off len)
  else if opcOf w = 0x07 then .ok (.keyclr rsv off len)
  else .error (.illegalCmd (opcOf w))

/-- The SC command of a word written to SER_CMD (R115), or an illegal word (R119). -/
def decodeSc (w : Word) : Except DecodeError Instr :=
  let rsv := serRsvOf w
  let arg := argOf w
  if opcOf w = 0x01 then .ok (.senc rsv arg)
  else if opcOf w = 0x02 then .ok (.srxb rsv arg)
  else if opcOf w = 0x03 then .ok (.srxack rsv arg)
  else if opcOf w = 0x04 then .ok (.srxrst rsv arg)
  else .error (.illegalSer (opcOf w))

/-- The register written decides the format (R110). -/
def decode : Format → Word → Except DecodeError Instr
  | .ce, w => decodeCe w
  | .sc, w => decodeSc w

/-! ### Encoding -/

/-- The format a command's word is written in (R114, R115). -/
def Instr.format : Instr → Format
  | .aesenc .. | .ctrxor .. | .cmac .. | .micgen .. | .sealFrame .. | .openFrame .. | .keyclr .. => .ce
  | .senc .. | .srxb .. | .srxack .. | .srxrst .. => .sc

/-- OPC of a command (R114, R115). -/
def Instr.opcode : Instr → Byte
  | .aesenc .. => 0x01
  | .ctrxor .. => 0x02
  | .cmac .. => 0x03
  | .micgen .. => 0x04
  | .sealFrame .. => 0x05
  | .openFrame .. => 0x06
  | .keyclr .. => 0x07
  | .senc .. => 0x01
  | .srxb .. => 0x02
  | .srxack .. => 0x03
  | .srxrst .. => 0x04

/-- A word of format CE (R111, R122): `RSV<<24 | OFF<<16 | LEN<<8 | OPC`. -/
def ceWord (rsv off len opc : Byte) : Word :=
  fieldAt rsv 24 ||| fieldAt off 16 ||| fieldAt len 8 ||| fieldAt opc 0

/-- A word of format SC (R112, R123): `RSV<<16 | ARG<<8 | OPC`. -/
def scWord (rsv : BitVec 16) (arg opc : Byte) : Word := fieldAt rsv 16 ||| fieldAt arg 8 ||| fieldAt opc 0

/-- The 32-bit word of a command (R111, R112, R114, R115). -/
def encode (i : Instr) : Word :=
  match i with
  | .aesenc rsv off len | .ctrxor rsv off len | .cmac rsv off len | .micgen rsv off len
  | .sealFrame rsv off len | .openFrame rsv off len | .keyclr rsv off len => ceWord rsv off len i.opcode
  | .senc rsv arg | .srxb rsv arg | .srxack rsv arg | .srxrst rsv arg => scWord rsv arg i.opcode

/-! ### The assembler (R122 to R124) -/

namespace Asm

def aesenc : Instr := .aesenc 0 0 0
def ctrxor (off len : Byte) : Instr := .ctrxor 0 off len
def cmac (off len : Byte) : Instr := .cmac 0 off len
def micgen (len : Byte) : Instr := .micgen 0 0 len
def sealFrame (len : Byte) : Instr := .sealFrame 0 0 len
def openFrame (len : Byte) : Instr := .openFrame 0 0 len
def keyclr : Instr := .keyclr 0 0 0
def senc (len : Byte) : Instr := .senc 0 len
def srxb (b : Byte) : Instr := .srxb 0 b
def srxack : Instr := .srxack 0 0
def srxrst : Instr := .srxrst 0 0

/-- Pseudo-instruction ENCRYPT (R124): the same word as CTRXOR. -/
def encrypt (off len : Byte) : Instr := ctrxor off len
/-- Pseudo-instruction DECRYPT (R124): the same word as CTRXOR. -/
def decrypt (off len : Byte) : Instr := ctrxor off len
/-- Pseudo-instruction SRXS (R124): one SRXB per byte. -/
def srxs (bs : List Byte) : List Instr := bs.map srxb

end Asm

/-! ### The opcode table's numbering -/

/-- The format a BARE word is read in. R110 leaves the format to the register written, and words 0x01 to 0x04 with
small operands are commands of both formats. The row of the table that fixes most bits wins: 0x00000001 is AESENC
(which fixes all 32, SENC only 24); else a legal SC word (R119) is that SC command; any other word is a CE word. A
convention of the table's numbering only (DESIGN CHOICE, log entry 12): no step uses it. -/
def bareFormat (w : Word) : Format :=
  if w = 0x00000001 then .ce
  else
    match decodeSc w with
    | .ok i => if i.wellFormed then .sc else .ce
    | .error _ => .ce

/-- What the decoder reads from an instruction of `nbits` bits `w`, numbered as spec/opcode_table.json numbers them.
Every command is one 32-bit word (R110), so the bits above `nbits` are zeros of that word. -/
def decodeTableWord (nbits w : Nat) : Option Instr :=
  if nbits ≤ 32 ∧ w < 2 ^ nbits then
    match decode (bareFormat (BitVec.ofNat 32 w)) (BitVec.ofNat 32 w) with
    | .ok i => some i
    | .error _ => none
  else none

end Sys2Proof
end

