-- ==== Sys2Proof/Machine/Bytes.lean ====
section
/-! DEFINITION. Byte strings and byte orders (R14): `be16`, `be32`, `le16`, `num_be`, XOR, and the little-endian lanes
in which a 32-bit datum carries four bytes (R40, R84). -/

namespace Sys2Proof.Machine

/-- `be16(v)` of R14. -/
def be16 (v : BitVec 16) : List Byte := [v.extractLsb' 8 8, v.extractLsb' 0 8]

/-- `le16(v)` of R14. -/
def le16 (v : BitVec 16) : List Byte := [v.extractLsb' 0 8, v.extractLsb' 8 8]

/-- `be32(v)` of R14. -/
def be32 (v : Word) : List Byte :=
  [v.extractLsb' 24 8, v.extractLsb' 16 8, v.extractLsb' 8 8, v.extractLsb' 0 8]

/-- `num_be(s)` of R14: the number whose big-endian bytes are s. -/
def numBe (s : List Byte) : Nat := s.foldl (fun acc b => 256 * acc + b.toNat) 0

/-- The n-byte string whose big-endian number is v mod 256^n. -/
def bytesBe (n : Nat) (v : Nat) : List Byte :=
  (List.range n).map fun i => BitVec.ofNat 8 (v >>> (8 * (n - 1 - i)))

/-- `0^n` of R14. -/
def zeros (n : Nat) : List Byte := List.replicate n 0

/-- `a XOR b` of R14, for byte strings of equal length. -/
def xorBytes (a b : List Byte) : List Byte := List.zipWith (fun x y => x ^^^ y) a b

/-- `s[i]` of R14. -/
def byteAt (s : List Byte) (i : Nat) : Byte := s.getD i 0

/-- The four bytes a 32-bit datum carries, byte i in bits 8i+7 to 8i (R84). -/
def lanes (w : Word) : List Byte :=
  [w.extractLsb' 0 8, w.extractLsb' 8 8, w.extractLsb' 16 8, w.extractLsb' 24 8]

/-- The 32-bit datum whose lanes are the four bytes (R84): `b0 | b1<<8 | b2<<16 | b3<<24`. -/
def ofLanes (b0 b1 b2 b3 : Byte) : Word := fieldAt b0 0 ||| fieldAt b1 8 ||| fieldAt b2 16 ||| fieldAt b3 24

end Sys2Proof.Machine
end

