-- ==== Sys2Proof/Config.lean ====
section
/-! DEFINITION. What is fixed when an LCSB is built (R9), the names of its five buffers (R50 to R54), and the
FREE VALUES of the model: constants with no body, of which nothing can be proved but that they exist. -/

namespace Sys2Proof

/-- The five byte buffers of R30. ABUF is hidden: no window offset reaches it (R54). -/
inductive Buf where
  | fbuf    -- R50: the packet buffer, 256 bytes
  | stbuf   -- R51: the frame data SENC encodes, 256 bytes
  | srbuf   -- R52: the last delivered frame, 256 bytes
  | ebuf    -- R53: the last encoded frame, 1024 bytes
  | abuf    -- R54: the decoder's assembly buffer, 256 bytes
deriving DecidableEq, Repr

namespace Config

/-- `P_PAN_ORDER` of R9: the byte order of the PAN id inside the counter block and B0. -/
inductive PanOrder where
  | be
  | le
deriving DecidableEq, Repr

/-- `P_MIC_SEL` of R9: which four bytes of the CMAC tag form the MIC (R180). -/
inductive MicSel where
  | low
  | high
deriving DecidableEq, Repr

/-- The configuration parameters of R9. They are fixed when the block is built; no step changes them. The model
carries them beside the state so that every claim over all states is a claim over all parameter values (log
entry 2). -/
structure Params where
  /-- `P_BASE`: the bus address of window offset 0 (R80: a multiple of 0x800). -/
  pBase : Nat
  /-- `P_CTR_DIR`: byte 0 of every counter block (R171). -/
  pCtrDir : Byte
  /-- `P_CTR_START`: the counter byte of the first keystream block (R171). -/
  pCtrStart : Byte
  /-- `P_B0_DIR`: byte 0 of the B0 block (R178). -/
  pB0Dir : Byte
  /-- `P_B0_TRAILER`: byte 15 of the B0 block (R178). -/
  pB0Trailer : Byte
  /-- `P_PAN_ORDER` (R170). -/
  pPanOrder : PanOrder
  /-- `P_MIC_SEL` (R180). -/
  pMicSel : MicSel
deriving DecidableEq, Repr

/-- The stated defaults of R9. `P_BASE` is OPEN there: 0 is a DESIGN CHOICE (log entry 3); unsafe only for a claim
that names an absolute bus address. -/
def Params.default : Params where
  pBase := 0
  pCtrDir := 0x01
  pCtrStart := 0x01
  pB0Dir := 0x49
  pB0Trailer := 0x00
  pPanOrder := .be
  pMicSel := .low

/-- FREE VALUE (R302): what byte `off` of buffer `b` holds when nothing has written it since the reset numbered
`epoch`; drawn freely and independently for each reset, buffer and offset. -/
opaque freeByte (epoch : Nat) (b : Buf) (off : Nat) : Byte

/-- FREE VALUE (R307): what draw number `n` gives for a host read of a CE output while STATUS.BUSY = 1. -/
opaque freeRead (n : Nat) : Word

/-- FREE VALUE (R305): how many host accesses come between an accepted CMD write and its engine step, for the
acceptance whose draw number is `n`. Every finite delay is allowed; that it is finite is the weak fairness R305
states. -/
opaque freeDelay (n : Nat) : Nat

end Config
end Sys2Proof
end

