-- ==== Sys2Proof/Machine/State.lean ====
section
/-! DEFINITION. Everything the spec gives the LCSB as state (R30), the reasons a step can stop, and the state right
after reset (R60, R301). Beside the block's own state stands what the model needs to run it: its configuration (R9),
the counters its free values are drawn with, the delay of the engine step (R305) and the host's accesses to come. -/

namespace Sys2Proof.Machine

/-- Why a step stops. Both kinds belong to the HOST agent, not to the block (R279, R280: no error stops the block). -/
inductive Fault where
  /-- A host read that is not admitted (R82): a bus error, and the host gets no value (R83, R279). Raised by a bus
  read or a POLL. Safe: the block's state does not change and the model claims nothing after it. -/
  | busErrorRead (addr : Nat)
  /-- A host write that is not admitted (R82): a bus error that changes no state (R83, R279). Raised by a bus write.
  Safe, as above. -/
  | busErrorWrite (addr : Nat)
  /-- A host access outside the window, which the block does not answer (R80). Raised by any bus access. Safe. -/
  | noResponse (addr : Nat)
deriving DecidableEq, Repr

/-- Why an instruction has no meaning. No meaning of this model raises it. -/
inductive Refusal where
  /-- Raised only by an arm of `exec` for an instruction the model has not reached; there is none. Safe. -/
  | notModelled (mnemonic : String)
deriving DecidableEq, Repr

/-- STATUS.RESULT (R270). Codes 6 to 15 are never produced, so the type leaves them out (93, section 1). -/
inductive ResultCode where
  | ok             -- 0
  | micFail        -- 1
  | cryptoError    -- 2
  | lengthError    -- 3
  | paramInvalid   -- 4
  | illegalCmd     -- 5
deriving DecidableEq, Repr

/-- The decoder's phase (R55): what the next unescaped byte is. -/
inductive Phase where
  | hunt
  | lenHi
  | lenLo
  | data
  | cksum
deriving DecidableEq, Repr

/-- Four 32-bit registers that hold one 16-byte string: KEY0-KEY3, BLK0-BLK3, TAG0-TAG3 (R40, R42, R43). -/
structure Quad where
  w0 : Word
  w1 : Word
  w2 : Word
  w3 : Word
deriving DecidableEq, Repr

/-- The bytes of one buffer that have been written since the last reset, as (offset, byte) pairs with strictly rising
offsets below the buffer's size (`Memory.wf`). An unlisted offset holds no written byte: it reads as the free value
`Config.freeByte` of the reset's epoch (R302, `State.readByte`). -/
abbrev Memory := List Host.Cell

/-- CTRL's stored bits (R32). SRST is W1S and stores nothing; the other bits are RAZ/WI. -/
structure Ctrl where
  doneIe : Bool   -- bit 1
  srxIe : Bool    -- bit 2
  serrIe : Bool   -- bit 3
deriving DecidableEq, Repr

/-- The crypto engine's registers, buffer and hidden state. -/
structure Ce where
  /-- The CE latch (R56): the accepted command word, `none` when empty. STATUS.BUSY is 1 exactly while it holds a
  word (R34, R35, R301, R306 set and clear the two together), so BUSY is read from it (`Ce.busy`). -/
  latch : Option Word
  /-- STATUS.DONE (R34). -/
  done : Bool
  /-- STATUS.CMDOVR (R34, R275). -/
  cmdovr : Bool
  /-- STATUS.WERR (R34, R276). -/
  werr : Bool
  /-- STATUS.RESULT (R34, R270). -/
  result : ResultCode
  /-- MAXPL bits 7:0 (R36). -/
  maxpl : Byte
  /-- ARG0 (R37): PAN in 15:0, DST in 23:16, SRC in 31:24. -/
  arg0 : Word
  /-- RLEN bits 7:0 (R38). -/
  rlen : Byte
  /-- MIC (R39). -/
  mic : Word
  /-- The internal value of KEY0-KEY3 (R40). -/
  key : Quad
  /-- KW (R41): which KEY words have been written; STATUS.KEYV is their conjunction (`Ce.keyv`). -/
  kw : BitVec 4
  /-- BLK0-BLK3 (R42). -/
  blk : Quad
  /-- TAG0-TAG3 (R43). -/
  tag : Quad
  /-- FBUF (R50). -/
  fbuf : Memory
deriving DecidableEq, Repr

/-- The decoder state of R55. -/
structure Decoder where
  phase : Phase
  esc : Bool
  pos : Byte
  dlen : BitVec 16
  sum : Byte
deriving DecidableEq, Repr

/-- The serial codec unit's registers, buffers and hidden state. -/
structure Scu where
  /-- SER_STATUS.RXRDY (R45). -/
  rxrdy : Bool
  /-- SER_STATUS.OVR (R45). -/
  ovr : Bool
  /-- SER_STATUS.CKERR (R45). -/
  ckerr : Bool
  /-- SER_STATUS.LENERR (R45). -/
  lenerr : Bool
  /-- SER_STATUS.SYNERR (R45). -/
  synerr : Bool
  /-- SER_STATUS.CMDERR (R45). -/
  cmderr : Bool
  /-- SER_RXLEN bits 7:0 (R46). -/
  rxlen : Byte
  /-- SER_ELEN bits 9:0 (R47). -/
  elen : BitVec 10
  /-- The decoder (R55); SER_DBG is a view of it (R48). -/
  dec : Decoder
  /-- STBUF (R51). -/
  stbuf : Memory
  /-- SRBUF (R52). -/
  srbuf : Memory
  /-- EBUF (R53). -/
  ebuf : Memory
  /-- ABUF (R54). -/
  abuf : Memory
deriving DecidableEq, Repr

/-- The width of a bus access (R82). -/
inductive Width where
  | w8
  | w16
  | w32
deriving DecidableEq, Repr

/-- One thing the outside world does to the block: a bus transaction at an absolute bus address (R80), the loop of
transactions POLL (R125), or the platform's reset input (R300). An 8-bit write carries its byte in bits 7:0. -/
inductive HostOp where
  | read (w : Width) (addr : Nat)
  | write (w : Width) (addr : Nat) (data : Word)
  | poll (addr : Nat) (mask value : Word)
  | assertReset
deriving DecidableEq, Repr

/-- The machine. The first field is its configuration; `ctrl`, `ce` and `scu` are the LCSB (R3, R30); the rest is the
model's own. -/
structure State where
  /-- The configuration parameters (R9); no step changes them. -/
  cfg : Config.Params
  ctrl : Ctrl
  ce : Ce
  scu : Scu
  /-- Model's own: how many resets have happened; selects the unspecified buffer bytes of R302. -/
  epoch : Nat
  /-- Model's own: how many free values have been drawn (R305, R307). -/
  draws : Nat
  /-- Model's own: how many host accesses still come before the engine step, while BUSY = 1 (R305). -/
  engineDelay : Nat
  /-- Model's own: the host's accesses to come, in the order the block receives them (R91). -/
  hostQueue : List HostOp
  /-- Model's own: the data of the host's last read. -/
  hostData : Option Word
deriving DecidableEq, Repr

/-- Four words of 0. -/
def Quad.zero : Quad := ⟨0, 0, 0, 0⟩

/-- CTRL after reset (R60). -/
def Ctrl.reset : Ctrl := ⟨false, false, false⟩

/-- The crypto engine after reset (R60): every register 0, MAXPL 246, KW 0, the latch empty. FBUF has no written
byte, so each of its bytes is unspecified (R302). -/
def Ce.reset : Ce where
  latch := none
  done := false
  cmdovr := false
  werr := false
  result := .ok
  maxpl := 0xF6
  arg0 := 0
  rlen := 0
  mic := 0
  key := .zero
  kw := 0
  blk := .zero
  tag := .zero
  fbuf := []

/-- The decoder after reset (R60), and after SRXRST (R249). -/
def Decoder.reset : Decoder := ⟨.hunt, false, 0, 0, 0⟩

/-- The serial codec unit after reset (R60). -/
def Scu.reset : Scu where
  rxrdy := false
  ovr := false
  ckerr := false
  lenerr := false
  synerr := false
  cmderr := false
  rxlen := 0
  elen := 0
  dec := .reset
  stbuf := []
  srbuf := []
  ebuf := []
  abuf := []

/-- The machine right after reset (R60, R301), in the default configuration (R9), with nothing asked of it yet. -/
def State.reset : State where
  cfg := .default
  ctrl := .reset
  ce := .reset
  scu := .reset
  epoch := 0
  draws := 0
  engineDelay := 0
  hostQueue := []
  hostData := none

end Sys2Proof.Machine
end

