-- ==== Sys2Proof/Machine/Layout.lean ====
section
/-! DEFINITION. The window map (R80, R81), which accesses are admitted (R82), the register map (10_state.md section 2)
and the fixed sizes of R10. -/

namespace Sys2Proof.Machine

/-- The window is 2048 bytes (R80). -/
def windowSize : Nat := 0x800
/-- `P_BASE` is a multiple of this (R80). -/
def windowAlign : Nat := 0x800
/-- `H`, the LinkPacket header (R10). -/
def headerLen : Nat := 5
/-- `MICLEN` (R10). -/
def micLen : Nat := 4
/-- `MAXPL_MAX`, the largest legal MAXPL (R10, R11, R36). -/
def maxplMax : Byte := 246
/-- `SER_MAX_BODY`, the largest frame-data length of a serial frame (R10). -/
def serMaxBody : Nat := 255
/-- The identification constant of R31, the ASCII bytes "LCSB". -/
def idValue : Word := 0x4C435342

/-- The size of each buffer (R10, R50 to R54). -/
def bufSize : Buf → Nat
  | .ebuf => 1024
  | .fbuf | .stbuf | .srbuf | .abuf => 256

/-- The registers by name. `reserved` stands for every offset from 0x064 to 0x0FC (R49). -/
inductive Reg where
  | id
  | ctrl
  | status
  | cmd
  | maxpl
  | arg0
  | rlen
  | mic
  | key (k : Fin 4)
  | blk (k : Fin 4)
  | tag (k : Fin 4)
  | serCmd
  | serStatus
  | serRxlen
  | serElen
  | serDbg
  | reserved
deriving DecidableEq, Repr

/-- The register map of 10_state.md section 2: entry n is the register at offset 4n. -/
def regMap : List Reg :=
  [.id, .ctrl, .status, .cmd, .maxpl, .arg0, .rlen, .mic,
   .key 0, .key 1, .key 2, .key 3, .blk 0, .blk 1, .blk 2, .blk 3,
   .tag 0, .tag 1, .tag 2, .tag 3, .serCmd, .serStatus, .serRxlen, .serElen, .serDbg]

/-- The register at an offset below 0x100. -/
def regAt (off : Nat) : Reg := regMap.getD (off / 4) .reserved

/-- The offset of CMD (R35). -/
def cmdOffset : Nat := 0x00C
/-- The offset of SER_CMD (R44). -/
def serCmdOffset : Nat := 0x050

/-- What an admitted access reaches: a register, or a buffer at an offset within the buffer. -/
inductive Target where
  | reg (r : Reg)
  | buf (b : Buf) (off : Nat)
deriving DecidableEq, Repr

/-- The window map of R81, for an offset inside the window. -/
def targetAt (off : Nat) : Target :=
  if off < 0x100 then .reg (regAt off)
  else if off < 0x200 then .buf .fbuf (off - 0x100)
  else if off < 0x300 then .buf .stbuf (off - 0x200)
  else if off < 0x400 then .buf .srbuf (off - 0x300)
  else .buf .ebuf (off - 0x400)

/-- Whether an access at an offset inside the window is admitted (R82). -/
def admitted (w : Width) (off : Nat) : Bool :=
  match w with
  | .w32 => off % 4 == 0
  | .w8 => decide (0x100 ≤ off)
  | .w16 => false

/-- The offset an absolute bus address reaches, if it lies in the window (R80). -/
def windowOffset (p : Config.Params) (addr : Nat) : Option Nat :=
  if p.pBase ≤ addr ∧ addr < p.pBase + windowSize then some (addr - p.pBase) else none

/-- What becomes of a bus access before it reaches anything. -/
inductive Access where
  | noResponse            -- outside the window (R80)
  | busError              -- inside it and not admitted (R82, R83)
  | reach (t : Target)    -- admitted
deriving DecidableEq, Repr

/-- R80, R81 and R82 together. -/
def access (p : Config.Params) (w : Width) (addr : Nat) : Access :=
  match windowOffset p addr with
  | none => .noResponse
  | some off => if admitted w off then .reach (targetAt off) else .busError

/-- The CE inputs of R58, which a host write does not reach while BUSY = 1 (R308). -/
def Target.isCeInput : Target → Bool
  | .reg (.key _) | .reg (.blk _) | .reg .arg0 | .reg .maxpl | .buf .fbuf _ => true
  | _ => false

/-- The CE outputs of R58, which a host read does not see while BUSY = 1 (R307). -/
def Target.isCeOutput : Target → Bool
  | .reg .rlen | .reg .mic | .reg (.tag _) | .buf .fbuf _ => true
  | _ => false

end Sys2Proof.Machine
end

