-- ==== Sys2Proof/Machine/Ops.lean ====
section
/-! DEFINITION. The named operations over buffers and registers: one per thing a rule does to the state. The
completion step (R306), by which every CE command ends, and the reset action (R301) are here too: they are the
LCSB's counterparts of taking an exception, for it takes no traps and returns from none (R280, R285). -/

namespace Sys2Proof.Machine

/-! ### One buffer -/

/-- The canonical form of a buffer's written bytes: offsets strictly rising and below the buffer's size. -/
def Memory.wf (size : Nat) : Memory → Bool
  | [] => true
  | (a, _) :: rest => decide (a < size) && rest.all (fun c => decide (a < c.1)) && Memory.wf size rest

/-- The byte written at an offset, if one was. -/
def Memory.lookup (a : Nat) : Memory → Option Byte
  | [] => none
  | (b, v) :: rest => if a = b then some v else Memory.lookup a rest

/-- Writes one byte, keeping the offsets strictly rising. -/
def Memory.insert (a : Nat) (v : Byte) : Memory → Memory
  | [] => [(a, v)]
  | (b, w) :: rest =>
    if a < b then (a, v) :: (b, w) :: rest
    else if a = b then (a, v) :: rest
    else (b, w) :: Memory.insert a v rest

/-- Writes a byte string from an offset on. Every write of the rules is inside the buffer (R16); a byte at or above
the size, which only a state no run reaches could ask for, is dropped (DEDUCED, log entry 6). -/
def Memory.writeBytes (size : Nat) : Nat → List Byte → Memory → Memory
  | _, [], m => m
  | off, b :: bs, m => Memory.writeBytes size (off + 1) bs (if off < size then Memory.insert off b m else m)

/-! ### The five buffers of the state -/

/-- The written bytes of a buffer. -/
def State.mem (s : State) : Buf → Memory
  | .fbuf => s.ce.fbuf
  | .stbuf => s.scu.stbuf
  | .srbuf => s.scu.srbuf
  | .ebuf => s.scu.ebuf
  | .abuf => s.scu.abuf

/-- Replaces the written bytes of a buffer. -/
def State.setMem (s : State) (b : Buf) (m : Memory) : State :=
  match b with
  | .fbuf => { s with ce := { s.ce with fbuf := m } }
  | .stbuf => { s with scu := { s.scu with stbuf := m } }
  | .srbuf => { s with scu := { s.scu with srbuf := m } }
  | .ebuf => { s with scu := { s.scu with ebuf := m } }
  | .abuf => { s with scu := { s.scu with abuf := m } }

/-- THE read of one byte of a buffer: the byte last written there, or, where nothing was written since the last
reset, the unspecified byte of R302, which is the same at every read (R88) and differs from reset to reset. -/
def State.readByte (s : State) (b : Buf) (off : Nat) : Byte :=
  (Memory.lookup off (s.mem b)).getD (Config.freeByte s.epoch b off)

/-- `MemRead(BUF, off, n)` of R16. -/
def State.memRead (s : State) (b : Buf) (off n : Nat) : List Byte :=
  (List.range n).map fun i => s.readByte b (off + i)

/-- `MemWrite(BUF, off, |bs|, bs)` of R16. -/
def State.memWrite (s : State) (b : Buf) (off : Nat) (bs : List Byte) : State :=
  s.setMem b (Memory.writeBytes (bufSize b) off bs (s.mem b))

/-! ### Register groups (R40, R42, R43) -/

/-- Word k of a group. -/
def Quad.get (q : Quad) (k : Fin 4) : Word :=
  match k with
  | 0 => q.w0
  | 1 => q.w1
  | 2 => q.w2
  | 3 => q.w3

/-- Replaces word k of a group. -/
def Quad.set (q : Quad) (k : Fin 4) (v : Word) : Quad :=
  match k with
  | 0 => { q with w0 := v }
  | 1 => { q with w1 := v }
  | 2 => { q with w2 := v }
  | 3 => { q with w3 := v }

/-- The 16 bytes of a group: byte i is bits 8(i mod 4)+7 .. 8(i mod 4) of word i/4 (R40). -/
def Quad.bytes (q : Quad) : List Byte := lanes q.w0 ++ lanes q.w1 ++ lanes q.w2 ++ lanes q.w3

/-- The group that holds a 16-byte string (R40). -/
def Quad.ofBytes (s : List Byte) : Quad where
  w0 := ofLanes (byteAt s 0) (byteAt s 1) (byteAt s 2) (byteAt s 3)
  w1 := ofLanes (byteAt s 4) (byteAt s 5) (byteAt s 6) (byteAt s 7)
  w2 := ofLanes (byteAt s 8) (byteAt s 9) (byteAt s 10) (byteAt s 11)
  w3 := ofLanes (byteAt s 12) (byteAt s 13) (byteAt s 14) (byteAt s 15)

/-! ### The completion step (R306) and the launch of a command (R35) -/

/-- STATUS.BUSY (R34): 1 exactly while the CE latch holds a word (R56). -/
def Ce.busy (c : Ce) : Bool := c.latch.isSome

/-- THE COMPLETION STEP of R306: BUSY and the latch cleared, DONE set, RESULT written; nothing else. -/
def State.complete (s : State) (code : ResultCode) : State :=
  { s with ce := { s.ce with latch := none, done := true, result := code } }

/-- `raise Result(code)` of R17: the completion step and no other change. -/
def raiseResult (code : ResultCode) (s : State) : Host.Outcome State Fault Refusal := .next (s.complete code)

/-- `finish(code)` of R17: the normal end of a CE command, after its writes. -/
def finish (code : ResultCode) (s : State) : Host.Outcome State Fault Refusal := .next (s.complete code)

/-- A word goes into the latch: BUSY = 1, DONE = 0 (R35), with `delay` host accesses to come before its engine step
(R305). -/
def State.launch (s : State) (w : Word) (delay : Nat) : State :=
  { s with ce := { s.ce with latch := some w, done := false }, engineDelay := delay }

/-- An accepted CMD write (R35). The delay is drawn freely (R305). -/
def State.acceptCmd (s : State) (w : Word) : State :=
  { s.launch w (Config.freeDelay s.draws) with draws := s.draws + 1 }

/-! ### The crypto engine's registers -/

/-- STATUS.CMDOVR <- 1 (R35, R275). -/
def State.setCmdovr (s : State) : State := { s with ce := { s.ce with cmdovr := true } }

/-- STATUS.WERR <- 1 (R58, R276). -/
def State.setWerr (s : State) : State := { s with ce := { s.ce with werr := true } }

/-- `x[TAG] <- q`. -/
def State.setTag (s : State) (q : Quad) : State := { s with ce := { s.ce with tag := q } }

/-- `x[MIC] <- v`. -/
def State.setMic (s : State) (v : Word) : State := { s with ce := { s.ce with mic := v } }

/-- `x[RLEN] <- n`. -/
def State.setRlen (s : State) (n : Byte) : State := { s with ce := { s.ce with rlen := n } }

/-- Every KEY byte 0 and KW = 0000 (R41, R149). -/
def State.clearKey (s : State) : State := { s with ce := { s.ce with key := .zero, kw := 0 } }

/-- A KEYk write that is not dropped: the word is replaced and KW[k] <- 1 (R41). -/
def State.writeKey (s : State) (k : Fin 4) (v : Word) : State :=
  { s with ce := { s.ce with key := s.ce.key.set k v, kw := s.ce.kw ||| (1#4 <<< k.val) } }

/-- A BLKk write (R42). -/
def State.writeBlk (s : State) (k : Fin 4) (v : Word) : State :=
  { s with ce := { s.ce with blk := s.ce.blk.set k v } }

/-- An ARG0 write (R37). -/
def State.writeArg0 (s : State) (v : Word) : State := { s with ce := { s.ce with arg0 := v } }

/-- A MAXPL write of the field value v stores min(v, 246) (R36). -/
def State.writeMaxpl (s : State) (v : Byte) : State :=
  { s with ce := { s.ce with maxpl := if v ≤ maxplMax then v else maxplMax } }

/-! ### The serial codec unit's registers -/

/-- SER_STATUS.CMDERR <- 1 (R119). -/
def State.setCmderr (s : State) : State := { s with scu := { s.scu with cmderr := true } }

/-- SER_STATUS.SYNERR <- 1 (R239). -/
def State.setSynerr (s : State) : State := { s with scu := { s.scu with synerr := true } }

/-- SER_STATUS.LENERR <- 1 (R244). -/
def State.setLenerr (s : State) : State := { s with scu := { s.scu with lenerr := true } }

/-- SER_STATUS.CKERR <- 1 (R246). -/
def State.setCkerr (s : State) : State := { s with scu := { s.scu with ckerr := true } }

/-- SER_STATUS.OVR <- 1 (R246). -/
def State.setOvr (s : State) : State := { s with scu := { s.scu with ovr := true } }

/-- SER_STATUS.RXRDY <- b (R246, R248). -/
def State.setRxrdy (s : State) (b : Bool) : State := { s with scu := { s.scu with rxrdy := b } }

/-- `x[SER_RXLEN] <- n` (R246). -/
def State.setRxlen (s : State) (n : Byte) : State := { s with scu := { s.scu with rxlen := n } }

/-- `x[SER_ELEN] <- n` (R236). -/
def State.setElen (s : State) (n : BitVec 10) : State := { s with scu := { s.scu with elen := n } }

/-- Replaces the decoder state (R55). -/
def State.setDec (s : State) (d : Decoder) : State := { s with scu := { s.scu with dec := d } }

/-! ### Reset (R300, R301) -/

/-- THE RESET ACTION of R301: every register and hidden element at its value of R60, the latch emptied (a pending
command is cancelled, R303), every buffer byte unspecified anew (R302: the next epoch). The configuration is not
state of the block, and the host's accesses to come are the host's. -/
def State.resetAction (s : State) : State :=
  { s with
    ctrl := .reset
    ce := .reset
    scu := .reset
    epoch := s.epoch + 1
    engineDelay := 0 }

/-! ### The host's side of a read -/

/-- The host receives the data of its read. A read changes nothing else (R88). -/
def State.answer (s : State) (v : Word) : State := { s with hostData := some v }

/-- One free value has been drawn (R307). -/
def State.draw (s : State) : State := { s with draws := s.draws + 1 }

end Sys2Proof.Machine
end

