-- ==== Sys2Proof/Machine/Flags.lean ====
section
/-! DEFINITION. The flags and codes the registers show: CTRL (R32), STATUS (R34), SER_STATUS (R45), SER_DBG (R48), what
a write-1-to-clear does to them, and the interrupt output (R57). -/

namespace Sys2Proof.Machine

/-- The number of a result code (R270). -/
def ResultCode.code : ResultCode → BitVec 4
  | .ok => 0
  | .micFail => 1
  | .cryptoError => 2
  | .lengthError => 3
  | .paramInvalid => 4
  | .illegalCmd => 5

/-- The number SER_DBG shows for a phase (R48). -/
def Phase.code : Phase → BitVec 3
  | .hunt => 0
  | .lenHi => 1
  | .lenLo => 2
  | .data => 3
  | .cksum => 4

/-- STATUS.KEYV (R41): all four KEY words written since the last reset or KEYCLR. -/
def Ce.keyv (c : Ce) : Bool := c.kw.getLsbD 0 && c.kw.getLsbD 1 && c.kw.getLsbD 2 && c.kw.getLsbD 3

/-- A one-bit field at bit i of a register. -/
def flagAt (b : Bool) (i : Nat) : Word := fieldAt (BitVec.ofBool b) i

/-- CTRL as read (R32). -/
def Ctrl.word (c : Ctrl) : Word := flagAt c.doneIe 1 ||| flagAt c.srxIe 2 ||| flagAt c.serrIe 3

/-- STATUS as read (R34). -/
def Ce.statusWord (c : Ce) : Word :=
  flagAt c.busy 0 ||| flagAt c.done 1 ||| flagAt c.keyv 2 ||| flagAt c.cmdovr 3 ||| flagAt c.werr 4
    ||| fieldAt c.result.code 8

/-- SER_STATUS as read (R45). -/
def Scu.statusWord (u : Scu) : Word :=
  flagAt u.rxrdy 0 ||| flagAt u.ovr 1 ||| flagAt u.ckerr 2 ||| flagAt u.lenerr 3 ||| flagAt u.synerr 4
    ||| flagAt u.cmderr 5

/-- SER_DBG as read (R48); the sum is not shown (R55). -/
def Decoder.dbgWord (d : Decoder) : Word :=
  fieldAt d.phase.code 0 ||| flagAt d.esc 3 ||| fieldAt d.pos 8 ||| fieldAt d.dlen 16

/-- A CTRL write with bit 0 = 0 writes bits 3:1 (R33). -/
def State.writeCtrl (s : State) (v : Word) : State :=
  { s with ctrl := ⟨v.getLsbD 1, v.getLsbD 2, v.getLsbD 3⟩ }

/-- A STATUS write: a 1 in bit 1, 3 or 4 clears DONE, CMDOVR or WERR; the other bits are RO or RAZ/WI (R34). -/
def State.ackStatus (s : State) (v : Word) : State :=
  { s with ce := { s.ce with
      done := s.ce.done && !v.getLsbD 1
      cmdovr := s.ce.cmdovr && !v.getLsbD 3
      werr := s.ce.werr && !v.getLsbD 4 } }

/-- A SER_STATUS write: a 1 in bits 1 to 5 clears OVR, CKERR, LENERR, SYNERR or CMDERR; RXRDY is RO (R45). -/
def State.ackSerStatus (s : State) (v : Word) : State :=
  { s with scu := { s.scu with
      ovr := s.scu.ovr && !v.getLsbD 1
      ckerr := s.scu.ckerr && !v.getLsbD 2
      lenerr := s.scu.lenerr && !v.getLsbD 3
      synerr := s.scu.synerr && !v.getLsbD 4
      cmderr := s.scu.cmderr && !v.getLsbD 5 } }

/-- Some SCU error flag is set (R57). -/
def Scu.anyError (u : Scu) : Bool := u.ovr || u.ckerr || u.lenerr || u.synerr || u.cmderr

/-- The interrupt output IRQ (R57): a level, at all times this function of the state. -/
def State.irq (s : State) : Bool :=
  (s.ce.done && s.ctrl.doneIe) || (s.scu.rxrdy && s.ctrl.srxIe) || (s.scu.anyError && s.ctrl.serrIe)

end Sys2Proof.Machine
end

