-- ==== Sys2Proof/Machine/Operands.lean ====
section
/-! DEFINITION. Where commands find their operands: the key, the block, ARG0's fields, an FBUF range and the LinkPacket
header in FBUF; and the checks R271 puts before a command's effect. -/

namespace Sys2Proof.Machine

/-- K of R18: the 16 key bytes (R40, R150). -/
def Ce.keyBytes (c : Ce) : List Byte := c.key.bytes

/-- The AES input block (R42). -/
def Ce.blkBytes (c : Ce) : List Byte := c.blk.bytes

/-- ARG0.PAN (R37). -/
def Ce.argPan (c : Ce) : BitVec 16 := c.arg0.extractLsb' 0 16
/-- ARG0.DST (R37). -/
def Ce.argDst (c : Ce) : Byte := c.arg0.extractLsb' 16 8
/-- ARG0.SRC (R37). -/
def Ce.argSrc (c : Ce) : Byte := c.arg0.extractLsb' 24 8

/-- `pan = num_be(FBUF[0..2))` of a serialized frame F (R179, R201). -/
def framePan (f : List Byte) : BitVec 16 := BitVec.ofNat 16 (numBe (f.take 2))
/-- `dst = F[2]` (R179, R201). -/
def frameDst (f : List Byte) : Byte := byteAt f 2
/-- `src = F[3]` (R179, R201). -/
def frameSrc (f : List Byte) : Byte := byteAt f 3

/-- FBUF[OFF .. OFF+LEN) leaves FBUF: `OFF + LEN > 256` (R182, R183). -/
def rangeLeavesFbuf (off len : Byte) : Bool := decide (off.toNat + len.toNat > 256)

/-- `LEN < base or LEN - base > x[MAXPL]`: no room for the fixed part of the frame, or a payload longer than MAXPL.
The base is 5 for MICGEN and SEAL (R184, R204) and 9 for OPEN (R202, R205). -/
def badFrameLen (base : Nat) (len maxpl : Byte) : Bool :=
  decide (len.toNat < base ∨ len.toNat - base > maxpl.toNat)

/-- The checks of R271 in their order, before a command's effect: a must-be-zero field, the command's length check,
the key. The effect happens when all three pass. -/
def checked (paramOk lenBad keyMissing : Bool) (effect : State → Host.Outcome State Fault Refusal) (s : State) :
    Host.Outcome State Fault Refusal :=
  if paramOk = false then raiseResult .paramInvalid s
  else if lenBad = true then raiseResult .lengthError s
  else if keyMissing = true then raiseResult .cryptoError s
  else effect s

end Sys2Proof.Machine
end

