-- ==== Sys2Proof/Machine/MacPrimitives.lean ====
section
/-! DEFINITION. The CTR keystream (R170 to R174), AES-CMAC (R175 to R177), B0 and the MIC (R178 to R181). -/

namespace Sys2Proof.Machine

open Config (Params)

/-! ### Counter block and keystream -/

/-- `panbytes(pan)` of R170. -/
def panBytes (p : Params) (pan : BitVec 16) : List Byte :=
  match p.pPanOrder with
  | .be => be16 pan
  | .le => le16 pan

/-- The counter block A_j of R171; its last byte is (P_CTR_START + j) mod 256. -/
def counterBlock (p : Params) (pan : BitVec 16) (dst src : Byte) (j : Nat) : List Byte :=
  [p.pCtrDir] ++ zeros 10 ++ panBytes p pan ++ [dst, src, p.pCtrStart + BitVec.ofNat 8 j]

/-- `KS(K, pan, dst, src, n)` of R172. -/
def keystream (p : Params) (k : List Byte) (pan : BitVec 16) (dst src : Byte) (n : Nat) : List Byte :=
  ((List.range ((n + 15) / 16)).flatMap fun j => aes128 k (counterBlock p pan dst src j)).take n

/-- `ctr(K, pan, dst, src, D)` of R173. -/
def ctrTransform (p : Params) (k : List Byte) (pan : BitVec 16) (dst src : Byte) (d : List Byte) : List Byte :=
  xorBytes d (keystream p k pan dst src d.length)

/-! ### AES-CMAC -/

/-- `dbl` of R175. -/
def dbl (x : List Byte) : List Byte :=
  bytesBe 16 (((numBe x <<< 1) % 2 ^ 128) ^^^ (if (byteAt x 0).getLsbD 7 then 0x87 else 0))

/-- K1 of R175. -/
def cmacK1 (k : List Byte) : List Byte := dbl (aes128 k (zeros 16))
/-- K2 of R175. -/
def cmacK2 (k : List Byte) : List Byte := dbl (cmacK1 k)

/-- `n` of R176: the number of blocks, at least 1. -/
def cmacBlocks (m : List Byte) : Nat := if m.length = 0 then 1 else (m.length + 15) / 16

/-- `complete` of R176: the message is a positive number of whole blocks. -/
def cmacComplete (m : List Byte) : Bool := decide (m.length ≠ 0 ∧ m.length % 16 = 0)

/-- `M_last` of R176. -/
def cmacLast (k m : List Byte) : List Byte :=
  let x := m.drop (16 * (cmacBlocks m - 1))
  if cmacComplete m then xorBytes x (cmacK1 k)
  else xorBytes (x ++ [0x80] ++ zeros (15 - x.length)) (cmacK2 k)

/-- X of R176 after the blocks before the last. -/
def cmacChain (k m : List Byte) : List Byte :=
  (List.range (cmacBlocks m - 1)).foldl
    (fun x i => aes128 k (xorBytes x ((m.drop (16 * i)).take 16))) (zeros 16)

/-- `CMAC(K, M)` of R176. -/
def cmac (k m : List Byte) : List Byte := aes128 k (xorBytes (cmacChain k m) (cmacLast k m))

/-! ### B0 and the MIC -/

/-- B0 of R178. -/
def b0Block (p : Params) (pan : BitVec 16) (dst src : Byte) (len : Nat) : List Byte :=
  [p.pB0Dir] ++ zeros 9 ++ [BitVec.ofNat 8 len] ++ panBytes p pan ++ [dst, src, p.pB0Trailer]

/-- `micfull(K, F)` of R179. -/
def micFull (p : Params) (k f : List Byte) : List Byte :=
  cmac k (b0Block p (framePan f) (frameDst f) (frameSrc f) f.length ++ f)

/-- `mic4(T)` of R180. -/
def mic4 (p : Params) (t : List Byte) : List Byte :=
  match p.pMicSel with
  | .low => (t.drop 12).take 4
  | .high => t.take 4

/-- The MIC as a number (R181). -/
def micNum (m : List Byte) : Word := BitVec.ofNat 32 (numBe m)

end Sys2Proof.Machine
end

