-- ==== Sys2Proof/Machine/BlockCipher.lean ====
section
/-! DEFINITION. The block cipher and key commands AESENC (R148) and KEYCLR (R149). -/

namespace Sys2Proof.Machine

/-- AESENC past its checks (R148): TAG <- AES128(K, BLK). -/
def aesencEffect (s : State) : Host.Outcome State Fault Refusal :=
  finish .ok (s.setTag (Quad.ofBytes (aes128 s.ce.keyBytes s.ce.blkBytes)))

/-- AESENC (R148). -/
def execAesenc (rsv off len : Byte) (s : State) : Host.Outcome State Fault Refusal :=
  checked (noOperands rsv off len) false (!s.ce.keyv) aesencEffect s

/-- KEYCLR (R149): it needs no key. -/
def execKeyclr (rsv off len : Byte) (s : State) : Host.Outcome State Fault Refusal :=
  checked (noOperands rsv off len) false false (fun s => finish .ok s.clearKey) s

end Sys2Proof.Machine
end

