-- ==== Sys2Proof/Machine/CtrMac.lean ====
section
/-! DEFINITION. The keystream, tag and MIC commands CTRXOR (R182), CMAC (R183) and MICGEN (R184). -/

namespace Sys2Proof.Machine

/-- CTRXOR past its checks (R182): the range XORed with the keystream of ARG0's triple. -/
def ctrxorEffect (off len : Byte) (s : State) : Host.Outcome State Fault Refusal :=
  let d := s.memRead .fbuf off.toNat len.toNat
  finish .ok (s.memWrite .fbuf off.toNat
    (ctrTransform s.cfg s.ce.keyBytes s.ce.argPan s.ce.argDst s.ce.argSrc d))

/-- CTRXOR (R182). -/
def execCtrxor (rsv off len : Byte) (s : State) : Host.Outcome State Fault Refusal :=
  checked (rsv == 0) (rangeLeavesFbuf off len) (!s.ce.keyv) (ctrxorEffect off len) s

/-- CMAC past its checks (R183). -/
def cmacEffect (off len : Byte) (s : State) : Host.Outcome State Fault Refusal :=
  finish .ok (s.setTag (Quad.ofBytes (cmac s.ce.keyBytes (s.memRead .fbuf off.toNat len.toNat))))

/-- CMAC (R183). -/
def execCmac (rsv off len : Byte) (s : State) : Host.Outcome State Fault Refusal :=
  checked (rsv == 0) (rangeLeavesFbuf off len) (!s.ce.keyv) (cmacEffect off len) s

/-- MICGEN past its checks (R184). -/
def micgenEffect (len : Byte) (s : State) : Host.Outcome State Fault Refusal :=
  let t := micFull s.cfg s.ce.keyBytes (s.memRead .fbuf 0 len.toNat)
  finish .ok ((s.setTag (Quad.ofBytes t)).setMic (micNum (mic4 s.cfg t)))

/-- MICGEN (R184). -/
def execMicgen (rsv off len : Byte) (s : State) : Host.Outcome State Fault Refusal :=
  checked (lenOnly rsv off) (badFrameLen headerLen len s.ce.maxpl) (!s.ce.keyv) (micgenEffect len) s

end Sys2Proof.Machine
end

