-- ==== Sys2Proof/Machine/FrameOps.lean ====
section
/-! DEFINITION. The LinkPacket commands SEAL (R204) and OPEN (R205), on the frame at FBUF offset 0 (R200 to R203). -/

namespace Sys2Proof.Machine

/-- The payload FBUF[5 .. 5+n) goes through the CTR transform of the header's triple, in place (R201, R204, R205). -/
def State.cryptPayload (s : State) (n : Nat) : State :=
  let h := s.memRead .fbuf 0 headerLen
  s.memWrite .fbuf headerLen
    (ctrTransform s.cfg s.ce.keyBytes (framePan h) (frameDst h) (frameSrc h) (s.memRead .fbuf headerLen n))

/-- SEAL past its checks (R204): encrypt the payload, then append the MIC of the header and ciphertext. -/
def sealEffect (len : Byte) (s : State) : Host.Outcome State Fault Refusal :=
  let s1 := s.cryptPayload (len.toNat - headerLen)
  let t := micFull s.cfg s.ce.keyBytes (s1.memRead .fbuf 0 len.toNat)
  let m := mic4 s.cfg t
  finish .ok ((((s1.memWrite .fbuf len.toNat m).setTag (Quad.ofBytes t)).setMic (micNum m)).setRlen (len + 4))

/-- SEAL (R204). -/
def execSealFrame (rsv off len : Byte) (s : State) : Host.Outcome State Fault Refusal :=
  checked (lenOnly rsv off) (badFrameLen headerLen len s.ce.maxpl) (!s.ce.keyv) (sealEffect len) s

/-- OPEN's MIC check failed (R205, R273): TAG, MIC and RLEN are zeroed and FBUF is not changed. -/
def openFail (s : State) : Host.Outcome State Fault Refusal :=
  finish .micFail (((s.setTag .zero).setMic 0).setRlen 0)

/-- OPEN past its checks (R205): compare all four MIC bytes (R206), and only then decrypt. -/
def openEffect (len : Byte) (s : State) : Host.Outcome State Fault Refusal :=
  let n := len.toNat - headerLen - micLen
  let f := s.memRead .fbuf 0 (len.toNat - micLen)
  let r := s.memRead .fbuf (len.toNat - micLen) micLen
  let t := micFull s.cfg s.ce.keyBytes f
  if mic4 s.cfg t ≠ r then openFail s
  else
    finish .ok ((((s.cryptPayload n).setTag (Quad.ofBytes t)).setMic (micNum r)).setRlen (BitVec.ofNat 8 n))

/-- OPEN (R205). -/
def execOpenFrame (rsv off len : Byte) (s : State) : Host.Outcome State Fault Refusal :=
  checked (lenOnly rsv off) (badFrameLen (headerLen + micLen) len s.ce.maxpl) (!s.ce.keyv) (openEffect len) s

end Sys2Proof.Machine
end

