-- ==== Sys2Proof/Machine/SerialCodec.lean ====
section
/-! DEFINITION. The serial framing codec: the encoder (R230 to R237), the incremental decoder (R238 to R246) and the
commands SENC (R236), SRXB (R247), SRXACK (R248) and SRXRST (R249). -/

namespace Sys2Proof.Machine

/-- The delimiter (R20, R232). -/
def delimiter : Byte := 0x7E
/-- The escape byte (R20, R232). -/
def escapeByte : Byte := 0x7D
/-- The pad constant (R20, R232). -/
def padConst : Byte := 0x20

/-- ESCSET of R232. -/
def escSet : List Byte := [0x7E, 0x7D, 0x11, 0x13]

/-! ### Encoding -/

/-- `esc(x)` of R232. -/
def escOne (x : Byte) : List Byte := if escSet.contains x then [escapeByte, x ^^^ padConst] else [x]

/-- `esc*(s)` of R232. -/
def escAll (s : List Byte) : List Byte := s.flatMap escOne

/-- The sum of a byte string mod 256 (R233). -/
def byteSum (d : List Byte) : Byte := d.foldl (fun acc b => acc + b) 0

/-- `ck(D)` of R233. -/
def checksum (d : List Byte) : Byte := 0xFF - byteSum d

/-- What is escaped of a frame: length, frame data, checksum (R234, R235). -/
def frameBody (d : List Byte) : List Byte := be16 (BitVec.ofNat 16 d.length) ++ d ++ [checksum d]

/-- `enc(D)` of R235. -/
def encodeFrame (d : List Byte) : List Byte := delimiter :: escAll (frameBody d)

/-! ### The decoder -/

/-- A delimiter (R239): a frame begins, whatever went before; one that was unfinished sets SYNERR. -/
def decodeDelimiter (s : State) : State :=
  let s1 := if s.scu.dec.phase ≠ .hunt then s.setSynerr else s
  s1.setDec ⟨.lenHi, false, 0, 0, 0⟩

/-- LEN_HI (R243). -/
def decodeLenHi (v : Byte) (s : State) : State :=
  s.setDec { s.scu.dec with dlen := v.setWidth 16 <<< 8, phase := .lenLo }

/-- LEN_LO (R244). -/
def decodeLenLo (v : Byte) (s : State) : State :=
  let dlen := s.scu.dec.dlen ||| v.setWidth 16
  if dlen.toNat > serMaxBody then s.setLenerr.setDec { s.scu.dec with dlen := dlen, phase := .hunt }
  else if dlen = 0 then s.setDec { s.scu.dec with dlen := dlen, phase := .cksum }
  else s.setDec { s.scu.dec with dlen := dlen, phase := .data }

/-- DATA (R245). -/
def decodeData (v : Byte) (s : State) : State :=
  let d := s.scu.dec
  let pos := d.pos + 1
  (s.memWrite .abuf d.pos.toNat [v]).setDec
    { d with sum := d.sum + v, pos := pos, phase := if pos.setWidth 16 = d.dlen then .cksum else .data }

/-- Delivery (R246): ABUF goes to SRBUF, SER_RXLEN and RXRDY are written. -/
def deliver (s : State) : State :=
  let n := s.scu.dec.dlen
  ((s.memWrite .srbuf 0 (s.memRead .abuf 0 n.toNat)).setRxlen (n.setWidth 8)).setRxrdy true

/-- CKSUM (R246): the frame is delivered, or dropped with OVR or CKERR; the decoder hunts. -/
def decodeCksum (v : Byte) (s : State) : State :=
  let s1 :=
    if v = 0xFF - s.scu.dec.sum then
      if s.scu.rxrdy = true then s.setOvr else deliver s
    else s.setCkerr
  s1.setDec { s.scu.dec with phase := .hunt }

/-- An unescaped or unmasked byte goes to the rule its phase selects (R242). In HUNT no byte gets here (R240). -/
def decodeByPhase (v : Byte) (s : State) : State :=
  match s.scu.dec.phase with
  | .hunt => s
  | .lenHi => decodeLenHi v s
  | .lenLo => decodeLenLo v s
  | .data => decodeData v s
  | .cksum => decodeCksum v s

/-- One byte fed to the decoder: the first of R239 to R242 that applies (R238). -/
def decoderStep (b : Byte) (s : State) : State :=
  let d := s.scu.dec
  if b = delimiter then decodeDelimiter s
  else if d.phase = .hunt then s
  else if b = escapeByte ∧ d.esc = false then s.setDec { d with esc := true }
  else decodeByPhase (if d.esc = true then b ^^^ padConst else b) (s.setDec { d with esc := false })

/-! ### The commands -/

/-- The legality check of R119 before an SC command's effect: an illegal word sets CMDERR and does nothing else. -/
def checkedSer (legal : Bool) (effect : State → State) (s : State) : Host.Outcome State Fault Refusal :=
  if legal = true then .next (effect s) else .next s.setCmderr

/-- SENC past its check (R236). -/
def sencEffect (arg : Byte) (s : State) : State :=
  let e := encodeFrame (s.memRead .stbuf 0 arg.toNat)
  (s.memWrite .ebuf 0 e).setElen (BitVec.ofNat 10 e.length)

/-- SENC (R236). -/
def execSenc (rsv : BitVec 16) (arg : Byte) (s : State) : Host.Outcome State Fault Refusal :=
  checkedSer (rsv == 0) (sencEffect arg) s

/-- SRXB (R247). -/
def execSrxb (rsv : BitVec 16) (arg : Byte) (s : State) : Host.Outcome State Fault Refusal :=
  checkedSer (rsv == 0) (decoderStep arg) s

/-- SRXACK (R248). -/
def execSrxack (rsv : BitVec 16) (arg : Byte) (s : State) : Host.Outcome State Fault Refusal :=
  checkedSer (rsv == 0 && arg == 0) (fun s => s.setRxrdy false) s

/-- SRXRST (R249). DESIGN CHOICE (log entry 20): in HUNT too it clears pos and dlen, as R249's pseudocode has it and
R246 expects ("until the next delimiter or SRXRST"), so that SER_DBG may change, although R249's corner case says that
nothing visible does. -/
def execSrxrst (rsv : BitVec 16) (arg : Byte) (s : State) : Host.Outcome State Fault Refusal :=
  checkedSer (rsv == 0 && arg == 0) (fun s => s.setDec .reset) s

end Sys2Proof.Machine
end

