-- ==== Sys2Proof/Machine/Dispatch.lean ====
section
/-! DEFINITION. What each command does, one arm per constructor of Instr: a CE command's whole engine step (R305), an SC
command's whole effect inside its SER_CMD write (R231). -/

namespace Sys2Proof.Machine

def exec (i : Instr) (s : State) : Host.Outcome State Fault Refusal :=
  match i with
  | .aesenc rsv off len => Sys2Proof.Machine.execAesenc rsv off len s
  | .ctrxor rsv off len => Sys2Proof.Machine.execCtrxor rsv off len s
  | .cmac rsv off len => Sys2Proof.Machine.execCmac rsv off len s
  | .micgen rsv off len => Sys2Proof.Machine.execMicgen rsv off len s
  | .sealFrame rsv off len => Sys2Proof.Machine.execSealFrame rsv off len s
  | .openFrame rsv off len => Sys2Proof.Machine.execOpenFrame rsv off len s
  | .keyclr rsv off len => Sys2Proof.Machine.execKeyclr rsv off len s
  | .senc rsv arg => Sys2Proof.Machine.execSenc rsv arg s
  | .srxb rsv arg => Sys2Proof.Machine.execSrxb rsv arg s
  | .srxack rsv arg => Sys2Proof.Machine.execSrxack rsv arg s
  | .srxrst rsv arg => Sys2Proof.Machine.execSrxrst rsv arg s

end Sys2Proof.Machine
end

