-- ==== Sys2Proof/Machine/Bus.lean ====
section
/-! DEFINITION. The bus: what an admitted host read returns and an admitted host write does (10_state.md section 2,
20_memory.md), the write-while-busy and read-while-busy rules (R307 to R309), and the two agents' moves: the host's
next access and the engine step (R305). -/

namespace Sys2Proof.Machine

/-! ### Reads -/

/-- A register as the host reads it: R31 to R49. WO registers, reserved offsets and reserved bits read 0. -/
def loadReg (s : State) : Reg → Word
  | .id => idValue
  | .ctrl => s.ctrl.word
  | .status => s.ce.statusWord
  | .cmd => 0
  | .maxpl => s.ce.maxpl.setWidth 32
  | .arg0 => s.ce.arg0
  | .rlen => s.ce.rlen.setWidth 32
  | .mic => s.ce.mic
  | .key _ => 0
  | .blk k => s.ce.blk.get k
  | .tag k => s.ce.tag.get k
  | .serCmd => 0
  | .serStatus => s.scu.statusWord
  | .serRxlen => s.scu.rxlen.setWidth 32
  | .serElen => s.scu.elen.setWidth 32
  | .serDbg => s.scu.dec.dbgWord
  | .reserved => 0

/-- A buffer as the host reads it (R84, R85): one byte, or the four bytes of a word in their lanes. -/
def loadBuf (w : Width) (b : Buf) (off : Nat) (s : State) : Word :=
  match w with
  | .w8 => (s.readByte b off).setWidth 32
  | _ => ofLanes (s.readByte b off) (s.readByte b (off + 1)) (s.readByte b (off + 2)) (s.readByte b (off + 3))

/-- The stored value an admitted read returns. -/
def storedData (w : Width) (t : Target) (s : State) : Word :=
  match t with
  | .reg r => loadReg s r
  | .buf b off => loadBuf w b off s

/-- The unspecified value of R307, of the width of the read. -/
def freeData (w : Width) (n : Nat) : Word :=
  match w with
  | .w8 => ((Config.freeRead n).setWidth 8).setWidth 32
  | _ => Config.freeRead n

/-- An admitted read. A CE output read while BUSY = 1 gives an unspecified value, drawn afresh (R307); every other
read gives the stored value. Only the host's data and the draw counter change (R88). -/
def readTarget (w : Width) (t : Target) (s : State) : State :=
  if s.ce.busy && t.isCeOutput then (s.answer (freeData w s.draws)).draw else s.answer (storedData w t s)

/-- A host read (R80, R82, R83, R279). -/
def hostRead (w : Width) (addr : Nat) (s : State) : Host.Outcome State Fault Refusal :=
  match access s.cfg w addr with
  | .noResponse => .fault (.noResponse addr)
  | .busError => .fault (.busErrorRead addr)
  | .reach t => .next (readTarget w t s)

/-! ### Writes -/

/-- A CMD write (R35): accepted, or dropped with CMDOVR while BUSY = 1. -/
def writeCmd (v : Word) (s : State) : State := if s.ce.busy then s.setCmdovr else s.acceptCmd v

/-- A CTRL write (R33): bit 0 = 1 resets and discards the other bits. -/
def writeCtrlReg (v : Word) (s : State) : State := if v.getLsbD 0 then s.resetAction else s.writeCtrl v

/-- A SER_CMD write (R44, R231): the SC command runs to its end, or an illegal word sets CMDERR (R119). -/
def writeSerCmd (v : Word) (s : State) : Host.Outcome State Fault Refusal :=
  match decode .sc v with
  | .ok i => exec i s
  | .error _ => .next s.setCmderr

/-- A register write that is not dropped: R31 to R49. RO registers and reserved offsets ignore it. -/
def storeReg (r : Reg) (v : Word) (s : State) : Host.Outcome State Fault Refusal :=
  match r with
  | .ctrl => .next (writeCtrlReg v s)
  | .status => .next (s.ackStatus v)
  | .cmd => .next (writeCmd v s)
  | .maxpl => .next (s.writeMaxpl (v.setWidth 8))
  | .arg0 => .next (s.writeArg0 v)
  | .key k => .next (s.writeKey k v)
  | .blk k => .next (s.writeBlk k v)
  | .serCmd => writeSerCmd v s
  | .serStatus => .next (s.ackSerStatus v)
  | .id | .rlen | .mic | .tag _ | .serRxlen | .serElen | .serDbg | .reserved => .next s

/-- The bytes a write carries (R84): one, or the four lanes of a word. -/
def writeBytesOf (w : Width) (v : Word) : List Byte :=
  match w with
  | .w8 => [v.setWidth 8]
  | _ => lanes v

/-- A buffer write that is not dropped: SRBUF and EBUF are read-only (R52, R53), and no host access reaches ABUF. -/
def storeBuf (w : Width) (b : Buf) (off : Nat) (v : Word) (s : State) : State :=
  match b with
  | .fbuf | .stbuf => s.memWrite b off (writeBytesOf w v)
  | .srbuf | .ebuf | .abuf => s

/-- An admitted write. While BUSY = 1 a write to a CE input is dropped and sets WERR (R58, R308). -/
def writeTarget (w : Width) (t : Target) (v : Word) (s : State) : Host.Outcome State Fault Refusal :=
  if s.ce.busy && t.isCeInput then .next s.setWerr
  else
    match t with
    | .reg r => storeReg r v s
    | .buf b off => .next (storeBuf w b off v s)

/-- A host write (R80, R82, R83, R279). -/
def hostWrite (w : Width) (addr : Nat) (v : Word) (s : State) : Host.Outcome State Fault Refusal :=
  match access s.cfg w addr with
  | .noResponse => .fault (.noResponse addr)
  | .busError => .fault (.busErrorWrite addr)
  | .reach t => writeTarget w t v s

/-! ### The agents -/

/-- The host's next access is taken off its queue; while BUSY = 1 it is one of those that come before the engine
step (R305). -/
def State.popHost (s : State) : State :=
  { s with
    hostQueue := s.hostQueue.tail
    engineDelay := if s.ce.busy then s.engineDelay - 1 else s.engineDelay }

/-- POLL's loop (R125): the line stays in front until its condition holds of the value read. -/
def pollAgain (addr : Nat) (mask value : Word) (s : State) : State :=
  if s.hostData.map (fun v => v &&& mask) = some value then s
  else { s with hostQueue := .poll addr mask value :: s.hostQueue }

/-- One move of the host (R316): a bus access, one round of a POLL, or the reset input (R300). -/
def hostMove (op : HostOp) (s : State) : Host.Outcome State Fault Refusal :=
  match op with
  | .read w addr => hostRead w addr s
  | .write w addr v => hostWrite w addr v s
  | .poll addr mask value =>
    match hostRead .w32 addr s with
    | .next s1 => .next (pollAgain addr mask value s1)
    | .fault r => .fault r
    | .refused r => .refused r
  | .assertReset => .next s.resetAction

/-- The engine step of a latched word (R305): the command's rule in full, or ILLEGAL_CMD (R116). -/
def engineRun (w : Word) (s : State) : Host.Outcome State Fault Refusal :=
  match decode .ce w with
  | .ok i => exec i s
  | .error _ => raiseResult .illegalCmd s

/-- Whose move is next. -/
inductive Turn where
  | idle                -- nothing is asked of the block and no command is latched
  | engine (w : Word)   -- the engine step of the latched word
  | host (op : HostOp)  -- the host's next access
deriving DecidableEq, Repr

/-- The engine step is enabled exactly when BUSY = 1 (R305). It comes when the accesses that were drawn to come
before it have come, or when the host asks nothing more. -/
def turn (s : State) : Turn :=
  match s.ce.latch, s.hostQueue with
  | none, [] => .idle
  | none, op :: _ => .host op
  | some w, [] => .engine w
  | some w, op :: _ => if s.engineDelay = 0 then .engine w else .host op

/-- One move of whichever agent is next. With no agent to move, the block keeps all its state (R291). -/
def move (s : State) : Host.Outcome State Fault Refusal :=
  match turn s with
  | .idle => .next s
  | .engine w => engineRun w s
  | .host op => hostMove op s.popHost

/-- A CE word stands latched with its engine step next; an SC word stands as the host's next access, a write to
SER_CMD, before anything else. -/
def State.place (s : State) (f : Format) (w : Word) : State :=
  match f with
  | .ce => s.launch w 0
  | .sc =>
    { s with
      hostQueue := .write .w32 (s.cfg.pBase + serCmdOffset) w :: s.hostQueue
      engineDelay := if s.ce.busy then max s.engineDelay 1 else s.engineDelay }

end Sys2Proof.Machine
end

