-- ==== Sys2Proof/Machine/Step.lean ====
section
/-! DEFINITION. One step of the machine: one atomic move of the host or of the CE engine (R12, R90, R305). -/

namespace Sys2Proof.Machine

/-- One step. -/
def step (s : State) : Host.Outcome State Fault Refusal := move s

/-- `s` with the command word `w` placed so that the very next step runs it. A word is read in the format
`bareFormat` gives it, as `decodeTableWord` reads it; every command is one 32-bit word (R110), and bits above it are
dropped. -/
def State.withFetchWord (s : State) (_nbits w : Nat) : State :=
  s.place (bareFormat (BitVec.ofNat 32 w)) (BitVec.ofNat 32 w)

end Sys2Proof.Machine
end

