-- ==== Sys2Proof/Machine/HostProgram.lean ====
section
/-! DEFINITION. The host-program syntax of R125: each line is the bus transactions it stands for, at offsets from
P_BASE; and a sequence of commands run one after another. -/

namespace Sys2Proof.Machine

open Config (Params)

/-- `WR32 off, v`. -/
def wr32 (p : Params) (off : Nat) (v : Word) : HostOp := .write .w32 (p.pBase + off) v
/-- `WR8 off, v`. -/
def wr8 (p : Params) (off : Nat) (v : Byte) : HostOp := .write .w8 (p.pBase + off) (v.setWidth 32)
/-- `RD32 off`. -/
def rd32 (p : Params) (off : Nat) : HostOp := .read .w32 (p.pBase + off)
/-- `RD8 off`. -/
def rd8 (p : Params) (off : Nat) : HostOp := .read .w8 (p.pBase + off)
/-- `POLL off, mask, v`. -/
def pollLine (p : Params) (off : Nat) (mask v : Word) : HostOp := .poll (p.pBase + off) mask v
/-- `CE <command>` and `SC <command>`: the command's word, written to the register of its format. -/
def commandLine (p : Params) (i : Instr) : HostOp :=
  match i.format with
  | .ce => wr32 p cmdOffset (encode i)
  | .sc => wr32 p serCmdOffset (encode i)

/-- `WRBUF off, bytes`: 32-bit writes for the complete words, 8-bit writes for a trailing partial word, in increasing
offset order. DESIGN CHOICE (log entry 19): R125 does not say how an `off` that is not a multiple of 4 is cut; the
model counts complete words from `off` on, so that a 32-bit write then stands at a misaligned offset and is not admitted
(R82). -/
def wrbuf (p : Params) : Nat → List Byte → List HostOp
  | off, b0 :: b1 :: b2 :: b3 :: rest => wr32 p off (ofLanes b0 b1 b2 b3) :: wrbuf p (off + 4) rest
  | off, rest => (List.range rest.length).map fun i => wr8 p (off + i) (byteAt rest i)

/-- Commands run one after another, stopping at the first that does not give a next state. -/
def execAll : List Instr → State → Host.Outcome State Fault Refusal
  | [], s => .next s
  | i :: rest, s =>
    match exec i s with
    | .next s1 => execAll rest s1
    | .fault r => .fault r
    | .refused r => .refused r

end Sys2Proof.Machine
end

