-- ==== Sys2Proof/Safety.lean ====
section
/-! DEFINITION. What counts as a good state and a safe run of the LCSB: the invariant that every step keeps, and the
duties of the host (R309 to R311, R316). -/

namespace Sys2Proof.Machine

/-- What holds of the decoder's registers between bytes (R239 to R246): in HUNT no escape is pending; before LEN_HI
nothing has been counted; in DATA a byte is still missing (R245: pos stays below dlen); in CKSUM none is; and the sum
is that of the bytes stored so far (R55). -/
structure DecoderInv (s : State) : Prop where
  huntNoEsc : s.scu.dec.phase = .hunt → s.scu.dec.esc = false
  lenHiZero : s.scu.dec.phase = .lenHi → s.scu.dec.pos = 0 ∧ s.scu.dec.dlen = 0 ∧ s.scu.dec.sum = 0
  lenLoZero : s.scu.dec.phase = .lenLo →
    s.scu.dec.pos = 0 ∧ s.scu.dec.dlen.setWidth 8 = 0#8 ∧ s.scu.dec.sum = 0
  dataRoom : s.scu.dec.phase = .data → s.scu.dec.pos.toNat < s.scu.dec.dlen.toNat ∧ s.scu.dec.dlen.toNat ≤ 255
  cksumFull : s.scu.dec.phase = .cksum → s.scu.dec.pos.toNat = s.scu.dec.dlen.toNat
  sumOfStored : s.scu.dec.phase = .data ∨ s.scu.dec.phase = .cksum →
    s.scu.dec.sum = byteSum (s.memRead .abuf 0 s.scu.dec.pos.toNat)

/-- The invariant of the machine. -/
structure Inv (s : State) : Prop where
  /-- P_BASE is a multiple of 0x800 (R80). -/
  baseAligned : s.cfg.pBase % windowAlign = 0
  /-- Every buffer's written bytes are in canonical form. -/
  buffersWf : ∀ b, Memory.wf (bufSize b) (s.mem b) = true
  /-- MAXPL never exceeds 246 (R36, R203). -/
  maxplLegal : s.ce.maxpl.toNat ≤ 246
  /-- BUSY and DONE are never 1 together (R35, R306). -/
  busyNotDone : s.ce.busy = true → s.ce.done = false
  /-- A KEY word not written since the last reset or KEYCLR is 0 (R41). -/
  unwrittenKeyZero : ∀ k : Fin 4, s.ce.kw.getLsbD k.val = false → s.ce.key.get k = 0
  /-- SER_ELEN never exceeds the bound of R237. -/
  elenBound : s.scu.elen.toNat ≤ 516
  decoder : DecoderInv s

/-- The access keeps the host's duties: it is admitted (R82), and while BUSY = 1 it writes neither CMD nor a CE input
and reads no CE output (R309 to R311). -/
def HostOp.keepsDuty (op : HostOp) (s : State) : Bool :=
  match op with
  | .read w addr =>
    match access s.cfg w addr with
    | .reach t => !(s.ce.busy && t.isCeOutput)
    | _ => false
  | .write w addr _ =>
    match access s.cfg w addr with
    | .reach t => !(s.ce.busy && (t.isCeInput || t == .reg .cmd))
    | _ => false
  | .poll addr _ _ =>
    match access s.cfg .w32 addr with
    | .reach t => !(s.ce.busy && t.isCeOutput)
    | _ => false
  | .assertReset => true

/-- The run of a host program is over (R315): its last transaction has come and BUSY = 0. -/
def State.runOver (s : State) : Bool := s.hostQueue.isEmpty && !s.ce.busy

/-- The clean-entry state of a launch (R315): right after reset, with these parameters, before these transactions. -/
def State.cleanEntry (p : Config.Params) (prog : List HostOp) : State :=
  { State.reset with cfg := p, hostQueue := prog }

/-- Every byte of every buffer reads in `t` as in `s`. -/
def sameBytes (s t : State) : Prop := ∀ b a, t.readByte b a = s.readByte b a

/-- Every byte of every buffer reads in `t` as in `s`, but for bytes lo .. lo+n-1 of buffer b0. -/
def sameBytesOutside (s t : State) (b0 : Buf) (lo n : Nat) : Prop :=
  ∀ b a, ¬(b = b0 ∧ lo ≤ a ∧ a < lo + n) → t.readByte b a = s.readByte b a

/-- Byte i of the keystream of R172: byte i mod 16 of `AES128(K, A_(i/16))`. -/
def keystreamByte (p : Config.Params) (k : List Byte) (pan : BitVec 16) (dst src : Byte) (i : Nat) : Byte :=
  byteAt (aes128 k (counterBlock p pan dst src (i / 16))) (i % 16)

/-- The PAN of a frame at FBUF offset 0, big-endian (R200, R201). -/
def State.fbufPan (s : State) : BitVec 16 :=
  (s.readByte .fbuf 0).setWidth 16 <<< 8 ||| (s.readByte .fbuf 1).setWidth 16

/-- Byte i of the transform SEAL and OPEN put their payload through: the keystream of the header's triple (R204). -/
def State.payloadKeyByte (s : State) (i : Nat) : Byte :=
  keystreamByte s.cfg s.ce.keyBytes s.fbufPan (s.readByte .fbuf 2) (s.readByte .fbuf 3) i

/-- The MIC check of OPEN on a received length (R205): the recomputed MIC is the received one. -/
def State.micMatches (s : State) (len : Nat) : Prop :=
  mic4 s.cfg (micFull s.cfg s.ce.keyBytes (s.memRead .fbuf 0 (len - 4))) = s.memRead .fbuf (len - 4) 4

/-- A byte that reaches the decoder's phase rules (R242): not a delimiter, not in HUNT, and not an escape. -/
def Decoder.takesByte (d : Decoder) (b : Byte) : Prop :=
  b ≠ 0x7E ∧ d.phase ≠ .hunt ∧ (b ≠ 0x7D ∨ d.esc = true)

/-- What such a byte stands for (R242). -/
def Decoder.valueOf (d : Decoder) (b : Byte) : Byte := if d.esc = true then b ^^^ 0x20 else b

/-- `a` and `b` differ at most in the internal value of the key. -/
def sameButKey (a b : State) : Prop := b = { a with ce := { a.ce with key := b.ce.key } }

end Sys2Proof.Machine
end

