-- ==== Sys2Proof/Certificates/Slice0/Obligations.lean ====
section
/-! DEFINITION. The statements about the LCSB, for the provers. Each cites the rule of spec/ it formalises; where one
rests on a choice of the model, it names the log entry. -/

open Sys2Proof Sys2Proof.Machine

/-! ### Command words -/

/-- R110 to R115: in each format a word decodes to a command exactly when it is that command's encoding: no bit of a
word is dropped, and no two commands of a format share a word. -/
def Obligations.DecodeInvertsEncode : Prop :=
  ∀ (f : Format) (w : Word) (i : Instr), decode f w = .ok i ↔ (i.format = f ∧ encode i = w)

/-- R122, R123 and the examples of the command rules: words written out in the spec decode to the command they stand
for. -/
def Obligations.WrittenOutWordsDecode : Prop :=
  decode .ce 0x00001905 = .ok (Asm.sealFrame 25) ∧
  decode .ce 0x00051402 = .ok (Asm.ctrxor 5 20) ∧
  decode .ce 0x00001D06 = .ok (Asm.openFrame 29) ∧
  decode .ce 0x00000007 = .ok Asm.keyclr ∧
  decode .sc 0x00007E02 = .ok (Asm.srxb 0x7E) ∧
  decode .sc 0x00000201 = .ok (Asm.senc 2)

/-- R116: a CE word whose OPC is unassigned is accepted like any CMD write, and its engine step only completes with
ILLEGAL_CMD, whatever its other fields hold. -/
def Obligations.UnassignedOpcodeEndsIllegalCmd : Prop :=
  ∀ (w : Word) (s : State), (w.toNat % 256 = 0 ∨ 8 ≤ w.toNat % 256) →
    (s.ce.latch = none → ∃ t, hostWrite .w32 (s.cfg.pBase + 0x00C) w s = .next t ∧ t.ce.latch = some w ∧
      t.ce.done = false) ∧
    engineRun w s =
      .next { s with ce := { s.ce with latch := none, done := true, result := .illegalCmd } }

/-- R117, R118: an assigned OPC with RSV ≠ 0, or with a nonzero field the command requires to be 0, ends with
PARAM_INVALID and no other effect. -/
def Obligations.NonzeroReservedFieldEndsParamInvalid : Prop :=
  ∀ (w : Word) (s : State),
    let opc : Byte := w.extractLsb' 0 8
    let len : Byte := w.extractLsb' 8 8
    let off : Byte := w.extractLsb' 16 8
    let rsv : Byte := w.extractLsb' 24 8
    1 ≤ opc.toNat → opc.toNat ≤ 7 →
    (rsv ≠ 0 ∨ ((opc = 1 ∨ opc = 7) ∧ (len ≠ 0 ∨ off ≠ 0)) ∨ ((opc = 4 ∨ opc = 5 ∨ opc = 6) ∧ off ≠ 0)) →
    engineRun w s =
      .next { s with ce := { s.ce with latch := none, done := true, result := .paramInvalid } }

/-- R119: an SC word with an unassigned OPC, RSV ≠ 0, or a nonzero ARG of SRXACK or SRXRST changes nothing but
CMDERR. -/
def Obligations.IllegalSerWordOnlySetsCmderr : Prop :=
  ∀ (w : Word) (s : State),
    let opc : Byte := w.extractLsb' 0 8
    let arg : Byte := w.extractLsb' 8 8
    let rsv : BitVec 16 := w.extractLsb' 16 16
    (opc.toNat = 0 ∨ 5 ≤ opc.toNat ∨ rsv ≠ 0 ∨ ((opc = 3 ∨ opc = 4) ∧ arg ≠ 0)) →
    hostWrite .w32 (s.cfg.pBase + 0x050) w s =
      .next { s with scu := { s.scu with cmderr := true } }

/-! ### Results of CE commands -/

/-- R271 with R272's conditions: every engine step ends with exactly one code, that of the first check that fails. -/
def Obligations.FirstFailingCheckGivesResult : Prop :=
  ∀ (w : Word) (s : State),
    let opc : Byte := w.extractLsb' 0 8
    let len : Byte := w.extractLsb' 8 8
    let off : Byte := w.extractLsb' 16 8
    let rsv : Byte := w.extractLsb' 24 8
    let illegal : Prop := opc.toNat = 0 ∨ 8 ≤ opc.toNat
    let param : Prop := rsv ≠ 0 ∨ ((opc = 1 ∨ opc = 7) ∧ (len ≠ 0 ∨ off ≠ 0)) ∨
      ((opc = 4 ∨ opc = 5 ∨ opc = 6) ∧ off ≠ 0)
    let length : Prop := ((opc = 2 ∨ opc = 3) ∧ off.toNat + len.toNat > 256) ∨
      ((opc = 4 ∨ opc = 5) ∧ (len.toNat < 5 ∨ len.toNat - 5 > s.ce.maxpl.toNat)) ∨
      (opc = 6 ∧ (len.toNat < 9 ∨ len.toNat - 9 > s.ce.maxpl.toNat))
    let noKey : Prop := opc ≠ 7 ∧ s.ce.keyv = false
    let micBad : Prop := opc = 6 ∧ ¬ s.micMatches len.toNat
    ∃ t, engineRun w s = .next t ∧
      (illegal → t.ce.result = .illegalCmd) ∧
      (¬ illegal → param → t.ce.result = .paramInvalid) ∧
      (¬ illegal → ¬ param → length → t.ce.result = .lengthError) ∧
      (¬ illegal → ¬ param → ¬ length → noKey → t.ce.result = .cryptoError) ∧
      (¬ illegal → ¬ param → ¬ length → ¬ noKey → micBad → t.ce.result = .micFail) ∧
      (¬ illegal → ¬ param → ¬ length → ¬ noKey → ¬ micBad → t.ce.result = .ok)

/-- R273: a command that ends in PARAM_INVALID, LENGTH_ERROR, CRYPTO_ERROR or ILLEGAL_CMD changes only what the
completion step changes; MIC_FAIL also zeroes TAG, MIC and RLEN, and leaves FBUF unchanged. -/
def Obligations.ErrorResultHasNoOtherEffect : Prop :=
  ∀ (w : Word) (s : State), ∃ t, engineRun w s = .next t ∧
    (t.ce.result ≠ .ok → t.ce.result ≠ .micFail →
      t = { s with ce := { s.ce with latch := none, done := true, result := t.ce.result } }) ∧
    (t.ce.result = .micFail →
      t = { s with ce := { s.ce with
              latch := none, done := true, result := .micFail, tag := .zero, mic := 0, rlen := 0 } }) ∧
    (t.ce.result ≠ .ok → sameBytes s t)

/-- R306: every engine step ends with the completion step: BUSY 0, DONE 1, the latch empty; CMDOVR and WERR stay, and
KEYV changes at most in KEYCLR's own body. -/
def Obligations.EngineStepEndsWithCompletion : Prop :=
  ∀ (w : Word) (s : State), ∃ t, engineRun w s = .next t ∧
    t.ce.busy = false ∧ t.ce.latch = none ∧ t.ce.done = true ∧
    t.ce.cmdovr = s.ce.cmdovr ∧ t.ce.werr = s.ce.werr ∧
    (w.toNat % 256 ≠ 7 → t.ce.keyv = s.ce.keyv ∧ t.ce.key = s.ce.key ∧ t.ce.kw = s.ce.kw)

/-! ### What each CE command does -/

/-- R148: with a full key loaded, AESENC leaves the cipher of BLK in TAG, byte for byte, ends OK, and changes nothing
else. -/
def Obligations.AesencWritesCipherOfBlk : Prop :=
  ∀ s : State, s.ce.keyv = true →
    ∃ t, exec (.aesenc 0 0 0) s = .next t ∧
      t.ce.tag.bytes = aes128 s.ce.keyBytes s.ce.blkBytes ∧
      t = { s with ce := { s.ce with latch := none, done := true, result := .ok, tag := t.ce.tag } } ∧
      sameBytes s t

/-- R149: KEYCLR zeroes the key and KW, so that KEYV reads 0, ends OK whether or not a key was loaded, and changes
nothing else. -/
def Obligations.KeyclrErasesKey : Prop :=
  ∀ s : State,
    ∃ t, exec (.keyclr 0 0 0) s = .next t ∧ t.ce.keyv = false ∧
      t = { s with ce := { s.ce with latch := none, done := true, result := .ok, key := ⟨0, 0, 0, 0⟩, kw := 0 } } ∧
      sameBytes s t

/-- R182: with a range inside FBUF and a full key, CTRXOR XORs byte i of the range with byte i of the keystream of
ARG0's triple, ends OK, and changes nothing else. -/
def Obligations.CtrxorXorsKeystreamIntoRange : Prop :=
  ∀ (off len : Byte) (s : State), off.toNat + len.toNat ≤ 256 → s.ce.keyv = true →
    ∃ t, exec (.ctrxor 0 off len) s = .next t ∧
      (∀ i, i < len.toNat → t.readByte .fbuf (off.toNat + i) =
        s.readByte .fbuf (off.toNat + i) ^^^
          keystreamByte s.cfg s.ce.keyBytes (s.ce.arg0.extractLsb' 0 16) (s.ce.arg0.extractLsb' 16 8)
            (s.ce.arg0.extractLsb' 24 8) i) ∧
      sameBytesOutside s t .fbuf off.toNat len.toNat ∧
      t = { s with ce := { s.ce with latch := none, done := true, result := .ok, fbuf := t.ce.fbuf } }

/-- R182 (corner case), R174: CTRXOR twice with the same operands restores every byte of FBUF. -/
def Obligations.CtrxorTwiceRestoresFbuf : Prop :=
  ∀ (off len : Byte) (s : State), off.toNat + len.toNat ≤ 256 → s.ce.keyv = true →
    ∃ t u, exec (.ctrxor 0 off len) s = .next t ∧ exec (.ctrxor 0 off len) t = .next u ∧ sameBytes s u

/-- R183: with a range inside FBUF and a full key, CMAC leaves the tag of the range in TAG, ends OK, and changes
nothing else. -/
def Obligations.CmacWritesTagOfRange : Prop :=
  ∀ (off len : Byte) (s : State), off.toNat + len.toNat ≤ 256 → s.ce.keyv = true →
    ∃ t, exec (.cmac 0 off len) s = .next t ∧
      t.ce.tag.bytes = cmac s.ce.keyBytes (s.memRead .fbuf off.toNat len.toNat) ∧
      t = { s with ce := { s.ce with latch := none, done := true, result := .ok, tag := t.ce.tag } } ∧
      sameBytes s t

/-- R184: with a legal length and a full key, MICGEN leaves the frame's full tag in TAG and its MIC in MIC, as a
number whose big-endian bytes are the MIC's wire bytes (R181), ends OK, and changes nothing else. -/
def Obligations.MicgenWritesTagAndMic : Prop :=
  ∀ (len : Byte) (s : State), 5 ≤ len.toNat → len.toNat - 5 ≤ s.ce.maxpl.toNat → s.ce.keyv = true →
    ∃ t, exec (.micgen 0 0 len) s = .next t ∧
      t.ce.tag.bytes = micFull s.cfg s.ce.keyBytes (s.memRead .fbuf 0 len.toNat) ∧
      be32 t.ce.mic = mic4 s.cfg t.ce.tag.bytes ∧
      t = { s with ce := { s.ce with
              latch := none, done := true, result := .ok, tag := t.ce.tag, mic := t.ce.mic } } ∧
      sameBytes s t

/-- R204: with a legal length and a full key, SEAL XORs payload byte i with byte i of the keystream of the header's
triple, writes the MIC of the header and ciphertext after them, leaves the tag, the MIC and the sealed length in TAG,
MIC and RLEN, ends OK, and changes nothing else. MAXPL ≤ 246 is R36's bound, an invariant of the machine. -/
def Obligations.SealEncryptsThenAppendsMic : Prop :=
  ∀ (len : Byte) (s : State), 5 ≤ len.toNat → len.toNat - 5 ≤ s.ce.maxpl.toNat → s.ce.maxpl.toNat ≤ 246 →
    s.ce.keyv = true →
    ∃ t, exec (.sealFrame 0 0 len) s = .next t ∧
      (∀ i, i < len.toNat - 5 → t.readByte .fbuf (5 + i) = s.readByte .fbuf (5 + i) ^^^ s.payloadKeyByte i) ∧
      t.ce.tag.bytes = micFull s.cfg s.ce.keyBytes (t.memRead .fbuf 0 len.toNat) ∧
      t.memRead .fbuf len.toNat 4 = mic4 s.cfg t.ce.tag.bytes ∧
      be32 t.ce.mic = mic4 s.cfg t.ce.tag.bytes ∧
      t.ce.rlen.toNat = len.toNat + 4 ∧
      sameBytesOutside s t .fbuf 5 (len.toNat - 1) ∧
      t = { s with ce := { s.ce with
              latch := none, done := true, result := .ok, tag := t.ce.tag, mic := t.ce.mic, rlen := t.ce.rlen,
              fbuf := t.ce.fbuf } }

/-- R205 (OK): with a legal length, a full key and a matching MIC, OPEN decrypts the payload in place, leaves the tag,
the MIC and the payload length in TAG, MIC and RLEN, ends OK, and changes nothing else. -/
def Obligations.OpenVerifiesThenDecrypts : Prop :=
  ∀ (len : Byte) (s : State), 9 ≤ len.toNat → len.toNat - 9 ≤ s.ce.maxpl.toNat → s.ce.keyv = true →
    s.micMatches len.toNat →
    ∃ t, exec (.openFrame 0 0 len) s = .next t ∧
      (∀ i, i < len.toNat - 9 → t.readByte .fbuf (5 + i) = s.readByte .fbuf (5 + i) ^^^ s.payloadKeyByte i) ∧
      t.ce.tag.bytes = micFull s.cfg s.ce.keyBytes (s.memRead .fbuf 0 (len.toNat - 4)) ∧
      be32 t.ce.mic = s.memRead .fbuf (len.toNat - 4) 4 ∧
      t.ce.rlen.toNat = len.toNat - 9 ∧
      sameBytesOutside s t .fbuf 5 (len.toNat - 9) ∧
      t = { s with ce := { s.ce with
              latch := none, done := true, result := .ok, tag := t.ce.tag, mic := t.ce.mic, rlen := t.ce.rlen,
              fbuf := t.ce.fbuf } }

/-- R205 (MIC_FAIL), R207: with a legal length, a full key and a MIC that does not match, OPEN writes no byte of FBUF
and clears TAG, MIC and RLEN. -/
def Obligations.OpenMicFailureWritesNoByte : Prop :=
  ∀ (len : Byte) (s : State), 9 ≤ len.toNat → len.toNat - 9 ≤ s.ce.maxpl.toNat → s.ce.keyv = true →
    ¬ s.micMatches len.toNat →
    ∃ t, exec (.openFrame 0 0 len) s = .next t ∧ sameBytes s t ∧
      t = { s with ce := { s.ce with
              latch := none, done := true, result := .micFail, tag := ⟨0, 0, 0, 0⟩, mic := 0, rlen := 0 } }

/-- R209: OPEN gives OK only if the recomputed MIC equals the received bytes, whatever the operands and the state. -/
def Obligations.OpenAcceptsOnlyMatchingMic : Prop :=
  ∀ (rsv off len : Byte) (s t : State), exec (.openFrame rsv off len) s = .next t → t.ce.result = .ok →
    s.micMatches len.toNat

/-- R208: SEAL of LEN bytes and then OPEN of LEN + 4 ends OK, with the payload length in RLEN and the LEN header and
payload bytes as they were. -/
def Obligations.SealThenOpenRestoresFrame : Prop :=
  ∀ (len : Byte) (s : State), 5 ≤ len.toNat → len.toNat - 5 ≤ s.ce.maxpl.toNat → s.ce.maxpl.toNat ≤ 246 →
    s.ce.keyv = true →
    ∃ t u, exec (.sealFrame 0 0 len) s = .next t ∧ exec (.openFrame 0 0 (len + 4)) t = .next u ∧
      u.ce.result = .ok ∧ u.ce.rlen.toNat = len.toNat - 5 ∧
      ∀ i, i < len.toNat → u.readByte .fbuf i = s.readByte .fbuf i

/-- R204 (corner case, 90_conflicts.md C9): SEAL twice with the same LEN returns the payload to plaintext, and the
second MIC is the one MICGEN gives for the plaintext frame. -/
def Obligations.SealTwiceGivesPlaintextMic : Prop :=
  ∀ (len : Byte) (s : State), 5 ≤ len.toNat → len.toNat - 5 ≤ s.ce.maxpl.toNat → s.ce.maxpl.toNat ≤ 246 →
    s.ce.keyv = true →
    ∃ t u m, exec (.sealFrame 0 0 len) s = .next t ∧ exec (.sealFrame 0 0 len) t = .next u ∧
      exec (.micgen 0 0 len) s = .next m ∧
      (∀ i, i < len.toNat → u.readByte .fbuf i = s.readByte .fbuf i) ∧ u.ce.mic = m.ce.mic

/-! ### The cryptographic primitives -/

/-- R174: the four laws of the CTR transform; the second says that the 16 counter bytes are distinct, so that no
keystream block repeats. -/
def Obligations.CtrTransformLaws : Prop :=
  ∀ (p : Config.Params) (k : List Byte) (pan : BitVec 16) (dst src : Byte),
    (∀ d, ctrTransform p k pan dst src (ctrTransform p k pan dst src d) = d) ∧
    (∀ i j, i < 16 → j < 16 →
      (byteAt (counterBlock p pan dst src i) 15 = byteAt (counterBlock p pan dst src j) 15 ∨
        aes128 k (counterBlock p pan dst src i) = aes128 k (counterBlock p pan dst src j)) → i = j) ∧
    (∀ d, (ctrTransform p k pan dst src d).length = d.length) ∧
    (∀ d e i, i < d.length → i < e.length → byteAt d i = byteAt e i →
      byteAt (ctrTransform p k pan dst src d) i = byteAt (ctrTransform p k pan dst src e) i)

/-- R171 and R178 over R170: every byte of the counter block and of B0. -/
def Obligations.CounterBlockAndB0Layout : Prop :=
  ∀ (p : Config.Params) (pan : BitVec 16) (dst src : Byte) (n : Nat),
    let hi : Byte := if p.pPanOrder = .be then pan.extractLsb' 8 8 else pan.extractLsb' 0 8
    let lo : Byte := if p.pPanOrder = .be then pan.extractLsb' 0 8 else pan.extractLsb' 8 8
    counterBlock p pan dst src n =
      [p.pCtrDir, 0, 0, 0, 0, 0, 0, 0, 0, 0, 0, hi, lo, dst, src,
        BitVec.ofNat 8 ((p.pCtrStart.toNat + n) % 256)] ∧
    (n ≤ 255 → b0Block p pan dst src n =
      [p.pB0Dir, 0, 0, 0, 0, 0, 0, 0, 0, 0, BitVec.ofNat 8 n, hi, lo, dst, src, p.pB0Trailer])

/-- R179: the MIC input of a frame F of 5 to 251 bytes is B0 of F's PAN, destination, source and length, then F. -/
def Obligations.MicInputIsB0ThenFrame : Prop :=
  ∀ (p : Config.Params) (k : List Byte) (pan1 pan0 dst src : Byte) (rest : List Byte),
    5 ≤ rest.length + 4 → rest.length + 4 ≤ 251 →
    micFull p k (pan1 :: pan0 :: dst :: src :: rest) =
      cmac k (b0Block p (pan1.setWidth 16 <<< 8 ||| pan0.setWidth 16) dst src (rest.length + 4) ++ (pan1 :: pan0 :: dst :: src :: rest))

/-- R146: for each key the cipher is a permutation of the 16-byte blocks: it maps blocks to blocks, and no two to the
same. -/
def Obligations.CipherPermutesBlocks : Prop :=
  ∀ k b c : List Byte, b.length = 16 → c.length = 16 →
    (aes128 k b).length = 16 ∧ (aes128 k b = aes128 k c → b = c)

/-- R142: the S-box table is the one its definition gives: with b the inverse of x in GF(2^8) (0 for 0), the XOR of b
and its rotations by 1 to 4 and 0x63. -/
def Obligations.SboxFollowsItsDefinition : Prop :=
  let mul : Byte → Byte → Byte := fun a b =>
    (List.range 8).foldl (fun acc i => if b.getLsbD i then acc ^^^ xtime^[i] a else acc) 0
  ∀ x : Byte, ∃ b : Byte, (x = 0 ∧ b = 0 ∨ mul x b = 1) ∧
    sbox x = b ^^^ b.rotateLeft 1 ^^^ b.rotateLeft 2 ^^^ b.rotateLeft 3 ^^^ b.rotateLeft 4 ^^^ 0x63

/-! ### The serial encoder -/

/-- R236 over R232 to R235: SENC leaves the encoded frame of STBUF[0 .. LEN) in EBUF and its length in SER_ELEN, and
changes nothing else. -/
def Obligations.SencWritesEncodedFrame : Prop :=
  ∀ (len : Byte) (s : State),
    let d := s.memRead .stbuf 0 len.toNat
    let ck : Byte := 0xFF - d.foldl (fun a b => a + b) 0
    let e : List Byte := 0x7E :: (([0x00, len] ++ d ++ [ck]).flatMap fun x =>
      if x = 0x7E ∨ x = 0x7D ∨ x = 0x11 ∨ x = 0x13 then [0x7D, x ^^^ 0x20] else [x])
    ∃ t, exec (.senc 0 len) s = .next t ∧ t.memRead .ebuf 0 e.length = e ∧ t.scu.elen.toNat = e.length ∧
      sameBytesOutside s t .ebuf 0 e.length ∧
      t = { s with scu := { s.scu with ebuf := t.scu.ebuf, elen := t.scu.elen } }

/-- R237: the length of an encoded frame, its bounds, and that 515 is reached. -/
def Obligations.EncodedFrameLength : Prop :=
  (∀ d : List Byte, d.length ≤ 255 →
    (encodeFrame d).length =
      4 + d.length + (be16 (BitVec.ofNat 16 d.length) ++ d ++ [checksum d]).countP (fun x => escSet.contains x) ∧
    (encodeFrame d).length ≤ 2 * d.length + 6 ∧
    (encodeFrame d).length ≤ 515 ∧
    ((d.length = 17 ∨ d.length = 19 ∨ d.length = 125 ∨ d.length = 126) → (encodeFrame d).length ≤ 258)) ∧
  (encodeFrame (List.replicate 255 0x7E)).length = 515

/-- R235: the delimiter appears in an encoded frame only as its first byte. -/
def Obligations.DelimiterOnlyStartsFrame : Prop :=
  ∀ d : List Byte, ∃ rest, encodeFrame d = 0x7E :: rest ∧ (0x7E : Byte) ∉ rest

/-! ### The serial decoder -/

/-- R239, R240, R241: a delimiter restarts the decoder from any state, setting SYNERR when a frame was unfinished; in
HUNT any other byte is discarded; an escape outside HUNT sets only `esc`. -/
def Obligations.SrxbDelimiterHuntAndEscape : Prop :=
  ∀ (b : Byte) (s : State),
    (b = 0x7E → exec (.srxb 0 b) s =
      .next { s with scu := { s.scu with
                synerr := s.scu.synerr || decide (s.scu.dec.phase ≠ .hunt), dec := ⟨.lenHi, false, 0, 0, 0⟩ } }) ∧
    (b ≠ 0x7E → s.scu.dec.phase = .hunt → exec (.srxb 0 b) s = .next s) ∧
    (b = 0x7D → s.scu.dec.esc = false → s.scu.dec.phase ≠ .hunt → exec (.srxb 0 b) s =
      .next { s with scu := { s.scu with dec := { s.scu.dec with esc := true } } })

/-- R243, R244 over R242: the two length bytes, unmasked; a length above 255 sets LENERR and drops the frame, 0 goes
to CKSUM, any other to DATA. -/
def Obligations.SrxbLengthBytes : Prop :=
  ∀ (b : Byte) (s : State), s.scu.dec.takesByte b →
    let v := s.scu.dec.valueOf b
    let dlen : BitVec 16 := s.scu.dec.dlen ||| v.setWidth 16
    (s.scu.dec.phase = .lenHi → exec (.srxb 0 b) s =
      .next { s with scu := { s.scu with
                dec := { s.scu.dec with esc := false, dlen := v.setWidth 16 <<< 8, phase := .lenLo } } }) ∧
    (s.scu.dec.phase = .lenLo → 255 < dlen.toNat → exec (.srxb 0 b) s =
      .next { s with scu := { s.scu with
                lenerr := true, dec := { s.scu.dec with esc := false, dlen := dlen, phase := .hunt } } }) ∧
    (s.scu.dec.phase = .lenLo → dlen.toNat = 0 → exec (.srxb 0 b) s =
      .next { s with scu := { s.scu with dec := { s.scu.dec with esc := false, dlen := dlen, phase := .cksum } } }) ∧
    (s.scu.dec.phase = .lenLo → 0 < dlen.toNat → dlen.toNat ≤ 255 → exec (.srxb 0 b) s =
      .next { s with scu := { s.scu with dec := { s.scu.dec with esc := false, dlen := dlen, phase := .data } } })

/-- R245 over R242: a data byte, unmasked, goes to ABUF[pos], the sum and pos advance, and the last one moves to
CKSUM; nothing else changes. The premise on pos and dlen is R245's own ("1 ≤ dlen ≤ 255 in this phase"), an invariant
of the machine. -/
def Obligations.SrxbDataByte : Prop :=
  ∀ (b : Byte) (s : State), s.scu.dec.takesByte b → s.scu.dec.phase = .data →
    s.scu.dec.pos.toNat < s.scu.dec.dlen.toNat → s.scu.dec.dlen.toNat ≤ 255 →
    let v := s.scu.dec.valueOf b
    ∃ t, exec (.srxb 0 b) s = .next t ∧
      t.readByte .abuf s.scu.dec.pos.toNat = v ∧ sameBytesOutside s t .abuf s.scu.dec.pos.toNat 1 ∧
      t.scu.dec.pos.toNat = s.scu.dec.pos.toNat + 1 ∧ t.scu.dec.sum.toNat = (s.scu.dec.sum.toNat + v.toNat) % 256 ∧
      t.scu.dec.phase = (if s.scu.dec.pos.toNat + 1 = s.scu.dec.dlen.toNat then .cksum else .data) ∧
      t.scu.dec.dlen = s.scu.dec.dlen ∧ t.scu.dec.esc = false ∧
      t = { s with scu := { s.scu with abuf := t.scu.abuf, dec := t.scu.dec } }

/-- R246 over R242: a checksum byte that does not verify sets CKERR; one that does sets OVR when a frame is still held,
and otherwise delivers ABUF[0 .. dlen) to SRBUF with SER_RXLEN and RXRDY; in each case the decoder hunts and nothing
else changes. That dlen ≤ 255 here is an invariant of the machine (R244). -/
def Obligations.SrxbChecksumByte : Prop :=
  ∀ (b : Byte) (s : State), s.scu.dec.takesByte b → s.scu.dec.phase = .cksum → s.scu.dec.dlen.toNat ≤ 255 →
    let good : Prop := (s.scu.dec.valueOf b).toNat = 255 - s.scu.dec.sum.toNat
    (¬ good → exec (.srxb 0 b) s =
      .next { s with scu := { s.scu with
                ckerr := true, dec := { s.scu.dec with esc := false, phase := .hunt } } }) ∧
    (good → s.scu.rxrdy = true → exec (.srxb 0 b) s =
      .next { s with scu := { s.scu with
                ovr := true, dec := { s.scu.dec with esc := false, phase := .hunt } } }) ∧
    (good → s.scu.rxrdy = false → ∃ t, exec (.srxb 0 b) s = .next t ∧
      t.memRead .srbuf 0 s.scu.dec.dlen.toNat = s.memRead .abuf 0 s.scu.dec.dlen.toNat ∧
      sameBytesOutside s t .srbuf 0 s.scu.dec.dlen.toNat ∧ t.scu.rxlen.toNat = s.scu.dec.dlen.toNat ∧
      t = { s with scu := { s.scu with
              rxrdy := true, rxlen := t.scu.rxlen, srbuf := t.scu.srbuf,
              dec := { s.scu.dec with esc := false, phase := .hunt } } })

/-- R278: one SRXB sets at most one of SYNERR, LENERR, CKERR, OVR and RXRDY: a 0x7E only SYNERR, a LEN_LO byte only
LENERR, a CKSUM byte exactly one of the other three, every other byte none; it clears no flag and never touches
CMDERR, which an illegal SRXB word sets and nothing else. -/
def Obligations.SrxbSetsAtMostOneFlag : Prop :=
  ∀ (b : Byte) (s : State), (∃ (t : State) (syn len ck ovr rdy : Bool), exec (.srxb 0 b) s = .next t ∧
    t.scu.synerr = (s.scu.synerr || syn) ∧ t.scu.lenerr = (s.scu.lenerr || len) ∧
    t.scu.ckerr = (s.scu.ckerr || ck) ∧ t.scu.ovr = (s.scu.ovr || ovr) ∧
    t.scu.rxrdy = (s.scu.rxrdy || rdy) ∧ t.scu.cmderr = s.scu.cmderr ∧
    [syn, len, ck, ovr, rdy].count true ≤ 1 ∧
    (syn = true → b = 0x7E) ∧
    (len = true → s.scu.dec.takesByte b ∧ s.scu.dec.phase = .lenLo) ∧
    ([ck, ovr, rdy].count true = 1 ↔ s.scu.dec.takesByte b ∧ s.scu.dec.phase = .cksum)) ∧
    ∀ rsv : BitVec 16, rsv ≠ 0 →
      exec (.srxb rsv b) s = .next { s with scu := { s.scu with cmderr := true } }

/-- The frame of SRXB (R239 to R246): it always gives a next state; only a data byte writes ABUF, only a delivery writes
SRBUF and SER_RXLEN, and no byte of another buffer, no register of the CE and no CTRL bit changes. -/
def Obligations.SrxbStoresOnlyDataAndDelivery : Prop :=
  ∀ (b : Byte) (s : State), ∃ t, exec (.srxb 0 b) s = .next t ∧
    (¬ (s.scu.dec.takesByte b ∧ s.scu.dec.phase = .data) → ∀ a, t.readByte .abuf a = s.readByte .abuf a) ∧
    (¬ (s.scu.dec.takesByte b ∧ s.scu.dec.phase = .cksum ∧
        s.scu.dec.valueOf b = 0xFF - s.scu.dec.sum ∧ s.scu.rxrdy = false) →
      t.scu.rxlen = s.scu.rxlen ∧ ∀ a, t.readByte .srbuf a = s.readByte .srbuf a) ∧
    (∀ c a, c ≠ .abuf → c ≠ .srbuf → t.readByte c a = s.readByte c a) ∧
    t = { s with scu := t.scu } ∧ t.scu.elen = s.scu.elen

/-- R248: SRXACK clears RXRDY and changes nothing else. -/
def Obligations.SrxackReleasesFrame : Prop :=
  ∀ s : State, ∃ t, exec (.srxack 0 0) s = .next t ∧ sameBytes s t ∧
    t = { s with scu := { s.scu with rxrdy := false } }

/-- R249: SRXRST puts the decoder in HUNT with all its registers 0 and changes nothing else. That it clears pos and
dlen when the decoder already hunts is R249's pseudocode against its corner case, the model's choice (log entry 20). -/
def Obligations.SrxrstReturnsToHunt : Prop :=
  ∀ s : State, ∃ t, exec (.srxrst 0 0) s = .next t ∧ sameBytes s t ∧
    t = { s with scu := { s.scu with dec := ⟨.hunt, false, 0, 0, 0⟩ } }

/-- R250: from a decoder in any state with RXRDY = 0, the bytes of enc(D) deliver D, end in HUNT, and newly set no
flag but RXRDY, and SYNERR exactly when the decoder was not in HUNT before. -/
def Obligations.EncodedFrameDecodesToItself : Prop :=
  ∀ (d : List Byte) (s : State), d.length ≤ 255 → s.scu.rxrdy = false →
    ∃ t, execAll (Asm.srxs (encodeFrame d)) s = .next t ∧
      t.scu.rxrdy = true ∧ t.scu.rxlen.toNat = d.length ∧ t.memRead .srbuf 0 d.length = d ∧
      t.scu.dec.phase = .hunt ∧
      t.scu.synerr = (s.scu.synerr || decide (s.scu.dec.phase ≠ .hunt)) ∧
      t.scu.lenerr = s.scu.lenerr ∧ t.scu.ckerr = s.scu.ckerr ∧ t.scu.ovr = s.scu.ovr ∧
      t.scu.cmderr = s.scu.cmderr

/-- R251: after a byte 0x7E the decoder's future (its registers, RXRDY, the flags it sets, the frame it delivers)
depends only on the bytes from that 0x7E on and on RXRDY, not on anything fed before. -/
def Obligations.DelimiterResynchronises : Prop :=
  ∀ (bs : List Byte) (s1 s2 : State), s1.scu.rxrdy = s2.scu.rxrdy →
    ∃ u1 u2 t1 t2, exec (.srxb 0 0x7E) s1 = .next u1 ∧ exec (.srxb 0 0x7E) s2 = .next u2 ∧
      execAll (Asm.srxs bs) u1 = .next t1 ∧ execAll (Asm.srxs bs) u2 = .next t2 ∧
      t1.scu.dec = t2.scu.dec ∧ t1.scu.rxrdy = t2.scu.rxrdy ∧
      (∃ syn len ck ovr : Bool,
        t1.scu.synerr = (u1.scu.synerr || syn) ∧ t2.scu.synerr = (u2.scu.synerr || syn) ∧
        t1.scu.lenerr = (u1.scu.lenerr || len) ∧ t2.scu.lenerr = (u2.scu.lenerr || len) ∧
        t1.scu.ckerr = (u1.scu.ckerr || ck) ∧ t2.scu.ckerr = (u2.scu.ckerr || ck) ∧
        t1.scu.ovr = (u1.scu.ovr || ovr) ∧ t2.scu.ovr = (u2.scu.ovr || ovr)) ∧
      (s1.scu.rxrdy = false → t1.scu.rxrdy = true →
        t1.scu.rxlen = t2.scu.rxlen ∧
        t1.memRead .srbuf 0 t1.scu.rxlen.toNat = t2.memRead .srbuf 0 t2.scu.rxlen.toNat)

/-! ### The two units -/

/-- R98: an SC command neither writes nor depends on anything of the CE, and a CE command neither writes nor depends on
anything of the SCU. (The epoch names the unspecified bytes of R302, log entry 1.) -/
def Obligations.UnitsShareNothing : Prop :=
  (∀ (i : Instr) (s t : State), i.format = .sc → exec i s = .next t →
    t.ce = s.ce ∧ t.ctrl = s.ctrl ∧
    ∀ s', s'.scu = s.scu → s'.epoch = s.epoch → ∃ t', exec i s' = .next t' ∧ t'.scu = t.scu) ∧
  (∀ (i : Instr) (s t : State), i.format = .ce → exec i s = .next t →
    t.scu = s.scu ∧ t.ctrl = s.ctrl ∧
    ∀ s', s'.ce = s.ce → s'.cfg = s.cfg → s'.epoch = s.epoch → ∃ t', exec i s' = .next t' ∧ t'.ce = t.ce)

/-! ### The bus -/

/-- R80, R82, R83, R279: a host access gets an answer exactly when it is admitted: inside the window, and either a
32-bit access at a multiple of 4 or an 8-bit access at 0x100 or above. Every other access inside the window faults the
host (R279). That one outside the window, which R80 says the block does not answer, faults the host too is the model's
choice, and so is that a fault ends the run (log entry 9). -/
def Obligations.AccessAnsweredIffAdmitted : Prop :=
  ∀ (w : Width) (addr : Nat) (v : Word) (s : State),
    let ok : Prop := ∃ off, addr = s.cfg.pBase + off ∧ off < 0x800 ∧
      ((w = .w32 ∧ off % 4 = 0) ∨ (w = .w8 ∧ 0x100 ≤ off))
    (ok → (∃ t, hostRead w addr s = .next t) ∧ (∃ t, hostWrite w addr v s = .next t)) ∧
    (¬ ok → (∃ f, hostRead w addr s = .fault f) ∧ (∃ f, hostWrite w addr v s = .fault f))

/-- R88: a read changes nothing of the block, and draws no free value but for a CE output while BUSY = 1; any other
read returns the same value in every state that differs from the first only in what reads and time can change: the
host's data, the draw counter, the host's queue and the engine's delay. -/
def Obligations.ReadHasNoSideEffect : Prop :=
  ∀ (w : Width) (addr : Nat) (s t : State), hostRead w addr s = .next t →
    t = { s with hostData := t.hostData, draws := t.draws } ∧
    ((s.ce.busy = false ∨ ∀ x, access s.cfg w addr = .reach x → x.isCeOutput = false) →
      t.draws = s.draws ∧
      ∀ r : State, r.cfg = s.cfg → r.ctrl = s.ctrl → r.ce = s.ce → r.scu = s.scu → r.epoch = s.epoch →
        ∃ u, hostRead w addr r = .next u ∧ u.hostData = t.hostData)

/-- R58, R308: while BUSY = 1 a write to MAXPL, ARG0, a KEY or BLK word or any FBUF byte stores nothing and sets
WERR. -/
def Obligations.BusyWriteToCeInputDropped : Prop :=
  ∀ (w : Width) (off : Nat) (v : Word) (s : State), s.ce.busy = true →
    ((w = .w32 ∧ off % 4 = 0 ∧ (off = 0x010 ∨ off = 0x014 ∨ (0x020 ≤ off ∧ off < 0x040))) ∨
      (0x100 ≤ off ∧ off < 0x200 ∧ (w = .w8 ∨ (w = .w32 ∧ off % 4 = 0)))) →
    hostWrite w (s.cfg.pBase + off) v s = .next { s with ce := { s.ce with werr := true } }

/-- R35: a CMD write while BUSY = 0 is accepted, whatever the word: it is latched, BUSY becomes 1 and DONE 0; while
BUSY = 1 it is dropped with CMDOVR; a read of CMD returns 0. (The delay drawn at acceptance is R305's, log entry 4.) -/
def Obligations.CmdWriteAcceptedOrDropped : Prop :=
  ∀ (v : Word) (s : State),
    (s.ce.busy = false → ∃ t, hostWrite .w32 (s.cfg.pBase + 0x00C) v s = .next t ∧ t.ce.busy = true ∧
      t = { s with
            ce := { s.ce with latch := some v, done := false }, engineDelay := t.engineDelay, draws := t.draws }) ∧
    (s.ce.busy = true → hostWrite .w32 (s.cfg.pBase + 0x00C) v s =
      .next { s with ce := { s.ce with cmdovr := true } }) ∧
    hostRead .w32 (s.cfg.pBase + 0x00C) s = .next { s with hostData := some 0 }

/-- R36: a MAXPL write of the field value v stores min(v, 246), and a read returns the stored value, in bits 7:0. That
v is bits 7:0 of the word written is the model's reading (log entry 5). -/
def Obligations.MaxplWriteStoresMinimum : Prop :=
  ∀ (v : Word) (s : State), s.ce.busy = false →
    ∃ t, hostWrite .w32 (s.cfg.pBase + 0x010) v s = .next t ∧
      t.ce.maxpl.toNat = min (v.toNat % 256) 246 ∧
      t = { s with ce := { s.ce with maxpl := t.ce.maxpl } } ∧
      ∃ r, hostRead .w32 (s.cfg.pBase + 0x010) t = .next { t with hostData := some r } ∧
        r.toNat = min (v.toNat % 256) 246

/-- What a write to KEY, BLK or ARG0 stores while BUSY = 0. R40, R41: a KEYk write replaces word k alone and sets KW[k]
alone, KEYV reads the conjunction of the four KW bits, and a read of KEYk returns 0. R42: a BLKk write replaces word k
alone, and reads of the four BLK words return them. In both groups byte 4j + i is bits 8i+7 to 8i of word j. R37: an
ARG0 write stores the word, whose fields are PAN, DST and SRC, and a read returns it. Each write changes nothing
else. -/
def Obligations.KeyWriteSetsItsWordAndKw : Prop :=
  ∀ (k : Fin 4) (v : Word) (s : State), s.ce.busy = false →
    (∃ t, hostWrite .w32 (s.cfg.pBase + (0x020 + 4 * k.val)) v s = .next t ∧
      (∀ j : Fin 4, t.ce.key.get j = if j = k then v else s.ce.key.get j) ∧
      (∀ j : Fin 4, t.ce.kw.getLsbD j.val = (decide (j = k) || s.ce.kw.getLsbD j.val)) ∧
      (t.ce.keyv = true ↔ ∀ j : Fin 4, t.ce.kw.getLsbD j.val = true) ∧
      (∀ (j : Fin 4) (i : Nat), i < 4 → byteAt t.ce.keyBytes (4 * j.val + i) =
        (t.ce.key.get j).extractLsb' (8 * i) 8) ∧
      t = { s with ce := { s.ce with key := t.ce.key, kw := t.ce.kw } } ∧
      hostRead .w32 (s.cfg.pBase + (0x020 + 4 * k.val)) t = .next { t with hostData := some 0 }) ∧
    (∃ t, hostWrite .w32 (s.cfg.pBase + (0x030 + 4 * k.val)) v s = .next t ∧
      (∀ j : Fin 4, t.ce.blk.get j = if j = k then v else s.ce.blk.get j) ∧
      (∀ (j : Fin 4) (i : Nat), i < 4 → byteAt t.ce.blkBytes (4 * j.val + i) =
        (t.ce.blk.get j).extractLsb' (8 * i) 8) ∧
      t = { s with ce := { s.ce with blk := t.ce.blk } } ∧
      ∀ j : Fin 4, hostRead .w32 (s.cfg.pBase + (0x030 + 4 * j.val)) t =
        .next { t with hostData := some (if j = k then v else s.ce.blk.get j) }) ∧
    (∃ t, hostWrite .w32 (s.cfg.pBase + 0x014) v s = .next t ∧
      t = { s with ce := { s.ce with arg0 := v } } ∧
      t.ce.argPan = v.extractLsb' 0 16 ∧ t.ce.argDst = v.extractLsb' 16 8 ∧ t.ce.argSrc = v.extractLsb' 24 8 ∧
      hostRead .w32 (s.cfg.pBase + 0x014) t = .next { t with hostData := some v })

/-- R34: every bit of a STATUS read, RESULT with the numbers of R270, and what a STATUS write clears. -/
def Obligations.StatusReadAndWriteOneToClear : Prop :=
  ∀ (v : Word) (s : State),
    (∃ r, hostRead .w32 (s.cfg.pBase + 0x008) s = .next { s with hostData := some r } ∧
      r.getLsbD 0 = s.ce.busy ∧ r.getLsbD 1 = s.ce.done ∧ r.getLsbD 2 = s.ce.keyv ∧
      r.getLsbD 3 = s.ce.cmdovr ∧ r.getLsbD 4 = s.ce.werr ∧ r.extractLsb' 5 3 = 0#3 ∧
      (r.extractLsb' 8 4).toNat =
        (match s.ce.result with
          | .ok => 0 | .micFail => 1 | .cryptoError => 2 | .lengthError => 3 | .paramInvalid => 4
          | .illegalCmd => 5) ∧
      r.extractLsb' 12 20 = 0#20) ∧
    hostWrite .w32 (s.cfg.pBase + 0x008) v s =
      .next { s with ce := { s.ce with
                done := s.ce.done && !v.getLsbD 1
                cmdovr := s.ce.cmdovr && !v.getLsbD 3
                werr := s.ce.werr && !v.getLsbD 4 } }

/-- R45, R48: every bit of a SER_STATUS and a SER_DBG read, and what a SER_STATUS write clears. -/
def Obligations.SerialStatusAndDebugReads : Prop :=
  ∀ (v : Word) (s : State),
    (∃ r, hostRead .w32 (s.cfg.pBase + 0x054) s = .next { s with hostData := some r } ∧
      r.getLsbD 0 = s.scu.rxrdy ∧ r.getLsbD 1 = s.scu.ovr ∧ r.getLsbD 2 = s.scu.ckerr ∧
      r.getLsbD 3 = s.scu.lenerr ∧ r.getLsbD 4 = s.scu.synerr ∧ r.getLsbD 5 = s.scu.cmderr ∧
      r.extractLsb' 6 26 = 0#26) ∧
    (∃ r, hostRead .w32 (s.cfg.pBase + 0x060) s = .next { s with hostData := some r } ∧
      (r.extractLsb' 0 3).toNat =
        (match s.scu.dec.phase with | .hunt => 0 | .lenHi => 1 | .lenLo => 2 | .data => 3 | .cksum => 4) ∧
      r.getLsbD 3 = s.scu.dec.esc ∧ r.extractLsb' 4 4 = 0#4 ∧ r.extractLsb' 8 8 = s.scu.dec.pos ∧
      r.extractLsb' 16 16 = s.scu.dec.dlen) ∧
    hostWrite .w32 (s.cfg.pBase + 0x054) v s =
      .next { s with scu := { s.scu with
                ovr := s.scu.ovr && !v.getLsbD 1
                ckerr := s.scu.ckerr && !v.getLsbD 2
                lenerr := s.scu.lenerr && !v.getLsbD 3
                synerr := s.scu.synerr && !v.getLsbD 4
                cmderr := s.scu.cmderr && !v.getLsbD 5 } }

/-- R33: a CTRL write with bit 0 = 1 does what the reset input does and leaves CTRL reading 0, its other bits
discarded; with bit 0 = 0 it writes bits 3:1. -/
def Obligations.CtrlWriteResetsOrEnables : Prop :=
  ∀ (v : Word) (s : State),
    (v.getLsbD 0 = true → ∃ t, hostWrite .w32 (s.cfg.pBase + 0x004) v s = .next t ∧
      hostMove .assertReset s = .next t ∧
      hostRead .w32 (s.cfg.pBase + 0x004) t = .next { t with hostData := some 0 }) ∧
    (v.getLsbD 0 = false → ∃ t, hostWrite .w32 (s.cfg.pBase + 0x004) v s = .next t ∧
      t = { s with ctrl := t.ctrl } ∧
      hostRead .w32 (s.cfg.pBase + 0x004) t = .next { t with hostData := some (v &&& 0x0000000E) })

/-- R60, R301, R303: after a reset every register reads its reset value (ID its constant, MAXPL 246, every other 0),
the key is erased, the decoder hunts, no command is pending, and IRQ is 0. The last three clauses are the model's
choice, not rules of the spec: that no written byte is kept, so that every buffer byte is a free value again, is its
form of R302 (log entry 1); that the parameters stay is log entry 2, and that the host's queue stays is log
entry 11. -/
def Obligations.ResetLeavesResetValues : Prop :=
  ∀ s : State, ∃ t, hostMove .assertReset s = .next t ∧
    (∀ n, n < 64 → ∃ r, hostRead .w32 (s.cfg.pBase + 4 * n) t = .next { t with hostData := some r } ∧
      r = if n = 0 then 0x4C435342 else if n = 4 then 0x000000F6 else 0) ∧
    t.ce.key = ⟨0, 0, 0, 0⟩ ∧ t.ce.kw = 0 ∧ t.ce.latch = none ∧ t.scu.dec = ⟨.hunt, false, 0, 0, 0⟩ ∧
    t.irq = false ∧ (∀ b, t.mem b = []) ∧ t.cfg = s.cfg ∧ t.hostQueue = s.hostQueue

/-- Reads and ignored writes of the registers. R49, R52, R53: a reserved offset reads 0 and ignores writes, and
read-only registers, SRBUF and EBUF ignore writes, whatever BUSY is. R31, R36, R37, R42, R46, R47: whatever BUSY is, ID
reads its constant, and MAXPL, ARG0, the BLK words, SER_RXLEN and SER_ELEN read as stored. R35, R40, R44: CMD, the KEY words and
SER_CMD read 0. R38, R39, R43: while BUSY = 0, RLEN, MIC and the TAG words read as stored, byte 4k + i of TAG in bits
8i+7 to 8i of word k. -/
def Obligations.ReservedAndReadOnlyIgnoreWrites : Prop :=
  ∀ (n : Nat) (v : Word) (s : State),
    let reads : Nat → Word → Prop := fun off r =>
      hostRead .w32 (s.cfg.pBase + off) s = .next { s with hostData := some r }
    (0x19 ≤ n → n < 0x40 → reads (4 * n) 0 ∧ hostWrite .w32 (s.cfg.pBase + 4 * n) v s = .next s) ∧
    ((n = 0 ∨ n = 6 ∨ n = 7 ∨ (16 ≤ n ∧ n ≤ 19) ∨ (22 ≤ n ∧ n ≤ 24)) →
      hostWrite .w32 (s.cfg.pBase + 4 * n) v s = .next s) ∧
    (0x300 ≤ n → n < 0x800 → hostWrite .w8 (s.cfg.pBase + n) v s = .next s ∧
      (n % 4 = 0 → hostWrite .w32 (s.cfg.pBase + n) v s = .next s)) ∧
    reads 0x000 0x4C435342 ∧ reads 0x00C 0 ∧ reads 0x010 (s.ce.maxpl.setWidth 32) ∧ reads 0x014 s.ce.arg0 ∧ reads 0x050 0 ∧
    reads 0x058 (s.scu.rxlen.setWidth 32) ∧ reads 0x05C (s.scu.elen.setWidth 32) ∧
    (∀ k : Fin 4, reads (0x020 + 4 * k.val) 0 ∧ reads (0x030 + 4 * k.val) (s.ce.blk.get k)) ∧
    (s.ce.busy = false → reads 0x018 (s.ce.rlen.setWidth 32) ∧ reads 0x01C s.ce.mic ∧
      ∀ k : Fin 4, reads (0x040 + 4 * k.val) (s.ce.tag.get k) ∧
        ∀ i, i < 4 → byteAt s.ce.tag.bytes (4 * k.val + i) = (s.ce.tag.get k).extractLsb' (8 * i) 8)

/-- Writes and reads of the buffers. R84, R85: a 32-bit write to STBUF, or to FBUF while BUSY = 0, at offset o stores
byte i of the word's little-endian lanes at o + i; an 8-bit write stores its byte at o (R82); neither stores anything
elsewhere, and reads of both widths return what was stored. R81, R52, R53: a read of any of the four host buffers at its
place in the window (of FBUF, while BUSY = 0) returns the buffer's byte, or its four bytes in their lanes. That an 8-bit
access carries its byte in bits 7:0 is the model's choice (log entry 13). -/
def Obligations.WordWriteStoresLanes : Prop :=
  (∀ (b : Buf) (base o : Nat) (v : Word) (s : State),
    ((b = .fbuf ∧ base = 0x100 ∧ s.ce.busy = false) ∨ (b = .stbuf ∧ base = 0x200)) → o < 256 →
    (o % 4 = 0 → ∃ t, hostWrite .w32 (s.cfg.pBase + (base + o)) v s = .next t ∧
      (∀ i, i < 4 → t.readByte b (o + i) = v.extractLsb' (8 * i) 8) ∧ sameBytesOutside s t b o 4 ∧
      t = { s with
            ce := { s.ce with fbuf := t.ce.fbuf }, scu := { s.scu with stbuf := t.scu.stbuf } } ∧
      hostRead .w32 (s.cfg.pBase + (base + o)) t = .next { t with hostData := some v } ∧
      ∀ i, i < 4 → hostRead .w8 (s.cfg.pBase + (base + o + i)) t =
        .next { t with hostData := some ((v >>> (8 * i)) &&& 0xFF) }) ∧
    (∃ t, hostWrite .w8 (s.cfg.pBase + (base + o)) v s = .next t ∧
      t.readByte b o = v.extractLsb' 0 8 ∧ sameBytesOutside s t b o 1 ∧
      t = { s with
            ce := { s.ce with fbuf := t.ce.fbuf }, scu := { s.scu with stbuf := t.scu.stbuf } } ∧
      hostRead .w8 (s.cfg.pBase + (base + o)) t = .next { t with hostData := some (v &&& 0xFF) })) ∧
  ∀ (b : Buf) (base size o : Nat) (s : State),
    ((b = .fbuf ∧ base = 0x100 ∧ size = 256 ∧ s.ce.busy = false) ∨ (b = .stbuf ∧ base = 0x200 ∧ size = 256) ∨
      (b = .srbuf ∧ base = 0x300 ∧ size = 256) ∨ (b = .ebuf ∧ base = 0x400 ∧ size = 1024)) → o < size →
    hostRead .w8 (s.cfg.pBase + (base + o)) s =
      .next { s with hostData := some ((s.readByte b o).setWidth 32) } ∧
    (o % 4 = 0 → ∃ r, hostRead .w32 (s.cfg.pBase + (base + o)) s = .next { s with hostData := some r } ∧
      ∀ i, i < 4 → r.extractLsb' (8 * i) 8 = s.readByte b (o + i))

/-- R287, R40: nothing a host does, short of the engine steps of the commands it launches, shows the key: from two
states that differ only in the internal key value, the same host move gives states that differ only there, and in
particular the same data read. -/
def Obligations.HostMoveNeverShowsKey : Prop :=
  ∀ (op : HostOp) (a b t : State), sameButKey a b → hostMove op a = .next t →
    ∃ u, hostMove op b = .next u ∧ sameButKey t u

/-- R57: IRQ is the given function of STATUS, SER_STATUS and CTRL as they read. -/
def Obligations.IrqFollowsReadRegisters : Prop :=
  ∀ s : State,
    let st := loadReg s .status
    let se := loadReg s .serStatus
    let ct := loadReg s .ctrl
    s.irq = ((st.getLsbD 1 && ct.getLsbD 1) || (se.getLsbD 0 && ct.getLsbD 2) ||
      ((se.getLsbD 1 || se.getLsbD 2 || se.getLsbD 3 || se.getLsbD 4 || se.getLsbD 5) && ct.getLsbD 3))

/-- R309 to R311: a host that keeps its duties is never faulted, raises neither CMDOVR nor WERR, and is never given an
unspecified value: no read and no round of a POLL (R125) of its draws one. -/
def Obligations.DutifulHostMeetsNoHazard : Prop :=
  ∀ (op : HostOp) (s : State), op.keepsDuty s = true →
    ∃ t, hostMove op s = .next t ∧ (t.ce.cmdovr = true → s.ce.cmdovr = true) ∧
      (t.ce.werr = true → s.ce.werr = true) ∧
      (((∃ w addr, op = .read w addr) ∨ ∃ addr mask value, op = .poll addr mask value) → t.draws = s.draws)

/-! ### The machine -/

/-- What a step is. With a CE command latched and the engine next, it is exec of that command (R305), and of any latched
word it is the word's engine step. With the host next, it is the host's move after that access is taken off the queue:
the read, the write (and so, of an SC command's word written to SER_CMD, exec of the command: R44, R231), one round of
the POLL (R125), or the reset (R300). With neither, nothing changes (R291). Whose move is next is the model's choice,
not the rules': the accesses stand in a queue (log entry 10), and the engine's step comes when the queue is empty or when
the drawn delay, which each access lowers by one, is 0 (log entry 4). -/
def Obligations.StepRunsTheDecodedCommand : Prop :=
  (∀ (i : Instr) (s : State), i.format = .ce → s.ce.latch = some (encode i) →
    (s.hostQueue = [] ∨ s.engineDelay = 0) → step s = exec i s) ∧
  (∀ (w : Word) (s : State), s.ce.latch = some w → (s.hostQueue = [] ∨ s.engineDelay = 0) →
    step s = engineRun w s) ∧
  (∀ (op : HostOp) (s : State) (rest : List HostOp), s.hostQueue = op :: rest →
    (s.ce.latch = none ∨ s.engineDelay ≠ 0) →
    let s1 := { s with
      hostQueue := rest, engineDelay := if s.ce.busy then s.engineDelay - 1 else s.engineDelay }
    step s = hostMove op s1 ∧
    (∀ w addr, op = .read w addr → step s = hostRead w addr s1) ∧
    (∀ w addr v, op = .write w addr v → step s = hostWrite w addr v s1) ∧
    (∀ i, i.format = .sc → op = .write .w32 (s.cfg.pBase + 0x050) (encode i) → step s = exec i s1) ∧
    (∀ addr mask value t, op = .poll addr mask value → hostRead .w32 addr s1 = .next t →
      step s = .next (if t.hostData.map (fun v => v &&& mask) = some value then t
        else { t with hostQueue := op :: t.hostQueue })) ∧
    (∀ addr mask value f, op = .poll addr mask value → hostRead .w32 addr s1 = .fault f → step s = .fault f) ∧
    (op = .assertReset → step s = .next s1.resetAction)) ∧
  (∀ s : State, s.ce.latch = none → s.hostQueue = [] → step s = .next s)

/-- The invariant holds right after reset. -/
def Obligations.ResetMeetsInvariant : Prop := Inv State.reset

/-- Every step keeps the invariant: buffers in canonical form, MAXPL at most 246 (R36), BUSY and DONE never both 1
(R35, R306), unwritten KEY words 0 (R41), SER_ELEN in its bound (R237), the decoder's registers as R239 to R246 leave
them, and P_BASE aligned (R80). -/
def Obligations.StepKeepsInvariant : Prop :=
  ∀ s t : State, Inv s → step s = .next t → Inv t

/-- R92, R56: across any host move after which the command is still pending, the latched word and every CE input
(KEY, KW, BLK, ARG0, MAXPL, FBUF) are what they were. -/
def Obligations.EngineInputsHoldWhileBusy : Prop :=
  ∀ (op : HostOp) (s t : State), s.ce.busy = true → hostMove op s = .next t → t.ce.busy = true →
    t.ce.latch = s.ce.latch ∧ t.ce.key = s.ce.key ∧ t.ce.kw = s.ce.kw ∧ t.ce.blk = s.ce.blk ∧
    t.ce.arg0 = s.ce.arg0 ∧ t.ce.maxpl = s.ce.maxpl ∧ ∀ a, t.readByte .fbuf a = s.readByte .fbuf a

/-- R305 ("No rule of the block depends on the delay"), R92: a host move that comes before the engine step, and leaves
the command pending, changes none of its results: TAG, MIC, RLEN, RESULT, the key and every FBUF byte end the same as
when the engine step comes first. -/
def Obligations.RaceCannotChangeResult : Prop :=
  ∀ (op : HostOp) (w : Word) (s t : State), s.ce.latch = some w → hostMove op s = .next t → t.ce.busy = true →
    ∃ u v, engineRun w s = .next u ∧ engineRun w t = .next v ∧
      v.ce.tag = u.ce.tag ∧ v.ce.mic = u.ce.mic ∧ v.ce.rlen = u.ce.rlen ∧ v.ce.result = u.ce.result ∧
      v.ce.key = u.ce.key ∧ v.ce.kw = u.ce.kw ∧ ∀ a, v.readByte .fbuf a = u.readByte .fbuf a

/-- R305 (weak fairness): from a state with a command pending, the engine step is next after at most as many steps as
the delay that was drawn, unless a reset or a host fault comes first. That the delay is a finite number of accesses
is the model's form of the fairness R305 states (log entry 4); the statement holds of every delay. -/
def Obligations.EngineStepComesWithinDelay : Prop :=
  ∀ (w : Word) (s : State), s.ce.latch = some w →
    ∃ k, k ≤ s.engineDelay ∧
      ((∃ f, Host.Core.run Sys2Proof.core k s = .fault f) ∨
        ∃ t, Host.Core.run Sys2Proof.core k s = .next t ∧ (t.ce.latch = none ∨ turn t = .engine w))
end

