-- ==== Sys2Proof/Laws/Memory.lean ====
section
/-! SUPPORT. What reading one byte of a buffer gives after a write, and that every write keeps the canonical form. -/

namespace Sys2Proof.Machine

/-! ### One byte -/

/-- Reading after writing one byte: the byte written at its offset, and what was there at every other. -/
@[simp] theorem Memory.lookup_insert (a c : Nat) (v : Byte) (m : Memory) :
    Memory.lookup c (Memory.insert a v m) = if c = a then some v else Memory.lookup c m := by
  induction m with
  | nil => simp [Memory.insert, Memory.lookup]
  | cons e rest ih =>
    obtain ⟨b, w⟩ := e
    simp only [Memory.insert]
    split
    · simp only [Memory.lookup]
    · split
      · subst_vars; simp only [Memory.lookup]; split <;> rfl
      · simp only [Memory.lookup, ih]
        split <;> split <;> simp_all

/-- The offsets listed after an insertion are those listed before and the one inserted. -/
theorem Memory.mem_insert {a : Nat} {v : Byte} {m : Memory} {c : Host.Cell} (h : c ∈ Memory.insert a v m) :
    c = (a, v) ∨ c ∈ m := by
  induction m with
  | nil => simpa [Memory.insert] using h
  | cons e rest ih =>
    obtain ⟨b, w⟩ := e
    simp only [Memory.insert] at h
    split at h
    · simpa using h
    · split at h
      · rcases List.mem_cons.1 h with h | h
        · exact .inl h
        · exact .inr (List.mem_cons_of_mem _ h)
      · rcases List.mem_cons.1 h with h | h
        · exact .inr (h ▸ List.mem_cons_self)
        · rcases ih h with h | h
          · exact .inl h
          · exact .inr (List.mem_cons_of_mem _ h)

/-- The canonical form of a list with a head: the head's offset is in range and below every other. -/
theorem Memory.wf_cons (size a : Nat) (v : Byte) (m : Memory) :
    Memory.wf size ((a, v) :: m) = true ↔ a < size ∧ (∀ c ∈ m, a < c.1) ∧ Memory.wf size m = true := by
  simp [Memory.wf, and_assoc]

/-- Writing one byte in range keeps the canonical form. -/
theorem Memory.wf_insert {size a : Nat} (v : Byte) {m : Memory} (ha : a < size) (h : Memory.wf size m = true) :
    Memory.wf size (Memory.insert a v m) = true := by
  induction m with
  | nil => simp [Memory.insert, Memory.wf, ha]
  | cons e rest ih =>
    obtain ⟨b, w⟩ := e
    obtain ⟨hb, hall, hrest⟩ := (Memory.wf_cons ..).1 h
    simp only [Memory.insert]
    split
    · next hlt =>
      refine (Memory.wf_cons ..).2 ⟨ha, fun c hc => ?_, h⟩
      rcases List.mem_cons.1 hc with rfl | hc
      · exact hlt
      · exact hlt.trans (hall c hc)
    · split
      · next _ heq => subst heq; exact (Memory.wf_cons ..).2 ⟨ha, hall, hrest⟩
      · next h1 h2 =>
        refine (Memory.wf_cons ..).2 ⟨hb, fun c hc => ?_, ih hrest⟩
        rcases Memory.mem_insert hc with rfl | hc
        · exact lt_of_le_of_ne (not_lt.1 h1) (Ne.symm h2)
        · exact hall c hc

/-! ### Byte strings -/

/-- Reading after writing a byte string: its byte where it covers the offset and the buffer has it, and what was
there elsewhere. -/
theorem Memory.lookup_writeBytes (size off : Nat) (bs : List Byte) (m : Memory) (c : Nat) :
    Memory.lookup c (Memory.writeBytes size off bs m) =
      if off ≤ c ∧ c < off + bs.length ∧ c < size then bs[c - off]? else Memory.lookup c m := by
  induction bs generalizing off m with
  | nil => simp [Memory.writeBytes]; omega
  | cons b bs ih =>
    simp only [Memory.writeBytes, ih, List.length_cons]
    by_cases hc : c = off
    · subst hc
      by_cases hs : c < size <;> simp [hs]
    · rw [show Memory.lookup c (if off < size then Memory.insert off b m else m) = Memory.lookup c m by
        split <;> simp [hc]]
      by_cases h1 : off + 1 ≤ c ∧ c < off + 1 + bs.length ∧ c < size
      · rw [if_pos h1, if_pos (by omega), show c - off = (c - (off + 1)) + 1 by omega, List.getElem?_cons_succ]
      · rw [if_neg h1, if_neg (by omega)]

/-- Writing a byte string keeps the canonical form. -/
theorem Memory.wf_writeBytes {size : Nat} (off : Nat) (bs : List Byte) {m : Memory} (h : Memory.wf size m = true) :
    Memory.wf size (Memory.writeBytes size off bs m) = true := by
  induction bs generalizing off m with
  | nil => exact h
  | cons b bs ih =>
    simp only [Memory.writeBytes]
    apply ih
    split
    · next hs => exact Memory.wf_insert b hs h
    · exact h

end Sys2Proof.Machine
end

