-- ==== Sys2Proof/Laws/State.lean ====
section
/-! SUPPORT. What each named update of the state leaves in each field: one lemma per field per update, true by rfl, so
that no later proof unfolds an update; and that an update of registers alone leaves every buffer byte as it was. -/

namespace Sys2Proof.Machine

variable (s : State)

@[simp] theorem State.complete_cfg (code : ResultCode) : (s.complete code).cfg = s.cfg := rfl
@[simp] theorem State.complete_ctrl (code : ResultCode) : (s.complete code).ctrl = s.ctrl := rfl
@[simp] theorem State.complete_ce (code : ResultCode) : (s.complete code).ce = { s.ce with latch := none, done := true, result := code } := rfl
@[simp] theorem State.complete_scu (code : ResultCode) : (s.complete code).scu = s.scu := rfl
@[simp] theorem State.complete_epoch (code : ResultCode) : (s.complete code).epoch = s.epoch := rfl
@[simp] theorem State.complete_draws (code : ResultCode) : (s.complete code).draws = s.draws := rfl
@[simp] theorem State.complete_engineDelay (code : ResultCode) : (s.complete code).engineDelay = s.engineDelay := rfl
@[simp] theorem State.complete_hostQueue (code : ResultCode) : (s.complete code).hostQueue = s.hostQueue := rfl
@[simp] theorem State.complete_hostData (code : ResultCode) : (s.complete code).hostData = s.hostData := rfl
@[simp] theorem State.complete_mem (code : ResultCode) (b : Buf) : (s.complete code).mem b = s.mem b := by cases b <;> rfl
@[simp] theorem State.complete_readByte (code : ResultCode) (b : Buf) (off : Nat) : (s.complete code).readByte b off = s.readByte b off := by cases b <;> rfl
@[simp] theorem State.complete_memRead (code : ResultCode) (b : Buf) (off n : Nat) : (s.complete code).memRead b off n = s.memRead b off n := by cases b <;> rfl

@[simp] theorem State.setCmdovr_cfg : s.setCmdovr.cfg = s.cfg := rfl
@[simp] theorem State.setCmdovr_ctrl : s.setCmdovr.ctrl = s.ctrl := rfl
@[simp] theorem State.setCmdovr_ce : s.setCmdovr.ce = { s.ce with cmdovr := true } := rfl
@[simp] theorem State.setCmdovr_scu : s.setCmdovr.scu = s.scu := rfl
@[simp] theorem State.setCmdovr_epoch : s.setCmdovr.epoch = s.epoch := rfl
@[simp] theorem State.setCmdovr_draws : s.setCmdovr.draws = s.draws := rfl
@[simp] theorem State.setCmdovr_engineDelay : s.setCmdovr.engineDelay = s.engineDelay := rfl
@[simp] theorem State.setCmdovr_hostQueue : s.setCmdovr.hostQueue = s.hostQueue := rfl
@[simp] theorem State.setCmdovr_hostData : s.setCmdovr.hostData = s.hostData := rfl
@[simp] theorem State.setCmdovr_mem (b : Buf) : s.setCmdovr.mem b = s.mem b := by cases b <;> rfl
@[simp] theorem State.setCmdovr_readByte (b : Buf) (off : Nat) : s.setCmdovr.readByte b off = s.readByte b off := by cases b <;> rfl
@[simp] theorem State.setCmdovr_memRead (b : Buf) (off n : Nat) : s.setCmdovr.memRead b off n = s.memRead b off n := by cases b <;> rfl

@[simp] theorem State.setWerr_cfg : s.setWerr.cfg = s.cfg := rfl
@[simp] theorem State.setWerr_ctrl : s.setWerr.ctrl = s.ctrl := rfl
@[simp] theorem State.setWerr_ce : s.setWerr.ce = { s.ce with werr := true } := rfl
@[simp] theorem State.setWerr_scu : s.setWerr.scu = s.scu := rfl
@[simp] theorem State.setWerr_epoch : s.setWerr.epoch = s.epoch := rfl
@[simp] theorem State.setWerr_draws : s.setWerr.draws = s.draws := rfl
@[simp] theorem State.setWerr_engineDelay : s.setWerr.engineDelay = s.engineDelay := rfl
@[simp] theorem State.setWerr_hostQueue : s.setWerr.hostQueue = s.hostQueue := rfl
@[simp] theorem State.setWerr_hostData : s.setWerr.hostData = s.hostData := rfl
@[simp] theorem State.setWerr_mem (b : Buf) : s.setWerr.mem b = s.mem b := by cases b <;> rfl
@[simp] theorem State.setWerr_readByte (b : Buf) (off : Nat) : s.setWerr.readByte b off = s.readByte b off := by cases b <;> rfl
@[simp] theorem State.setWerr_memRead (b : Buf) (off n : Nat) : s.setWerr.memRead b off n = s.memRead b off n := by cases b <;> rfl

@[simp] theorem State.setTag_cfg (q : Quad) : (s.setTag q).cfg = s.cfg := rfl
@[simp] theorem State.setTag_ctrl (q : Quad) : (s.setTag q).ctrl = s.ctrl := rfl
@[simp] theorem State.setTag_ce (q : Quad) : (s.setTag q).ce = { s.ce with tag := q } := rfl
@[simp] theorem State.setTag_scu (q : Quad) : (s.setTag q).scu = s.scu := rfl
@[simp] theorem State.setTag_epoch (q : Quad) : (s.setTag q).epoch = s.epoch := rfl
@[simp] theorem State.setTag_draws (q : Quad) : (s.setTag q).draws = s.draws := rfl
@[simp] theorem State.setTag_engineDelay (q : Quad) : (s.setTag q).engineDelay = s.engineDelay := rfl
@[simp] theorem State.setTag_hostQueue (q : Quad) : (s.setTag q).hostQueue = s.hostQueue := rfl
@[simp] theorem State.setTag_hostData (q : Quad) : (s.setTag q).hostData = s.hostData := rfl
@[simp] theorem State.setTag_mem (q : Quad) (b : Buf) : (s.setTag q).mem b = s.mem b := by cases b <;> rfl
@[simp] theorem State.setTag_readByte (q : Quad) (b : Buf) (off : Nat) : (s.setTag q).readByte b off = s.readByte b off := by cases b <;> rfl
@[simp] theorem State.setTag_memRead (q : Quad) (b : Buf) (off n : Nat) : (s.setTag q).memRead b off n = s.memRead b off n := by cases b <;> rfl

@[simp] theorem State.setMic_cfg (v : Word) : (s.setMic v).cfg = s.cfg := rfl
@[simp] theorem State.setMic_ctrl (v : Word) : (s.setMic v).ctrl = s.ctrl := rfl
@[simp] theorem State.setMic_ce (v : Word) : (s.setMic v).ce = { s.ce with mic := v } := rfl
@[simp] theorem State.setMic_scu (v : Word) : (s.setMic v).scu = s.scu := rfl
@[simp] theorem State.setMic_epoch (v : Word) : (s.setMic v).epoch = s.epoch := rfl
@[simp] theorem State.setMic_draws (v : Word) : (s.setMic v).draws = s.draws := rfl
@[simp] theorem State.setMic_engineDelay (v : Word) : (s.setMic v).engineDelay = s.engineDelay := rfl
@[simp] theorem State.setMic_hostQueue (v : Word) : (s.setMic v).hostQueue = s.hostQueue := rfl
@[simp] theorem State.setMic_hostData (v : Word) : (s.setMic v).hostData = s.hostData := rfl
@[simp] theorem State.setMic_mem (v : Word) (b : Buf) : (s.setMic v).mem b = s.mem b := by cases b <;> rfl
@[simp] theorem State.setMic_readByte (v : Word) (b : Buf) (off : Nat) : (s.setMic v).readByte b off = s.readByte b off := by cases b <;> rfl
@[simp] theorem State.setMic_memRead (v : Word) (b : Buf) (off n : Nat) : (s.setMic v).memRead b off n = s.memRead b off n := by cases b <;> rfl

@[simp] theorem State.setRlen_cfg (n : Byte) : (s.setRlen n).cfg = s.cfg := rfl
@[simp] theorem State.setRlen_ctrl (n : Byte) : (s.setRlen n).ctrl = s.ctrl := rfl
@[simp] theorem State.setRlen_ce (n : Byte) : (s.setRlen n).ce = { s.ce with rlen := n } := rfl
@[simp] theorem State.setRlen_scu (n : Byte) : (s.setRlen n).scu = s.scu := rfl
@[simp] theorem State.setRlen_epoch (n : Byte) : (s.setRlen n).epoch = s.epoch := rfl
@[simp] theorem State.setRlen_draws (n : Byte) : (s.setRlen n).draws = s.draws := rfl
@[simp] theorem State.setRlen_engineDelay (n : Byte) : (s.setRlen n).engineDelay = s.engineDelay := rfl
@[simp] theorem State.setRlen_hostQueue (n : Byte) : (s.setRlen n).hostQueue = s.hostQueue := rfl
@[simp] theorem State.setRlen_hostData (n : Byte) : (s.setRlen n).hostData = s.hostData := rfl
@[simp] theorem State.setRlen_mem (n : Byte) (b : Buf) : (s.setRlen n).mem b = s.mem b := by cases b <;> rfl
@[simp] theorem State.setRlen_readByte (n : Byte) (b : Buf) (off : Nat) : (s.setRlen n).readByte b off = s.readByte b off := by cases b <;> rfl
@[simp] theorem State.setRlen_memRead (n : Byte) (b : Buf) (off len : Nat) : (s.setRlen n).memRead b off len = s.memRead b off len := by cases b <;> rfl

@[simp] theorem State.clearKey_cfg : s.clearKey.cfg = s.cfg := rfl
@[simp] theorem State.clearKey_ctrl : s.clearKey.ctrl = s.ctrl := rfl
@[simp] theorem State.clearKey_ce : s.clearKey.ce = { s.ce with key := .zero, kw := 0 } := rfl
@[simp] theorem State.clearKey_scu : s.clearKey.scu = s.scu := rfl
@[simp] theorem State.clearKey_epoch : s.clearKey.epoch = s.epoch := rfl
@[simp] theorem State.clearKey_draws : s.clearKey.draws = s.draws := rfl
@[simp] theorem State.clearKey_engineDelay : s.clearKey.engineDelay = s.engineDelay := rfl
@[simp] theorem State.clearKey_hostQueue : s.clearKey.hostQueue = s.hostQueue := rfl
@[simp] theorem State.clearKey_hostData : s.clearKey.hostData = s.hostData := rfl
@[simp] theorem State.clearKey_mem (b : Buf) : s.clearKey.mem b = s.mem b := by cases b <;> rfl
@[simp] theorem State.clearKey_readByte (b : Buf) (off : Nat) : s.clearKey.readByte b off = s.readByte b off := by cases b <;> rfl
@[simp] theorem State.clearKey_memRead (b : Buf) (off n : Nat) : s.clearKey.memRead b off n = s.memRead b off n := by cases b <;> rfl

@[simp] theorem State.writeKey_cfg (k : Fin 4) (v : Word) : (s.writeKey k v).cfg = s.cfg := rfl
@[simp] theorem State.writeKey_ctrl (k : Fin 4) (v : Word) : (s.writeKey k v).ctrl = s.ctrl := rfl
@[simp] theorem State.writeKey_ce (k : Fin 4) (v : Word) : (s.writeKey k v).ce = { s.ce with key := s.ce.key.set k v, kw := s.ce.kw ||| (1#4 <<< k.val) } := rfl
@[simp] theorem State.writeKey_scu (k : Fin 4) (v : Word) : (s.writeKey k v).scu = s.scu := rfl
@[simp] theorem State.writeKey_epoch (k : Fin 4) (v : Word) : (s.writeKey k v).epoch = s.epoch := rfl
@[simp] theorem State.writeKey_draws (k : Fin 4) (v : Word) : (s.writeKey k v).draws = s.draws := rfl
@[simp] theorem State.writeKey_engineDelay (k : Fin 4) (v : Word) : (s.writeKey k v).engineDelay = s.engineDelay := rfl
@[simp] theorem State.writeKey_hostQueue (k : Fin 4) (v : Word) : (s.writeKey k v).hostQueue = s.hostQueue := rfl
@[simp] theorem State.writeKey_hostData (k : Fin 4) (v : Word) : (s.writeKey k v).hostData = s.hostData := rfl
@[simp] theorem State.writeKey_mem (k : Fin 4) (v : Word) (b : Buf) : (s.writeKey k v).mem b = s.mem b := by cases b <;> rfl
@[simp] theorem State.writeKey_readByte (k : Fin 4) (v : Word) (b : Buf) (off : Nat) : (s.writeKey k v).readByte b off = s.readByte b off := by cases b <;> rfl
@[simp] theorem State.writeKey_memRead (k : Fin 4) (v : Word) (b : Buf) (off n : Nat) : (s.writeKey k v).memRead b off n = s.memRead b off n := by cases b <;> rfl

@[simp] theorem State.writeBlk_cfg (k : Fin 4) (v : Word) : (s.writeBlk k v).cfg = s.cfg := rfl
@[simp] theorem State.writeBlk_ctrl (k : Fin 4) (v : Word) : (s.writeBlk k v).ctrl = s.ctrl := rfl
@[simp] theorem State.writeBlk_ce (k : Fin 4) (v : Word) : (s.writeBlk k v).ce = { s.ce with blk := s.ce.blk.set k v } := rfl
@[simp] theorem State.writeBlk_scu (k : Fin 4) (v : Word) : (s.writeBlk k v).scu = s.scu := rfl
@[simp] theorem State.writeBlk_epoch (k : Fin 4) (v : Word) : (s.writeBlk k v).epoch = s.epoch := rfl
@[simp] theorem State.writeBlk_draws (k : Fin 4) (v : Word) : (s.writeBlk k v).draws = s.draws := rfl
@[simp] theorem State.writeBlk_engineDelay (k : Fin 4) (v : Word) : (s.writeBlk k v).engineDelay = s.engineDelay := rfl
@[simp] theorem State.writeBlk_hostQueue (k : Fin 4) (v : Word) : (s.writeBlk k v).hostQueue = s.hostQueue := rfl
@[simp] theorem State.writeBlk_hostData (k : Fin 4) (v : Word) : (s.writeBlk k v).hostData = s.hostData := rfl
@[simp] theorem State.writeBlk_mem (k : Fin 4) (v : Word) (b : Buf) : (s.writeBlk k v).mem b = s.mem b := by cases b <;> rfl
@[simp] theorem State.writeBlk_readByte (k : Fin 4) (v : Word) (b : Buf) (off : Nat) : (s.writeBlk k v).readByte b off = s.readByte b off := by cases b <;> rfl
@[simp] theorem State.writeBlk_memRead (k : Fin 4) (v : Word) (b : Buf) (off n : Nat) : (s.writeBlk k v).memRead b off n = s.memRead b off n := by cases b <;> rfl

@[simp] theorem State.writeArg0_cfg (v : Word) : (s.writeArg0 v).cfg = s.cfg := rfl
@[simp] theorem State.writeArg0_ctrl (v : Word) : (s.writeArg0 v).ctrl = s.ctrl := rfl
@[simp] theorem State.writeArg0_ce (v : Word) : (s.writeArg0 v).ce = { s.ce with arg0 := v } := rfl
@[simp] theorem State.writeArg0_scu (v : Word) : (s.writeArg0 v).scu = s.scu := rfl
@[simp] theorem State.writeArg0_epoch (v : Word) : (s.writeArg0 v).epoch = s.epoch := rfl
@[simp] theorem State.writeArg0_draws (v : Word) : (s.writeArg0 v).draws = s.draws := rfl
@[simp] theorem State.writeArg0_engineDelay (v : Word) : (s.writeArg0 v).engineDelay = s.engineDelay := rfl
@[simp] theorem State.writeArg0_hostQueue (v : Word) : (s.writeArg0 v).hostQueue = s.hostQueue := rfl
@[simp] theorem State.writeArg0_hostData (v : Word) : (s.writeArg0 v).hostData = s.hostData := rfl
@[simp] theorem State.writeArg0_mem (v : Word) (b : Buf) : (s.writeArg0 v).mem b = s.mem b := by cases b <;> rfl
@[simp] theorem State.writeArg0_readByte (v : Word) (b : Buf) (off : Nat) : (s.writeArg0 v).readByte b off = s.readByte b off := by cases b <;> rfl
@[simp] theorem State.writeArg0_memRead (v : Word) (b : Buf) (off n : Nat) : (s.writeArg0 v).memRead b off n = s.memRead b off n := by cases b <;> rfl

@[simp] theorem State.writeMaxpl_cfg (v : Byte) : (s.writeMaxpl v).cfg = s.cfg := rfl
@[simp] theorem State.writeMaxpl_ctrl (v : Byte) : (s.writeMaxpl v).ctrl = s.ctrl := rfl
@[simp] theorem State.writeMaxpl_ce (v : Byte) : (s.writeMaxpl v).ce = { s.ce with maxpl := if v ≤ maxplMax then v else maxplMax } := rfl
@[simp] theorem State.writeMaxpl_scu (v : Byte) : (s.writeMaxpl v).scu = s.scu := rfl
@[simp] theorem State.writeMaxpl_epoch (v : Byte) : (s.writeMaxpl v).epoch = s.epoch := rfl
@[simp] theorem State.writeMaxpl_draws (v : Byte) : (s.writeMaxpl v).draws = s.draws := rfl
@[simp] theorem State.writeMaxpl_engineDelay (v : Byte) : (s.writeMaxpl v).engineDelay = s.engineDelay := rfl
@[simp] theorem State.writeMaxpl_hostQueue (v : Byte) : (s.writeMaxpl v).hostQueue = s.hostQueue := rfl
@[simp] theorem State.writeMaxpl_hostData (v : Byte) : (s.writeMaxpl v).hostData = s.hostData := rfl
@[simp] theorem State.writeMaxpl_mem (v : Byte) (b : Buf) : (s.writeMaxpl v).mem b = s.mem b := by cases b <;> rfl
@[simp] theorem State.writeMaxpl_readByte (v : Byte) (b : Buf) (off : Nat) : (s.writeMaxpl v).readByte b off = s.readByte b off := by cases b <;> rfl
@[simp] theorem State.writeMaxpl_memRead (v : Byte) (b : Buf) (off n : Nat) : (s.writeMaxpl v).memRead b off n = s.memRead b off n := by cases b <;> rfl

@[simp] theorem State.ackStatus_cfg (v : Word) : (s.ackStatus v).cfg = s.cfg := rfl
@[simp] theorem State.ackStatus_ctrl (v : Word) : (s.ackStatus v).ctrl = s.ctrl := rfl
@[simp] theorem State.ackStatus_ce (v : Word) : (s.ackStatus v).ce = { s.ce with done := s.ce.done && !v.getLsbD 1, cmdovr := s.ce.cmdovr && !v.getLsbD 3, werr := s.ce.werr && !v.getLsbD 4 } := rfl
@[simp] theorem State.ackStatus_scu (v : Word) : (s.ackStatus v).scu = s.scu := rfl
@[simp] theorem State.ackStatus_epoch (v : Word) : (s.ackStatus v).epoch = s.epoch := rfl
@[simp] theorem State.ackStatus_draws (v : Word) : (s.ackStatus v).draws = s.draws := rfl
@[simp] theorem State.ackStatus_engineDelay (v : Word) : (s.ackStatus v).engineDelay = s.engineDelay := rfl
@[simp] theorem State.ackStatus_hostQueue (v : Word) : (s.ackStatus v).hostQueue = s.hostQueue := rfl
@[simp] theorem State.ackStatus_hostData (v : Word) : (s.ackStatus v).hostData = s.hostData := rfl
@[simp] theorem State.ackStatus_mem (v : Word) (b : Buf) : (s.ackStatus v).mem b = s.mem b := by cases b <;> rfl
@[simp] theorem State.ackStatus_readByte (v : Word) (b : Buf) (off : Nat) : (s.ackStatus v).readByte b off = s.readByte b off := by cases b <;> rfl
@[simp] theorem State.ackStatus_memRead (v : Word) (b : Buf) (off n : Nat) : (s.ackStatus v).memRead b off n = s.memRead b off n := by cases b <;> rfl

@[simp] theorem State.setCmderr_cfg : s.setCmderr.cfg = s.cfg := rfl
@[simp] theorem State.setCmderr_ctrl : s.setCmderr.ctrl = s.ctrl := rfl
@[simp] theorem State.setCmderr_ce : s.setCmderr.ce = s.ce := rfl
@[simp] theorem State.setCmderr_scu : s.setCmderr.scu = { s.scu with cmderr := true } := rfl
@[simp] theorem State.setCmderr_epoch : s.setCmderr.epoch = s.epoch := rfl
@[simp] theorem State.setCmderr_draws : s.setCmderr.draws = s.draws := rfl
@[simp] theorem State.setCmderr_engineDelay : s.setCmderr.engineDelay = s.engineDelay := rfl
@[simp] theorem State.setCmderr_hostQueue : s.setCmderr.hostQueue = s.hostQueue := rfl
@[simp] theorem State.setCmderr_hostData : s.setCmderr.hostData = s.hostData := rfl
@[simp] theorem State.setCmderr_mem (b : Buf) : s.setCmderr.mem b = s.mem b := by cases b <;> rfl
@[simp] theorem State.setCmderr_readByte (b : Buf) (off : Nat) : s.setCmderr.readByte b off = s.readByte b off := by cases b <;> rfl
@[simp] theorem State.setCmderr_memRead (b : Buf) (off n : Nat) : s.setCmderr.memRead b off n = s.memRead b off n := by cases b <;> rfl

@[simp] theorem State.setSynerr_cfg : s.setSynerr.cfg = s.cfg := rfl
@[simp] theorem State.setSynerr_ctrl : s.setSynerr.ctrl = s.ctrl := rfl
@[simp] theorem State.setSynerr_ce : s.setSynerr.ce = s.ce := rfl
@[simp] theorem State.setSynerr_scu : s.setSynerr.scu = { s.scu with synerr := true } := rfl
@[simp] theorem State.setSynerr_epoch : s.setSynerr.epoch = s.epoch := rfl
@[simp] theorem State.setSynerr_draws : s.setSynerr.draws = s.draws := rfl
@[simp] theorem State.setSynerr_engineDelay : s.setSynerr.engineDelay = s.engineDelay := rfl
@[simp] theorem State.setSynerr_hostQueue : s.setSynerr.hostQueue = s.hostQueue := rfl
@[simp] theorem State.setSynerr_hostData : s.setSynerr.hostData = s.hostData := rfl
@[simp] theorem State.setSynerr_mem (b : Buf) : s.setSynerr.mem b = s.mem b := by cases b <;> rfl
@[simp] theorem State.setSynerr_readByte (b : Buf) (off : Nat) : s.setSynerr.readByte b off = s.readByte b off := by cases b <;> rfl
@[simp] theorem State.setSynerr_memRead (b : Buf) (off n : Nat) : s.setSynerr.memRead b off n = s.memRead b off n := by cases b <;> rfl

@[simp] theorem State.setLenerr_cfg : s.setLenerr.cfg = s.cfg := rfl
@[simp] theorem State.setLenerr_ctrl : s.setLenerr.ctrl = s.ctrl := rfl
@[simp] theorem State.setLenerr_ce : s.setLenerr.ce = s.ce := rfl
@[simp] theorem State.setLenerr_scu : s.setLenerr.scu = { s.scu with lenerr := true } := rfl
@[simp] theorem State.setLenerr_epoch : s.setLenerr.epoch = s.epoch := rfl
@[simp] theorem State.setLenerr_draws : s.setLenerr.draws = s.draws := rfl
@[simp] theorem State.setLenerr_engineDelay : s.setLenerr.engineDelay = s.engineDelay := rfl
@[simp] theorem State.setLenerr_hostQueue : s.setLenerr.hostQueue = s.hostQueue := rfl
@[simp] theorem State.setLenerr_hostData : s.setLenerr.hostData = s.hostData := rfl
@[simp] theorem State.setLenerr_mem (b : Buf) : s.setLenerr.mem b = s.mem b := by cases b <;> rfl
@[simp] theorem State.setLenerr_readByte (b : Buf) (off : Nat) : s.setLenerr.readByte b off = s.readByte b off := by cases b <;> rfl
@[simp] theorem State.setLenerr_memRead (b : Buf) (off n : Nat) : s.setLenerr.memRead b off n = s.memRead b off n := by cases b <;> rfl

@[simp] theorem State.setCkerr_cfg : s.setCkerr.cfg = s.cfg := rfl
@[simp] theorem State.setCkerr_ctrl : s.setCkerr.ctrl = s.ctrl := rfl
@[simp] theorem State.setCkerr_ce : s.setCkerr.ce = s.ce := rfl
@[simp] theorem State.setCkerr_scu : s.setCkerr.scu = { s.scu with ckerr := true } := rfl
@[simp] theorem State.setCkerr_epoch : s.setCkerr.epoch = s.epoch := rfl
@[simp] theorem State.setCkerr_draws : s.setCkerr.draws = s.draws := rfl
@[simp] theorem State.setCkerr_engineDelay : s.setCkerr.engineDelay = s.engineDelay := rfl
@[simp] theorem State.setCkerr_hostQueue : s.setCkerr.hostQueue = s.hostQueue := rfl
@[simp] theorem State.setCkerr_hostData : s.setCkerr.hostData = s.hostData := rfl
@[simp] theorem State.setCkerr_mem (b : Buf) : s.setCkerr.mem b = s.mem b := by cases b <;> rfl
@[simp] theorem State.setCkerr_readByte (b : Buf) (off : Nat) : s.setCkerr.readByte b off = s.readByte b off := by cases b <;> rfl
@[simp] theorem State.setCkerr_memRead (b : Buf) (off n : Nat) : s.setCkerr.memRead b off n = s.memRead b off n := by cases b <;> rfl

@[simp] theorem State.setOvr_cfg : s.setOvr.cfg = s.cfg := rfl
@[simp] theorem State.setOvr_ctrl : s.setOvr.ctrl = s.ctrl := rfl
@[simp] theorem State.setOvr_ce : s.setOvr.ce = s.ce := rfl
@[simp] theorem State.setOvr_scu : s.setOvr.scu = { s.scu with ovr := true } := rfl
@[simp] theorem State.setOvr_epoch : s.setOvr.epoch = s.epoch := rfl
@[simp] theorem State.setOvr_draws : s.setOvr.draws = s.draws := rfl
@[simp] theorem State.setOvr_engineDelay : s.setOvr.engineDelay = s.engineDelay := rfl
@[simp] theorem State.setOvr_hostQueue : s.setOvr.hostQueue = s.hostQueue := rfl
@[simp] theorem State.setOvr_hostData : s.setOvr.hostData = s.hostData := rfl
@[simp] theorem State.setOvr_mem (b : Buf) : s.setOvr.mem b = s.mem b := by cases b <;> rfl
@[simp] theorem State.setOvr_readByte (b : Buf) (off : Nat) : s.setOvr.readByte b off = s.readByte b off := by cases b <;> rfl
@[simp] theorem State.setOvr_memRead (b : Buf) (off n : Nat) : s.setOvr.memRead b off n = s.memRead b off n := by cases b <;> rfl

@[simp] theorem State.setRxrdy_cfg (b : Bool) : (s.setRxrdy b).cfg = s.cfg := rfl
@[simp] theorem State.setRxrdy_ctrl (b : Bool) : (s.setRxrdy b).ctrl = s.ctrl := rfl
@[simp] theorem State.setRxrdy_ce (b : Bool) : (s.setRxrdy b).ce = s.ce := rfl
@[simp] theorem State.setRxrdy_scu (b : Bool) : (s.setRxrdy b).scu = { s.scu with rxrdy := b } := rfl
@[simp] theorem State.setRxrdy_epoch (b : Bool) : (s.setRxrdy b).epoch = s.epoch := rfl
@[simp] theorem State.setRxrdy_draws (b : Bool) : (s.setRxrdy b).draws = s.draws := rfl
@[simp] theorem State.setRxrdy_engineDelay (b : Bool) : (s.setRxrdy b).engineDelay = s.engineDelay := rfl
@[simp] theorem State.setRxrdy_hostQueue (b : Bool) : (s.setRxrdy b).hostQueue = s.hostQueue := rfl
@[simp] theorem State.setRxrdy_hostData (b : Bool) : (s.setRxrdy b).hostData = s.hostData := rfl
@[simp] theorem State.setRxrdy_mem (r : Bool) (b : Buf) : (s.setRxrdy r).mem b = s.mem b := by cases b <;> rfl
@[simp] theorem State.setRxrdy_readByte (r : Bool) (b : Buf) (off : Nat) : (s.setRxrdy r).readByte b off = s.readByte b off := by cases b <;> rfl
@[simp] theorem State.setRxrdy_memRead (r : Bool) (b : Buf) (off n : Nat) : (s.setRxrdy r).memRead b off n = s.memRead b off n := by cases b <;> rfl

@[simp] theorem State.setRxlen_cfg (n : Byte) : (s.setRxlen n).cfg = s.cfg := rfl
@[simp] theorem State.setRxlen_ctrl (n : Byte) : (s.setRxlen n).ctrl = s.ctrl := rfl
@[simp] theorem State.setRxlen_ce (n : Byte) : (s.setRxlen n).ce = s.ce := rfl
@[simp] theorem State.setRxlen_scu (n : Byte) : (s.setRxlen n).scu = { s.scu with rxlen := n } := rfl
@[simp] theorem State.setRxlen_epoch (n : Byte) : (s.setRxlen n).epoch = s.epoch := rfl
@[simp] theorem State.setRxlen_draws (n : Byte) : (s.setRxlen n).draws = s.draws := rfl
@[simp] theorem State.setRxlen_engineDelay (n : Byte) : (s.setRxlen n).engineDelay = s.engineDelay := rfl
@[simp] theorem State.setRxlen_hostQueue (n : Byte) : (s.setRxlen n).hostQueue = s.hostQueue := rfl
@[simp] theorem State.setRxlen_hostData (n : Byte) : (s.setRxlen n).hostData = s.hostData := rfl
@[simp] theorem State.setRxlen_mem (n : Byte) (b : Buf) : (s.setRxlen n).mem b = s.mem b := by cases b <;> rfl
@[simp] theorem State.setRxlen_readByte (n : Byte) (b : Buf) (off : Nat) : (s.setRxlen n).readByte b off = s.readByte b off := by cases b <;> rfl
@[simp] theorem State.setRxlen_memRead (n : Byte) (b : Buf) (off len : Nat) : (s.setRxlen n).memRead b off len = s.memRead b off len := by cases b <;> rfl

@[simp] theorem State.setElen_cfg (n : BitVec 10) : (s.setElen n).cfg = s.cfg := rfl
@[simp] theorem State.setElen_ctrl (n : BitVec 10) : (s.setElen n).ctrl = s.ctrl := rfl
@[simp] theorem State.setElen_ce (n : BitVec 10) : (s.setElen n).ce = s.ce := rfl
@[simp] theorem State.setElen_scu (n : BitVec 10) : (s.setElen n).scu = { s.scu with elen := n } := rfl
@[simp] theorem State.setElen_epoch (n : BitVec 10) : (s.setElen n).epoch = s.epoch := rfl
@[simp] theorem State.setElen_draws (n : BitVec 10) : (s.setElen n).draws = s.draws := rfl
@[simp] theorem State.setElen_engineDelay (n : BitVec 10) : (s.setElen n).engineDelay = s.engineDelay := rfl
@[simp] theorem State.setElen_hostQueue (n : BitVec 10) : (s.setElen n).hostQueue = s.hostQueue := rfl
@[simp] theorem State.setElen_hostData (n : BitVec 10) : (s.setElen n).hostData = s.hostData := rfl
@[simp] theorem State.setElen_mem (n : BitVec 10) (b : Buf) : (s.setElen n).mem b = s.mem b := by cases b <;> rfl
@[simp] theorem State.setElen_readByte (n : BitVec 10) (b : Buf) (off : Nat) : (s.setElen n).readByte b off = s.readByte b off := by cases b <;> rfl
@[simp] theorem State.setElen_memRead (n : BitVec 10) (b : Buf) (off len : Nat) : (s.setElen n).memRead b off len = s.memRead b off len := by cases b <;> rfl

@[simp] theorem State.setDec_cfg (d : Decoder) : (s.setDec d).cfg = s.cfg := rfl
@[simp] theorem State.setDec_ctrl (d : Decoder) : (s.setDec d).ctrl = s.ctrl := rfl
@[simp] theorem State.setDec_ce (d : Decoder) : (s.setDec d).ce = s.ce := rfl
@[simp] theorem State.setDec_scu (d : Decoder) : (s.setDec d).scu = { s.scu with dec := d } := rfl
@[simp] theorem State.setDec_epoch (d : Decoder) : (s.setDec d).epoch = s.epoch := rfl
@[simp] theorem State.setDec_draws (d : Decoder) : (s.setDec d).draws = s.draws := rfl
@[simp] theorem State.setDec_engineDelay (d : Decoder) : (s.setDec d).engineDelay = s.engineDelay := rfl
@[simp] theorem State.setDec_hostQueue (d : Decoder) : (s.setDec d).hostQueue = s.hostQueue := rfl
@[simp] theorem State.setDec_hostData (d : Decoder) : (s.setDec d).hostData = s.hostData := rfl
@[simp] theorem State.setDec_mem (d : Decoder) (b : Buf) : (s.setDec d).mem b = s.mem b := by cases b <;> rfl
@[simp] theorem State.setDec_readByte (d : Decoder) (b : Buf) (off : Nat) : (s.setDec d).readByte b off = s.readByte b off := by cases b <;> rfl
@[simp] theorem State.setDec_memRead (d : Decoder) (b : Buf) (off n : Nat) : (s.setDec d).memRead b off n = s.memRead b off n := by cases b <;> rfl

@[simp] theorem State.ackSerStatus_cfg (v : Word) : (s.ackSerStatus v).cfg = s.cfg := rfl
@[simp] theorem State.ackSerStatus_ctrl (v : Word) : (s.ackSerStatus v).ctrl = s.ctrl := rfl
@[simp] theorem State.ackSerStatus_ce (v : Word) : (s.ackSerStatus v).ce = s.ce := rfl
@[simp] theorem State.ackSerStatus_scu (v : Word) : (s.ackSerStatus v).scu = { s.scu with ovr := s.scu.ovr && !v.getLsbD 1, ckerr := s.scu.ckerr && !v.getLsbD 2, lenerr := s.scu.lenerr && !v.getLsbD 3, synerr := s.scu.synerr && !v.getLsbD 4, cmderr := s.scu.cmderr && !v.getLsbD 5 } := rfl
@[simp] theorem State.ackSerStatus_epoch (v : Word) : (s.ackSerStatus v).epoch = s.epoch := rfl
@[simp] theorem State.ackSerStatus_draws (v : Word) : (s.ackSerStatus v).draws = s.draws := rfl
@[simp] theorem State.ackSerStatus_engineDelay (v : Word) : (s.ackSerStatus v).engineDelay = s.engineDelay := rfl
@[simp] theorem State.ackSerStatus_hostQueue (v : Word) : (s.ackSerStatus v).hostQueue = s.hostQueue := rfl
@[simp] theorem State.ackSerStatus_hostData (v : Word) : (s.ackSerStatus v).hostData = s.hostData := rfl
@[simp] theorem State.ackSerStatus_mem (v : Word) (b : Buf) : (s.ackSerStatus v).mem b = s.mem b := by cases b <;> rfl
@[simp] theorem State.ackSerStatus_readByte (v : Word) (b : Buf) (off : Nat) : (s.ackSerStatus v).readByte b off = s.readByte b off := by cases b <;> rfl
@[simp] theorem State.ackSerStatus_memRead (v : Word) (b : Buf) (off n : Nat) : (s.ackSerStatus v).memRead b off n = s.memRead b off n := by cases b <;> rfl

@[simp] theorem State.launch_cfg (w : Word) (delay : Nat) : (s.launch w delay).cfg = s.cfg := rfl
@[simp] theorem State.launch_ctrl (w : Word) (delay : Nat) : (s.launch w delay).ctrl = s.ctrl := rfl
@[simp] theorem State.launch_ce (w : Word) (delay : Nat) : (s.launch w delay).ce = { s.ce with latch := some w, done := false } := rfl
@[simp] theorem State.launch_scu (w : Word) (delay : Nat) : (s.launch w delay).scu = s.scu := rfl
@[simp] theorem State.launch_epoch (w : Word) (delay : Nat) : (s.launch w delay).epoch = s.epoch := rfl
@[simp] theorem State.launch_draws (w : Word) (delay : Nat) : (s.launch w delay).draws = s.draws := rfl
@[simp] theorem State.launch_engineDelay (w : Word) (delay : Nat) : (s.launch w delay).engineDelay = delay := rfl
@[simp] theorem State.launch_hostQueue (w : Word) (delay : Nat) : (s.launch w delay).hostQueue = s.hostQueue := rfl
@[simp] theorem State.launch_hostData (w : Word) (delay : Nat) : (s.launch w delay).hostData = s.hostData := rfl
@[simp] theorem State.launch_mem (w : Word) (delay : Nat) (b : Buf) : (s.launch w delay).mem b = s.mem b := by cases b <;> rfl
@[simp] theorem State.launch_readByte (w : Word) (delay : Nat) (b : Buf) (off : Nat) : (s.launch w delay).readByte b off = s.readByte b off := by cases b <;> rfl
@[simp] theorem State.launch_memRead (w : Word) (delay : Nat) (b : Buf) (off n : Nat) : (s.launch w delay).memRead b off n = s.memRead b off n := by cases b <;> rfl

@[simp] theorem State.acceptCmd_cfg (w : Word) : (s.acceptCmd w).cfg = s.cfg := rfl
@[simp] theorem State.acceptCmd_ctrl (w : Word) : (s.acceptCmd w).ctrl = s.ctrl := rfl
@[simp] theorem State.acceptCmd_ce (w : Word) : (s.acceptCmd w).ce = { s.ce with latch := some w, done := false } := rfl
@[simp] theorem State.acceptCmd_scu (w : Word) : (s.acceptCmd w).scu = s.scu := rfl
@[simp] theorem State.acceptCmd_epoch (w : Word) : (s.acceptCmd w).epoch = s.epoch := rfl
@[simp] theorem State.acceptCmd_draws (w : Word) : (s.acceptCmd w).draws = s.draws + 1 := rfl
@[simp] theorem State.acceptCmd_engineDelay (w : Word) : (s.acceptCmd w).engineDelay = Config.freeDelay s.draws := rfl
@[simp] theorem State.acceptCmd_hostQueue (w : Word) : (s.acceptCmd w).hostQueue = s.hostQueue := rfl
@[simp] theorem State.acceptCmd_hostData (w : Word) : (s.acceptCmd w).hostData = s.hostData := rfl
@[simp] theorem State.acceptCmd_mem (w : Word) (b : Buf) : (s.acceptCmd w).mem b = s.mem b := by cases b <;> rfl
@[simp] theorem State.acceptCmd_readByte (w : Word) (b : Buf) (off : Nat) : (s.acceptCmd w).readByte b off = s.readByte b off := by cases b <;> rfl
@[simp] theorem State.acceptCmd_memRead (w : Word) (b : Buf) (off n : Nat) : (s.acceptCmd w).memRead b off n = s.memRead b off n := by cases b <;> rfl

@[simp] theorem State.writeCtrl_cfg (v : Word) : (s.writeCtrl v).cfg = s.cfg := rfl
@[simp] theorem State.writeCtrl_ctrl (v : Word) : (s.writeCtrl v).ctrl = ⟨v.getLsbD 1, v.getLsbD 2, v.getLsbD 3⟩ := rfl
@[simp] theorem State.writeCtrl_ce (v : Word) : (s.writeCtrl v).ce = s.ce := rfl
@[simp] theorem State.writeCtrl_scu (v : Word) : (s.writeCtrl v).scu = s.scu := rfl
@[simp] theorem State.writeCtrl_epoch (v : Word) : (s.writeCtrl v).epoch = s.epoch := rfl
@[simp] theorem State.writeCtrl_draws (v : Word) : (s.writeCtrl v).draws = s.draws := rfl
@[simp] theorem State.writeCtrl_engineDelay (v : Word) : (s.writeCtrl v).engineDelay = s.engineDelay := rfl
@[simp] theorem State.writeCtrl_hostQueue (v : Word) : (s.writeCtrl v).hostQueue = s.hostQueue := rfl
@[simp] theorem State.writeCtrl_hostData (v : Word) : (s.writeCtrl v).hostData = s.hostData := rfl
@[simp] theorem State.writeCtrl_mem (v : Word) (b : Buf) : (s.writeCtrl v).mem b = s.mem b := by cases b <;> rfl
@[simp] theorem State.writeCtrl_readByte (v : Word) (b : Buf) (off : Nat) : (s.writeCtrl v).readByte b off = s.readByte b off := by cases b <;> rfl
@[simp] theorem State.writeCtrl_memRead (v : Word) (b : Buf) (off n : Nat) : (s.writeCtrl v).memRead b off n = s.memRead b off n := by cases b <;> rfl

@[simp] theorem State.answer_cfg (v : Word) : (s.answer v).cfg = s.cfg := rfl
@[simp] theorem State.answer_ctrl (v : Word) : (s.answer v).ctrl = s.ctrl := rfl
@[simp] theorem State.answer_ce (v : Word) : (s.answer v).ce = s.ce := rfl
@[simp] theorem State.answer_scu (v : Word) : (s.answer v).scu = s.scu := rfl
@[simp] theorem State.answer_epoch (v : Word) : (s.answer v).epoch = s.epoch := rfl
@[simp] theorem State.answer_draws (v : Word) : (s.answer v).draws = s.draws := rfl
@[simp] theorem State.answer_engineDelay (v : Word) : (s.answer v).engineDelay = s.engineDelay := rfl
@[simp] theorem State.answer_hostQueue (v : Word) : (s.answer v).hostQueue = s.hostQueue := rfl
@[simp] theorem State.answer_hostData (v : Word) : (s.answer v).hostData = some v := rfl
@[simp] theorem State.answer_mem (v : Word) (b : Buf) : (s.answer v).mem b = s.mem b := by cases b <;> rfl
@[simp] theorem State.answer_readByte (v : Word) (b : Buf) (off : Nat) : (s.answer v).readByte b off = s.readByte b off := by cases b <;> rfl
@[simp] theorem State.answer_memRead (v : Word) (b : Buf) (off n : Nat) : (s.answer v).memRead b off n = s.memRead b off n := by cases b <;> rfl

@[simp] theorem State.draw_cfg : s.draw.cfg = s.cfg := rfl
@[simp] theorem State.draw_ctrl : s.draw.ctrl = s.ctrl := rfl
@[simp] theorem State.draw_ce : s.draw.ce = s.ce := rfl
@[simp] theorem State.draw_scu : s.draw.scu = s.scu := rfl
@[simp] theorem State.draw_epoch : s.draw.epoch = s.epoch := rfl
@[simp] theorem State.draw_draws : s.draw.draws = s.draws + 1 := rfl
@[simp] theorem State.draw_engineDelay : s.draw.engineDelay = s.engineDelay := rfl
@[simp] theorem State.draw_hostQueue : s.draw.hostQueue = s.hostQueue := rfl
@[simp] theorem State.draw_hostData : s.draw.hostData = s.hostData := rfl
@[simp] theorem State.draw_mem (b : Buf) : s.draw.mem b = s.mem b := by cases b <;> rfl
@[simp] theorem State.draw_readByte (b : Buf) (off : Nat) : s.draw.readByte b off = s.readByte b off := by cases b <;> rfl
@[simp] theorem State.draw_memRead (b : Buf) (off n : Nat) : s.draw.memRead b off n = s.memRead b off n := by cases b <;> rfl

@[simp] theorem State.popHost_cfg : s.popHost.cfg = s.cfg := rfl
@[simp] theorem State.popHost_ctrl : s.popHost.ctrl = s.ctrl := rfl
@[simp] theorem State.popHost_ce : s.popHost.ce = s.ce := rfl
@[simp] theorem State.popHost_scu : s.popHost.scu = s.scu := rfl
@[simp] theorem State.popHost_epoch : s.popHost.epoch = s.epoch := rfl
@[simp] theorem State.popHost_draws : s.popHost.draws = s.draws := rfl
@[simp] theorem State.popHost_engineDelay : s.popHost.engineDelay = if s.ce.busy then s.engineDelay - 1 else s.engineDelay := rfl
@[simp] theorem State.popHost_hostQueue : s.popHost.hostQueue = s.hostQueue.tail := rfl
@[simp] theorem State.popHost_hostData : s.popHost.hostData = s.hostData := rfl
@[simp] theorem State.popHost_mem (b : Buf) : s.popHost.mem b = s.mem b := by cases b <;> rfl
@[simp] theorem State.popHost_readByte (b : Buf) (off : Nat) : s.popHost.readByte b off = s.readByte b off := by cases b <;> rfl
@[simp] theorem State.popHost_memRead (b : Buf) (off n : Nat) : s.popHost.memRead b off n = s.memRead b off n := by cases b <;> rfl

@[simp] theorem State.resetAction_cfg : s.resetAction.cfg = s.cfg := rfl
@[simp] theorem State.resetAction_ctrl : s.resetAction.ctrl = .reset := rfl
@[simp] theorem State.resetAction_ce : s.resetAction.ce = .reset := rfl
@[simp] theorem State.resetAction_scu : s.resetAction.scu = .reset := rfl
@[simp] theorem State.resetAction_epoch : s.resetAction.epoch = s.epoch + 1 := rfl
@[simp] theorem State.resetAction_draws : s.resetAction.draws = s.draws := rfl
@[simp] theorem State.resetAction_engineDelay : s.resetAction.engineDelay = 0 := rfl
@[simp] theorem State.resetAction_hostQueue : s.resetAction.hostQueue = s.hostQueue := rfl
@[simp] theorem State.resetAction_hostData : s.resetAction.hostData = s.hostData := rfl

/-! ### Replacing a buffer's written bytes -/

@[simp] theorem State.setMem_cfg (b : Buf) (m : Memory) : (s.setMem b m).cfg = s.cfg := by cases b <;> rfl
@[simp] theorem State.memWrite_cfg (b : Buf) (off : Nat) (bs : List Byte) : (s.memWrite b off bs).cfg = s.cfg := by cases b <;> rfl
@[simp] theorem State.setMem_ctrl (b : Buf) (m : Memory) : (s.setMem b m).ctrl = s.ctrl := by cases b <;> rfl
@[simp] theorem State.memWrite_ctrl (b : Buf) (off : Nat) (bs : List Byte) : (s.memWrite b off bs).ctrl = s.ctrl := by cases b <;> rfl
@[simp] theorem State.setMem_epoch (b : Buf) (m : Memory) : (s.setMem b m).epoch = s.epoch := by cases b <;> rfl
@[simp] theorem State.memWrite_epoch (b : Buf) (off : Nat) (bs : List Byte) : (s.memWrite b off bs).epoch = s.epoch := by cases b <;> rfl
@[simp] theorem State.setMem_draws (b : Buf) (m : Memory) : (s.setMem b m).draws = s.draws := by cases b <;> rfl
@[simp] theorem State.memWrite_draws (b : Buf) (off : Nat) (bs : List Byte) : (s.memWrite b off bs).draws = s.draws := by cases b <;> rfl
@[simp] theorem State.setMem_engineDelay (b : Buf) (m : Memory) : (s.setMem b m).engineDelay = s.engineDelay := by cases b <;> rfl
@[simp] theorem State.memWrite_engineDelay (b : Buf) (off : Nat) (bs : List Byte) : (s.memWrite b off bs).engineDelay = s.engineDelay := by cases b <;> rfl
@[simp] theorem State.setMem_hostQueue (b : Buf) (m : Memory) : (s.setMem b m).hostQueue = s.hostQueue := by cases b <;> rfl
@[simp] theorem State.memWrite_hostQueue (b : Buf) (off : Nat) (bs : List Byte) : (s.memWrite b off bs).hostQueue = s.hostQueue := by cases b <;> rfl
@[simp] theorem State.setMem_hostData (b : Buf) (m : Memory) : (s.setMem b m).hostData = s.hostData := by cases b <;> rfl
@[simp] theorem State.memWrite_hostData (b : Buf) (off : Nat) (bs : List Byte) : (s.memWrite b off bs).hostData = s.hostData := by cases b <;> rfl
@[simp] theorem State.memWrite_ce_latch (b : Buf) (off : Nat) (bs : List Byte) : (s.memWrite b off bs).ce.latch = s.ce.latch := by cases b <;> rfl
@[simp] theorem State.memWrite_ce_done (b : Buf) (off : Nat) (bs : List Byte) : (s.memWrite b off bs).ce.done = s.ce.done := by cases b <;> rfl
@[simp] theorem State.memWrite_ce_cmdovr (b : Buf) (off : Nat) (bs : List Byte) : (s.memWrite b off bs).ce.cmdovr = s.ce.cmdovr := by cases b <;> rfl
@[simp] theorem State.memWrite_ce_werr (b : Buf) (off : Nat) (bs : List Byte) : (s.memWrite b off bs).ce.werr = s.ce.werr := by cases b <;> rfl
@[simp] theorem State.memWrite_ce_result (b : Buf) (off : Nat) (bs : List Byte) : (s.memWrite b off bs).ce.result = s.ce.result := by cases b <;> rfl
@[simp] theorem State.memWrite_ce_maxpl (b : Buf) (off : Nat) (bs : List Byte) : (s.memWrite b off bs).ce.maxpl = s.ce.maxpl := by cases b <;> rfl
@[simp] theorem State.memWrite_ce_arg0 (b : Buf) (off : Nat) (bs : List Byte) : (s.memWrite b off bs).ce.arg0 = s.ce.arg0 := by cases b <;> rfl
@[simp] theorem State.memWrite_ce_rlen (b : Buf) (off : Nat) (bs : List Byte) : (s.memWrite b off bs).ce.rlen = s.ce.rlen := by cases b <;> rfl
@[simp] theorem State.memWrite_ce_mic (b : Buf) (off : Nat) (bs : List Byte) : (s.memWrite b off bs).ce.mic = s.ce.mic := by cases b <;> rfl
@[simp] theorem State.memWrite_ce_key (b : Buf) (off : Nat) (bs : List Byte) : (s.memWrite b off bs).ce.key = s.ce.key := by cases b <;> rfl
@[simp] theorem State.memWrite_ce_kw (b : Buf) (off : Nat) (bs : List Byte) : (s.memWrite b off bs).ce.kw = s.ce.kw := by cases b <;> rfl
@[simp] theorem State.memWrite_ce_blk (b : Buf) (off : Nat) (bs : List Byte) : (s.memWrite b off bs).ce.blk = s.ce.blk := by cases b <;> rfl
@[simp] theorem State.memWrite_ce_tag (b : Buf) (off : Nat) (bs : List Byte) : (s.memWrite b off bs).ce.tag = s.ce.tag := by cases b <;> rfl
@[simp] theorem State.memWrite_scu_rxrdy (b : Buf) (off : Nat) (bs : List Byte) : (s.memWrite b off bs).scu.rxrdy = s.scu.rxrdy := by cases b <;> rfl
@[simp] theorem State.memWrite_scu_ovr (b : Buf) (off : Nat) (bs : List Byte) : (s.memWrite b off bs).scu.ovr = s.scu.ovr := by cases b <;> rfl
@[simp] theorem State.memWrite_scu_ckerr (b : Buf) (off : Nat) (bs : List Byte) : (s.memWrite b off bs).scu.ckerr = s.scu.ckerr := by cases b <;> rfl
@[simp] theorem State.memWrite_scu_lenerr (b : Buf) (off : Nat) (bs : List Byte) : (s.memWrite b off bs).scu.lenerr = s.scu.lenerr := by cases b <;> rfl
@[simp] theorem State.memWrite_scu_synerr (b : Buf) (off : Nat) (bs : List Byte) : (s.memWrite b off bs).scu.synerr = s.scu.synerr := by cases b <;> rfl
@[simp] theorem State.memWrite_scu_cmderr (b : Buf) (off : Nat) (bs : List Byte) : (s.memWrite b off bs).scu.cmderr = s.scu.cmderr := by cases b <;> rfl
@[simp] theorem State.memWrite_scu_rxlen (b : Buf) (off : Nat) (bs : List Byte) : (s.memWrite b off bs).scu.rxlen = s.scu.rxlen := by cases b <;> rfl
@[simp] theorem State.memWrite_scu_elen (b : Buf) (off : Nat) (bs : List Byte) : (s.memWrite b off bs).scu.elen = s.scu.elen := by cases b <;> rfl
@[simp] theorem State.memWrite_scu_dec (b : Buf) (off : Nat) (bs : List Byte) : (s.memWrite b off bs).scu.dec = s.scu.dec := by cases b <;> rfl

/-- Setting a buffer's written bytes sets those and no other buffer's. -/
theorem State.setMem_mem (b c : Buf) (m : Memory) : (s.setMem b m).mem c = if c = b then m else s.mem c := by
  cases b <;> cases c <;> rfl

/-- A CE buffer write leaves the whole SCU alone (R98). -/
@[simp] theorem State.memWrite_fbuf_scu (off : Nat) (bs : List Byte) : (s.memWrite .fbuf off bs).scu = s.scu := rfl

/-- An SCU buffer write leaves the whole CE alone (R98). -/
theorem State.memWrite_ce_of_ne_fbuf {b : Buf} (h : b ≠ .fbuf) (off : Nat) (bs : List Byte) :
    (s.memWrite b off bs).ce = s.ce := by
  cases b <;> first | rfl | exact absurd rfl h

end Sys2Proof.Machine
end

