-- ==== Sys2Proof/Laws/Buffers.lean ====
section
/-! SUPPORT. What MemRead and MemWrite (R16) do to the five buffers, said once through the read of one byte. -/

namespace Sys2Proof.Machine

variable (s : State)

/-- The written bytes of every buffer after a MemWrite. -/
theorem State.memWrite_mem (b c : Buf) (off : Nat) (bs : List Byte) :
    (s.memWrite b off bs).mem c = if c = b then Memory.writeBytes (bufSize b) off bs (s.mem b) else s.mem c := by
  simp only [State.memWrite, State.setMem_mem]

/-- THE law of MemWrite: every byte of every buffer after it. -/
theorem State.readByte_memWrite (b c : Buf) (off : Nat) (bs : List Byte) (a : Nat) :
    (s.memWrite b off bs).readByte c a =
      if c = b ∧ off ≤ a ∧ a < off + bs.length ∧ a < bufSize b then byteAt bs (a - off) else s.readByte c a := by
  simp only [State.readByte, State.memWrite_mem, State.memWrite_epoch]
  by_cases hc : c = b
  · subst hc
    simp only [if_true, Memory.lookup_writeBytes]
    by_cases h : off ≤ a ∧ a < off + bs.length ∧ a < bufSize c
    · have hlt : a - off < bs.length := by omega
      simp [h, byteAt, List.getD, hlt]
    · rw [if_neg h, if_neg (by tauto)]
  · simp [hc]

/-- Inside the written range, a byte reads as written. -/
theorem State.readByte_memWrite_of_mem {b : Buf} {off : Nat} {bs : List Byte} {a : Nat}
    (h1 : off ≤ a) (h2 : a < off + bs.length) (h3 : a < bufSize b) :
    (s.memWrite b off bs).readByte b a = byteAt bs (a - off) := by
  rw [State.readByte_memWrite, if_pos ⟨rfl, h1, h2, h3⟩]

/-- Outside the written range, and in every other buffer, a byte reads as before. -/
theorem State.readByte_memWrite_of_notMem {b c : Buf} {off : Nat} {bs : List Byte} {a : Nat}
    (h : ¬(c = b ∧ off ≤ a ∧ a < off + bs.length)) :
    (s.memWrite b off bs).readByte c a = s.readByte c a := by
  rw [State.readByte_memWrite, if_neg (by tauto)]

/-- MemWrite keeps every buffer's canonical form. -/
theorem State.memWrite_wf {s : State} (h : ∀ c, Memory.wf (bufSize c) (s.mem c) = true) (b : Buf) (off : Nat)
    (bs : List Byte) (c : Buf) : Memory.wf (bufSize c) ((s.memWrite b off bs).mem c) = true := by
  rw [State.memWrite_mem]
  split
  · next hc => subst hc; exact Memory.wf_writeBytes _ _ (h c)
  · exact h c

@[simp] theorem State.memRead_length (b : Buf) (off n : Nat) : (s.memRead b off n).length = n := by
  simp [State.memRead]

/-- Byte i of what MemRead returns. -/
theorem State.byteAt_memRead (b : Buf) (off n i : Nat) :
    byteAt (s.memRead b off n) i = if i < n then s.readByte b (off + i) else 0 := by
  by_cases h : i < n <;> simp [byteAt, State.memRead, List.getD, h]

/-- Two states that read the same bytes return the same byte string. -/
theorem State.memRead_congr {s t : State} {b : Buf} {off n : Nat}
    (h : ∀ i, i < n → s.readByte b (off + i) = t.readByte b (off + i)) : s.memRead b off n = t.memRead b off n := by
  simp only [State.memRead]
  exact List.map_congr_left fun i hi => h i (List.mem_range.1 hi)

/-- A shorter MemRead from the same offset is a prefix of a longer one. -/
theorem State.take_memRead (b : Buf) (off : Nat) {m n : Nat} (h : m ≤ n) :
    (s.memRead b off n).take m = s.memRead b off m := by
  simp [State.memRead, ← List.map_take, List.take_range, h]

/-- Reading back exactly what was written. -/
theorem State.memRead_memWrite (b : Buf) (off : Nat) (bs : List Byte) (h : off + bs.length ≤ bufSize b) :
    (s.memWrite b off bs).memRead b off bs.length = bs := by
  apply List.ext_getElem (by simp)
  intro i h1 h2
  have hi : i < bs.length := h2
  simp only [State.memRead, List.getElem_map, List.getElem_range]
  rw [State.readByte_memWrite_of_mem _ (by omega) (by omega) (by omega)]
  simp [byteAt, List.getD, hi]

end Sys2Proof.Machine
end

