-- ==== Sys2Proof/Laws/Bus.lean ====
section
/-! SUPPORT. The bus and the agents, said once: where an access goes, what each shared operation can do when it gives a
next state, and whose move a step is. -/

namespace Sys2Proof.Machine

/-! ### Where an access goes -/

/-- Inside the window an access reaches the map's target when it is admitted, and is a bus error otherwise (R80 to
R83). -/
theorem access_inWindow (p : Config.Params) (w : Width) {off : Nat} (h : off < 0x800) :
    access p w (p.pBase + off) = if admitted w off then .reach (targetAt off) else .busError := by
  have h1 : windowOffset p (p.pBase + off) = some off := by
    unfold windowOffset windowSize
    rw [if_pos (by omega)]
    simp
  simp only [access, h1]

/-- A 32-bit access at a multiple of 4 reaches the map's target (R82). -/
theorem access_word (p : Config.Params) {off : Nat} (h : off < 0x800) (h4 : off % 4 = 0) :
    access p .w32 (p.pBase + off) = .reach (targetAt off) := by
  rw [access_inWindow p _ h, if_pos (by simp [admitted, h4])]

/-- An 8-bit access to a buffer reaches the map's target (R82). -/
theorem access_byte (p : Config.Params) {off : Nat} (h : off < 0x800) (hb : 0x100 ≤ off) :
    access p .w8 (p.pBase + off) = .reach (targetAt off) := by
  rw [access_inWindow p _ h, if_pos (by simp [admitted, hb])]

/-- The place of each host buffer in the window (R81). -/
theorem targetAt_fbuf {o : Nat} (h : o < 256) : targetAt (0x100 + o) = .buf .fbuf o := by
  unfold targetAt; rw [if_neg (by omega), if_pos (by omega)]; simp

theorem targetAt_stbuf {o : Nat} (h : o < 256) : targetAt (0x200 + o) = .buf .stbuf o := by
  unfold targetAt; rw [if_neg (by omega), if_neg (by omega), if_pos (by omega)]; simp

theorem targetAt_srbuf {o : Nat} (h : o < 256) : targetAt (0x300 + o) = .buf .srbuf o := by
  unfold targetAt; rw [if_neg (by omega), if_neg (by omega), if_neg (by omega), if_pos (by omega)]; simp

theorem targetAt_ebuf {o : Nat} : targetAt (0x400 + o) = .buf .ebuf o := by
  unfold targetAt; rw [if_neg (by omega), if_neg (by omega), if_neg (by omega), if_neg (by omega)]; simp

/-- Outside the window nothing answers (R80). -/
theorem access_outside (p : Config.Params) (w : Width) {addr : Nat} (h : addr < p.pBase ∨ p.pBase + 0x800 ≤ addr) :
    access p w addr = .noResponse := by
  have h1 : windowOffset p addr = none := by
    unfold windowOffset windowSize
    rw [if_neg (by omega)]
  simp only [access, h1]

/-- An access reaches a target exactly when it is admitted at an offset of the window that maps there. -/
theorem access_reach_iff (p : Config.Params) (w : Width) (addr : Nat) (x : Target) :
    access p w addr = .reach x ↔
      ∃ off, addr = p.pBase + off ∧ off < 0x800 ∧ admitted w off = true ∧ targetAt off = x := by
  constructor
  · intro h
    by_cases hw : addr < p.pBase ∨ p.pBase + 0x800 ≤ addr
    · rw [access_outside p w hw] at h; cases h
    · refine ⟨addr - p.pBase, by omega, by omega, ?_⟩
      rw [show addr = p.pBase + (addr - p.pBase) by omega, access_inWindow p w (by omega)] at h
      split at h
      · next ha => exact ⟨ha, by simpa using h⟩
      · cases h
  · rintro ⟨off, rfl, hlt, ha, rfl⟩
    rw [access_inWindow p w hlt, if_pos ha]

/-- What an admitted access reaches is never ABUF (R54). -/
theorem targetAt_ne_abuf (off i : Nat) : targetAt off ≠ .buf .abuf i := by
  unfold targetAt
  split
  · simp
  · split
    · simp
    · split
      · simp
      · split <;> simp

/-! ### The shared operations -/

/-- A host read that gives a next state reached a target, and only answered it. -/
theorem hostRead_next {w : Width} {addr : Nat} {s t : State} (h : hostRead w addr s = .next t) :
    ∃ x, access s.cfg w addr = .reach x ∧ t = readTarget w x s := by
  unfold hostRead at h
  split at h
  · cases h
  · cases h
  · next x hx => exact ⟨x, hx, by cases h; rfl⟩

/-- A host write that gives a next state reached a target. -/
theorem hostWrite_next {w : Width} {addr : Nat} {v : Word} {s t : State} (h : hostWrite w addr v s = .next t) :
    ∃ x, access s.cfg w addr = .reach x ∧ writeTarget w x v s = .next t := by
  unfold hostWrite at h
  split at h
  · cases h
  · cases h
  · next x hx => exact ⟨x, hx, h⟩

/-- A host read of a target. -/
theorem hostRead_of_reach {w : Width} {addr : Nat} {s : State} {x : Target} (h : access s.cfg w addr = .reach x) :
    hostRead w addr s = .next (readTarget w x s) := by simp only [hostRead, h]

/-- A host write of a target. -/
theorem hostWrite_of_reach {w : Width} {addr : Nat} {v : Word} {s : State} {x : Target}
    (h : access s.cfg w addr = .reach x) : hostWrite w addr v s = writeTarget w x v s := by simp only [hostWrite, h]

/-- An admitted read changes the host's data and the draw counter, nothing else (R88). -/
theorem readTarget_frame (w : Width) (x : Target) (s : State) :
    readTarget w x s =
      { s with hostData := (readTarget w x s).hostData, draws := (readTarget w x s).draws } := by
  unfold readTarget; split <;> rfl

/-- A read that R307 leaves no value open to gives the stored value. -/
theorem readTarget_stored {w : Width} {x : Target} {s : State} (h : (s.ce.busy && x.isCeOutput) = false) :
    readTarget w x s = s.answer (storedData w x s) := by simp [readTarget, h]

/-- A host read that R307 leaves no value open to answers the stored value. -/
theorem hostRead_stored {w : Width} {addr : Nat} {s : State} {x : Target} (h : access s.cfg w addr = .reach x)
    (hb : (s.ce.busy && x.isCeOutput) = false) : hostRead w addr s = .next (s.answer (storedData w x s)) := by
  rw [hostRead_of_reach h, readTarget_stored hb]

/-- A round of POLL that holds ends it, and one that does not puts it back in front; nothing else changes. -/
theorem pollAgain_cases (addr : Nat) (m v : Word) (s : State) :
    pollAgain addr m v s = s ∨ pollAgain addr m v s = { s with hostQueue := .poll addr m v :: s.hostQueue } := by
  unfold pollAgain; split
  · exact .inl rfl
  · exact .inr rfl

/-- The host's move, when it gives a next state: a read, a write, a round of POLL or a reset. -/
theorem hostMove_next {op : HostOp} {s t : State} (h : hostMove op s = .next t) :
    (∃ w addr x, op = .read w addr ∧ access s.cfg w addr = .reach x ∧ t = readTarget w x s) ∨
    (∃ w addr v x, op = .write w addr v ∧ access s.cfg w addr = .reach x ∧ writeTarget w x v s = .next t) ∨
    (∃ addr m v x, op = .poll addr m v ∧ access s.cfg .w32 addr = .reach x ∧
      t = pollAgain addr m v (readTarget .w32 x s)) ∨
    (op = .assertReset ∧ t = s.resetAction) := by
  cases op with
  | read w addr =>
    obtain ⟨x, hx, rfl⟩ := hostRead_next h
    exact .inl ⟨w, addr, x, rfl, hx, rfl⟩
  | write w addr v =>
    obtain ⟨x, hx, hw⟩ := hostWrite_next h
    exact .inr (.inl ⟨w, addr, v, x, rfl, hx, hw⟩)
  | poll addr m v =>
    simp only [hostMove] at h
    split at h
    · next s1 h1 =>
      obtain ⟨x, hx, rfl⟩ := hostRead_next h1
      exact .inr (.inr (.inl ⟨addr, m, v, x, rfl, hx, by cases h; rfl⟩))
    · cases h
    · cases h
  | assertReset => exact .inr (.inr (.inr ⟨rfl, by cases h; rfl⟩))

/-- An admitted write, when it gives a next state: dropped with WERR, or a register write, or a buffer write. -/
theorem writeTarget_next {w : Width} {x : Target} {v : Word} {s t : State} (h : writeTarget w x v s = .next t) :
    ((s.ce.busy && x.isCeInput) = true ∧ t = s.setWerr) ∨
    ((s.ce.busy && x.isCeInput) = false ∧ ((∃ r, x = .reg r ∧ storeReg r v s = .next t) ∨
      ∃ b off, x = .buf b off ∧ t = storeBuf w b off v s)) := by
  unfold writeTarget at h
  split at h
  · next hb => exact .inl ⟨hb, by cases h; rfl⟩
  · next hb =>
    refine .inr ⟨by simpa using hb, ?_⟩
    split at h
    · exact .inl ⟨_, rfl, h⟩
    · exact .inr ⟨_, _, rfl, by cases h; rfl⟩

/-! ### Whose move is next -/

/-- The engine is next exactly when a word is latched and no host access is to come before its step (R305). -/
theorem turn_engine_iff (s : State) (w : Word) :
    turn s = .engine w ↔ s.ce.latch = some w ∧ (s.hostQueue = [] ∨ s.engineDelay = 0) := by
  unfold turn
  split
  · simp_all
  · simp_all
  · simp_all
  · split <;> simp_all

/-- The host is next exactly when it asks something and the engine is not to come first. -/
theorem turn_host_iff (s : State) (op : HostOp) :
    turn s = .host op ↔ (∃ rest, s.hostQueue = op :: rest) ∧ (s.ce.latch = none ∨ s.engineDelay ≠ 0) := by
  unfold turn
  split
  · simp_all
  · simp_all
  · simp_all
  · split <;> simp_all

/-- A step that gives a next state: nothing to do, the engine's step, or the host's access. -/
theorem step_next {s t : State} (h : step s = .next t) :
    (turn s = .idle ∧ t = s) ∨ (∃ w, turn s = .engine w ∧ engineRun w s = .next t) ∨
    (∃ op, turn s = .host op ∧ hostMove op s.popHost = .next t) := by
  simp only [step, move] at h
  split at h
  · next ht => exact .inl ⟨ht, by cases h; rfl⟩
  · next w ht => exact .inr (.inl ⟨w, ht, h⟩)
  · next op ht => exact .inr (.inr ⟨op, ht, h⟩)

end Sys2Proof.Machine
end

