-- ==== Sys2Proof/Laws/Bytes.lean ====
section
/-! SUPPORT. Byte strings: lengths, XOR, lanes, and the 16-byte register groups. -/

namespace Sys2Proof.Machine

@[simp] theorem be16_length (v : BitVec 16) : (be16 v).length = 2 := rfl
@[simp] theorem le16_length (v : BitVec 16) : (le16 v).length = 2 := rfl
@[simp] theorem be32_length (v : Word) : (be32 v).length = 4 := rfl
@[simp] theorem lanes_length (w : Word) : (lanes w).length = 4 := rfl
@[simp] theorem zeros_length (n : Nat) : (zeros n).length = n := by simp [zeros]
@[simp] theorem bytesBe_length (n v : Nat) : (bytesBe n v).length = n := by simp [bytesBe]
@[simp] theorem quadBytes_length (q : Quad) : q.bytes.length = 16 := rfl

@[simp] theorem xorBytes_length (a b : List Byte) : (xorBytes a b).length = min a.length b.length := by
  simp [xorBytes]

/-- `s[i]` inside the string is its element there. -/
theorem byteAt_eq_getElem {s : List Byte} {i : Nat} (h : i < s.length) : byteAt s i = s[i] := by
  simp [byteAt, List.getD, h]

/-- Two byte strings are equal when their lengths and all their bytes are. -/
theorem bytes_ext {a b : List Byte} (hl : a.length = b.length) (h : ∀ i, i < a.length → byteAt a i = byteAt b i) :
    a = b := by
  apply List.ext_getElem hl
  intro i h1 h2
  rw [← byteAt_eq_getElem h1, ← byteAt_eq_getElem h2]
  exact h i h1

/-- Byte i of an XOR. -/
theorem byteAt_xorBytes {a b : List Byte} {i : Nat} (ha : i < a.length) (hb : i < b.length) :
    byteAt (xorBytes a b) i = byteAt a i ^^^ byteAt b i := by
  rw [byteAt_eq_getElem (by simp; omega), byteAt_eq_getElem ha, byteAt_eq_getElem hb]
  simp [xorBytes]

/-- XORing the same string twice gives back the first. -/
theorem xorBytes_cancel {a k : List Byte} (h : a.length ≤ k.length) : xorBytes (xorBytes a k) k = a := by
  apply bytes_ext (by simp; omega)
  intro i hi
  have : i < a.length := by simp at hi; omega
  rw [byteAt_xorBytes (by simp; omega) (by omega), byteAt_xorBytes this (by omega)]
  simp

/-- The lanes of the word made of four bytes are those bytes (R84). -/
@[simp] theorem lanes_ofLanes (b0 b1 b2 b3 : Byte) : lanes (ofLanes b0 b1 b2 b3) = [b0, b1, b2, b3] := by
  simp only [lanes, ofLanes, fieldAt, List.cons.injEq, and_true]
  refine ⟨?_, ?_, ?_, ?_⟩ <;>
  · ext i hi
    interval_cases i <;> simp

/-- Lane i of the word made of four bytes (R84). -/
theorem ofLanes_lane (b0 b1 b2 b3 : Byte) {i : Nat} (hi : i < 4) :
    (ofLanes b0 b1 b2 b3).extractLsb' (8 * i) 8 = byteAt [b0, b1, b2, b3] i := by
  have h := lanes_ofLanes b0 b1 b2 b3
  simp only [lanes, List.cons.injEq, and_true] at h
  interval_cases i
  · exact h.1
  · exact h.2.1
  · exact h.2.2.1
  · exact h.2.2.2

/-- A word is the word made of its lanes. -/
theorem ofLanes_lanes (v : Word) :
    ofLanes (v.extractLsb' 0 8) (v.extractLsb' 8 8) (v.extractLsb' 16 8) (v.extractLsb' 24 8) = v := by
  ext i hi
  interval_cases i <;> simp [ofLanes, fieldAt]

/-- A byte of a word as an 8-bit read returns it. -/
theorem extract_setWidth (v : Word) (k : Nat) : (v.extractLsb' k 8).setWidth 32 = (v >>> k) &&& 0xFF := by
  apply BitVec.eq_of_toNat_eq
  have h := Nat.and_two_pow_sub_one_eq_mod (v.toNat >>> k) 8
  simp at h ⊢
  rw [h]; omega

/-- Byte 4k + i of a register group is lane i of its word k (R40). -/
theorem Quad.byteAt_bytes (q : Quad) (k : Fin 4) {i : Nat} (hi : i < 4) :
    byteAt q.bytes (4 * k.val + i) = (q.get k).extractLsb' (8 * i) 8 := by
  fin_cases k <;> interval_cases i <;> rfl

/-- A 16-byte string survives being held in a register group (R40). -/
theorem Quad.bytes_ofBytes {t : List Byte} (h : t.length = 16) : (Quad.ofBytes t).bytes = t := by
  apply bytes_ext (by simp [h])
  intro i hi
  simp only [quadBytes_length] at hi
  simp only [Quad.bytes, Quad.ofBytes, lanes_ofLanes]
  interval_cases i <;> rfl

@[simp] theorem Quad.zero_bytes : Quad.zero.bytes = zeros 16 := by decide

/-- Reading a group's word after writing one (R42). -/
theorem Quad.get_set (q : Quad) (k j : Fin 4) (v : Word) :
    (q.set k v).get j = if j = k then v else q.get j := by
  fin_cases k <;> fin_cases j <;> rfl

/-- A register group is its four words. -/
theorem Quad.ext_get {p q : Quad} (h : ∀ k, p.get k = q.get k) : p = q := by
  cases p; cases q
  have h0 := h 0; have h1 := h 1; have h2 := h 2; have h3 := h 3
  simp only [Quad.get] at h0 h1 h2 h3
  simp [h0, h1, h2, h3]

end Sys2Proof.Machine
end

