-- ==== Sys2Proof/Laws/Crypto.lean ====
section
/-! SUPPORT. Lengths of what the cipher, the keystream and the MAC give, and the law of the CTR transform. -/

namespace Sys2Proof.Machine

open Config (Params)

@[simp] theorem addRoundKey_length (rk s : List Byte) : (addRoundKey rk s).length = 16 := by simp [addRoundKey]

/-- AES128 always gives a 16-byte block (R146). -/
@[simp] theorem aes128_length (k b : List Byte) : (aes128 k b).length = 16 := by simp [aes128]

/-- A tag is 16 bytes (R176). -/
@[simp] theorem cmac_length (k m : List Byte) : (cmac k m).length = 16 := by simp [cmac]

@[simp] theorem micFull_length (p : Params) (k f : List Byte) : (micFull p k f).length = 16 := by simp [micFull]

@[simp] theorem panBytes_length (p : Params) (pan : BitVec 16) : (panBytes p pan).length = 2 := by
  unfold panBytes; split <;> rfl

/-- A MIC is 4 bytes (R180). -/
theorem mic4_length (p : Params) {t : List Byte} (h : t.length = 16) : (mic4 p t).length = 4 := by
  unfold mic4; split <;> simp [h]

/-- The keystream before it is cut has 16 bytes per block. -/
theorem keystreamBlocks_length (f : Nat → List Byte) (hf : ∀ j, (f j).length = 16) (m : Nat) :
    ((List.range m).flatMap f).length = 16 * m := by
  induction m with
  | zero => rfl
  | succ m ih => simp [List.range_succ, List.flatMap_append, ih, hf]; omega

/-- Byte i of the uncut keystream is byte i mod 16 of block i / 16 (R172). -/
theorem byteAt_keystreamBlocks (f : Nat → List Byte) (hf : ∀ j, (f j).length = 16) (m i : Nat) (hi : i < 16 * m) :
    byteAt ((List.range m).flatMap f) i = byteAt (f (i / 16)) (i % 16) := by
  induction m with
  | zero => omega
  | succ m ih =>
    simp only [List.range_succ, List.flatMap_append, List.flatMap_cons, List.flatMap_nil, List.append_nil]
    have hl := keystreamBlocks_length f hf m
    by_cases h : i < 16 * m
    · rw [← ih h]
      simp [byteAt, List.getD, List.getElem?_append, hl, h]
    · have h1 : i / 16 = m := by omega
      have h2 : i - 16 * m = i % 16 := by omega
      simp [byteAt, List.getD, List.getElem?_append, hl, h, h1, h2]

/-- The keystream of n bytes has n bytes (R172). -/
@[simp] theorem keystream_length (p : Params) (k : List Byte) (pan : BitVec 16) (dst src : Byte) (n : Nat) :
    (keystream p k pan dst src n).length = n := by
  simp only [keystream, List.length_take]
  rw [keystreamBlocks_length _ (fun _ => aes128_length _ _)]
  omega

/-- Byte i of the keystream, whatever its length: byte i mod 16 of the cipher of counter block i / 16 (R172). -/
theorem byteAt_keystream (p : Params) (k : List Byte) (pan : BitVec 16) (dst src : Byte) {n i : Nat} (hi : i < n) :
    byteAt (keystream p k pan dst src n) i = byteAt (aes128 k (counterBlock p pan dst src (i / 16))) (i % 16) := by
  rw [← byteAt_keystreamBlocks (fun j => aes128 k (counterBlock p pan dst src j)) (fun _ => aes128_length _ _)
    ((n + 15) / 16) i (by omega)]
  simp [byteAt, keystream, List.getD, hi]

/-- The CTR transform keeps the length (R174). -/
@[simp] theorem ctrTransform_length (p : Params) (k : List Byte) (pan : BitVec 16) (dst src : Byte) (d : List Byte) :
    (ctrTransform p k pan dst src d).length = d.length := by simp [ctrTransform]

/-- Byte i of the CTR transform (R173). -/
theorem byteAt_ctrTransform (p : Params) (k : List Byte) (pan : BitVec 16) (dst src : Byte) {d : List Byte} {i : Nat}
    (hi : i < d.length) :
    byteAt (ctrTransform p k pan dst src d) i =
      byteAt d i ^^^ byteAt (aes128 k (counterBlock p pan dst src (i / 16))) (i % 16) := by
  rw [ctrTransform, byteAt_xorBytes hi (by simpa using hi), byteAt_keystream _ _ _ _ _ hi]

/-- THE law of the payload transform of SEAL and OPEN: every byte of every buffer after it. -/
theorem State.readByte_cryptPayload (s : State) (n : Nat) (c : Buf) (a : Nat) :
    (s.cryptPayload n).readByte c a =
      if c = .fbuf ∧ headerLen ≤ a ∧ a < headerLen + n ∧ a < 256 then
        s.readByte .fbuf a ^^^
          byteAt (aes128 s.ce.keyBytes (counterBlock s.cfg (framePan (s.memRead .fbuf 0 headerLen))
            (frameDst (s.memRead .fbuf 0 headerLen)) (frameSrc (s.memRead .fbuf 0 headerLen))
            ((a - headerLen) / 16))) ((a - headerLen) % 16)
      else s.readByte c a := by
  simp only [State.cryptPayload, State.readByte_memWrite, ctrTransform_length, State.memRead_length, bufSize]
  split
  · next h =>
    rw [byteAt_ctrTransform _ _ _ _ _ (by simp; omega), State.byteAt_memRead, if_pos (by omega),
      show headerLen + (a - headerLen) = a by omega]
  · rfl

@[simp] theorem State.cryptPayload_scu (s : State) (n : Nat) : (s.cryptPayload n).scu = s.scu := rfl
@[simp] theorem State.cryptPayload_cfg (s : State) (n : Nat) : (s.cryptPayload n).cfg = s.cfg := rfl

/-- The payload transform changes FBUF's bytes and nothing else of the machine. -/
theorem State.cryptPayload_frame (s : State) (n : Nat) :
    s.cryptPayload n = { s with ce := { s.ce with fbuf := (s.cryptPayload n).ce.fbuf } } := rfl

end Sys2Proof.Machine
end

