-- ==== Sys2Proof/Laws/Cipher.lean ====
section
/-! SUPPORT. The layers of the AES cipher (R142 to R146) are injective on blocks, each said once. -/

namespace Sys2Proof.Machine

/-- XOR, its first two operands exchanged. -/
theorem xor_lc (a b c : Byte) : a ^^^ (b ^^^ c) = b ^^^ (a ^^^ c) := by
  rw [← BitVec.xor_assoc, BitVec.xor_comm a b, BitVec.xor_assoc]

/-- `xtime` is linear (R141). -/
theorem xtime_xor (a b : Byte) : xtime (a ^^^ b) = xtime a ^^^ xtime b := by
  simp only [xtime]
  have : (a ^^^ b).getLsbD 7 = (a.getLsbD 7 ^^ b.getLsbD 7) := by simp
  rw [this]
  cases a.getLsbD 7 <;> cases b.getLsbD 7 <;> simp [BitVec.shiftLeft_xor_distrib, BitVec.xor_assoc, BitVec.xor_comm, xor_lc]

/-- XORing a byte twice cancels it. -/
theorem xor_cancel_left (a b : Byte) : a ^^^ (a ^^^ b) = b := by rw [← BitVec.xor_assoc]; simp

/-- MixColumns on a column given as a list. -/
def remix (m : List Byte) : List Byte := mixColumn (byteAt m 0) (byteAt m 1) (byteAt m 2) (byteAt m 3)

/-- MixColumns twice (R145): a short form, since its matrix squared has only the entries 5, 4 and 0. -/
theorem mixColumn_twice (a0 a1 a2 a3 : Byte) :
    remix (mixColumn a0 a1 a2 a3) =
      [a0 ^^^ xtime (xtime (a0 ^^^ a2)), a1 ^^^ xtime (xtime (a1 ^^^ a3)), a2 ^^^ xtime (xtime (a0 ^^^ a2)), a3 ^^^ xtime (xtime (a1 ^^^ a3))] := by
  simp only [remix, mixColumn, byteAt, List.getD_cons_zero, List.getD_cons_succ, xtime_xor, List.cons.injEq, and_true]
  generalize xtime (xtime a0) = c0
  generalize xtime (xtime a1) = c1
  generalize xtime (xtime a2) = c2
  generalize xtime (xtime a3) = c3
  generalize xtime a0 = d0
  generalize xtime a1 = d1
  generalize xtime a2 = d2
  generalize xtime a3 = d3
  refine ⟨?_, ?_, ?_, ?_⟩ <;>
  · ext i hi
    simp only [BitVec.getElem_xor]
    generalize a0[i] = x0
    generalize a1[i] = x1
    generalize a2[i] = x2
    generalize a3[i] = x3
    generalize c0[i] = y0
    generalize c1[i] = y1
    generalize c2[i] = y2
    generalize c3[i] = y3
    generalize d0[i] = z0
    generalize d1[i] = z1
    generalize d2[i] = z2
    generalize d3[i] = z3
    revert x0 x1 x2 x3 y0 y1 y2 y3 z0 z1 z2 z3
    decide +kernel

/-- MixColumns on one column loses nothing (R145). -/
theorem mixColumn_injective {a0 a1 a2 a3 b0 b1 b2 b3 : Byte} (h : mixColumn a0 a1 a2 a3 = mixColumn b0 b1 b2 b3) :
    a0 = b0 ∧ a1 = b1 ∧ a2 = b2 ∧ a3 = b3 := by
  have h2 := mixColumn_twice a0 a1 a2 a3
  rw [h, mixColumn_twice] at h2
  simp only [List.cons.injEq, and_true] at h2
  obtain ⟨e0, e1, e2, e3⟩ := h2
  have k : ∀ x y p q : Byte, x ^^^ xtime (xtime (x ^^^ y)) = p ^^^ xtime (xtime (p ^^^ q)) → y ^^^ xtime (xtime (x ^^^ y)) = q ^^^ xtime (xtime (p ^^^ q)) → x = p ∧ y = q := by
    intro x y p q g1 g2
    have g : x ^^^ y = p ^^^ q := by
      have := congrArg₂ (· ^^^ ·) g1 g2
      simpa [BitVec.xor_assoc, BitVec.xor_comm, xor_lc, xor_cancel_left] using this
    rw [g] at g1 g2
    constructor
    · have := congrArg (· ^^^ xtime (xtime (p ^^^ q))) g1; simpa [BitVec.xor_assoc] using this
    · have := congrArg (· ^^^ xtime (xtime (p ^^^ q))) g2; simpa [BitVec.xor_assoc] using this
  have k1 := k _ _ _ _ e0 e2
  have k2 := k _ _ _ _ e1 e3
  exact ⟨k1.1.symm, k2.1.symm, k1.2.symm, k2.2.symm⟩

/-- No two entries of the S-box table are equal (R142). -/
theorem sbox_nodup : sboxRows.flatten.Nodup := by decide +kernel

/-- The table read as one list (R142). -/
theorem sbox_eq_flatten (x : Byte) : sbox x = sboxRows.flatten.getD x.toNat 0 := by
  have h : ∀ n : Fin 256, sbox (BitVec.ofNat 8 n.val) = sboxRows.flatten.getD n.val 0 := by decide +kernel
  have := h ⟨x.toNat, x.isLt⟩
  simpa using this

/-- The S-box is injective (R142). -/
theorem sbox_injective {x y : Byte} (h : sbox x = sbox y) : x = y := by
  rw [sbox_eq_flatten, sbox_eq_flatten] at h
  have hl : sboxRows.flatten.length = 256 := by decide +kernel
  have hx : x.toNat < sboxRows.flatten.length := by rw [hl]; exact x.isLt
  have hy : y.toNat < sboxRows.flatten.length := by rw [hl]; exact y.isLt
  simp only [List.getD, List.getElem?_eq_getElem hx, List.getElem?_eq_getElem hy, Option.getD_some] at h
  exact BitVec.eq_of_toNat_eq ((List.Nodup.getElem_inj_iff sbox_nodup).1 h)

/-- Byte i after SubBytes (R143). -/
theorem byteAt_subBytes {s : List Byte} {i : Nat} (h : i < s.length) : byteAt (subBytes s) i = sbox (byteAt s i) := by
  rw [byteAt_eq_getElem (by simpa [subBytes] using h), byteAt_eq_getElem h]; simp [subBytes]

@[simp] theorem subBytes_length (s : List Byte) : (subBytes s).length = s.length := by simp [subBytes]

/-- SubBytes is injective (R143). -/
theorem subBytes_injective {s t : List Byte} (h : subBytes s = subBytes t) : s = t :=
  List.map_injective_iff.2 (fun _ _ => sbox_injective) h

@[simp] theorem shiftRows_length (s : List Byte) : (shiftRows s).length = 16 := by simp [shiftRows]

/-- Byte i after ShiftRows (R144). -/
theorem byteAt_shiftRows (s : List Byte) {i : Nat} (h : i < 16) : byteAt (shiftRows s) i = byteAt s (i % 4 + 4 * ((i / 4 + i % 4) % 4)) := by
  rw [byteAt_eq_getElem (by simpa using h)]; simp [shiftRows]

/-- ShiftRows is injective on blocks (R144). -/
theorem shiftRows_injective {s t : List Byte} (hs : s.length = 16) (ht : t.length = 16) (h : shiftRows s = shiftRows t) : s = t := by
  apply bytes_ext (by omega)
  intro i hi
  have e := congrArg (fun l => byteAt l (i % 4 + 4 * ((i / 4 + 4 - i % 4) % 4))) h

  rw [byteAt_shiftRows _ (by omega), byteAt_shiftRows _ (by omega)] at e
  rw [show (i % 4 + 4 * ((i / 4 + 4 - i % 4) % 4)) % 4 + 4 * (((i % 4 + 4 * ((i / 4 + 4 - i % 4) % 4)) / 4 + (i % 4 + 4 * ((i / 4 + 4 - i % 4) % 4)) % 4) % 4) = i by omega] at e
  exact e

@[simp] theorem mixColumn_length (a b c d : Byte) : (mixColumn a b c d).length = 4 := rfl

@[simp] theorem mixColumns_length (s : List Byte) : (mixColumns s).length = 16 := by
  simp [mixColumns, List.range, List.range.loop]

/-- MixColumns is injective on blocks (R145). -/
theorem mixColumns_injective {s t : List Byte} (hs : s.length = 16) (ht : t.length = 16) (h : mixColumns s = mixColumns t) : s = t := by
  simp only [mixColumns, List.range, List.range.loop, List.flatMap_cons, List.flatMap_nil, List.append_nil] at h
  obtain ⟨c0, h⟩ := List.append_inj h (by simp)
  obtain ⟨c1, h⟩ := List.append_inj h (by simp)
  obtain ⟨c2, c3⟩ := List.append_inj h (by simp)
  obtain ⟨a0, a1, a2, a3⟩ := mixColumn_injective c0
  obtain ⟨b0, b1, b2, b3⟩ := mixColumn_injective c1
  obtain ⟨d0, d1, d2, d3⟩ := mixColumn_injective c2
  obtain ⟨e0, e1, e2, e3⟩ := mixColumn_injective c3
  apply bytes_ext (by omega)
  intro i hi
  rw [hs] at hi
  interval_cases i <;> assumption

/-- Byte i after AddRoundKey (R146). -/
theorem byteAt_addRoundKey (rk s : List Byte) {i : Nat} (h : i < 16) : byteAt (addRoundKey rk s) i = byteAt s i ^^^ byteAt rk i := by
  rw [byteAt_eq_getElem (by simpa using h)]; simp [addRoundKey]

/-- AddRoundKey is injective on blocks (R146). -/
theorem addRoundKey_injective {rk s t : List Byte} (hs : s.length = 16) (ht : t.length = 16) (h : addRoundKey rk s = addRoundKey rk t) : s = t := by
  apply bytes_ext (by omega)
  intro i hi
  have e := congrArg (fun l => byteAt l i) h

  rw [byteAt_addRoundKey _ _ (by omega), byteAt_addRoundKey _ _ (by omega)] at e
  have := congrArg (· ^^^ byteAt rk i) e
  simpa [BitVec.xor_assoc] using this

/-- A round is injective on blocks (R146). -/
theorem aesRound_injective {ws : List (List Byte)} {i : Nat} {s t : List Byte} (hs : s.length = 16) (ht : t.length = 16)
    (h : aesRound ws s i = aesRound ws t i) : s = t :=
  subBytes_injective (shiftRows_injective (by simpa) (by simpa)
    (mixColumns_injective (by simp) (by simp) (addRoundKey_injective (by simp) (by simp) h)))
end Sys2Proof.Machine
end

