-- ==== Sys2Proof/Laws/Exec.lean ====
section
/-! SUPPORT. The shapes every meaning is made of, said once: the checks of R271 before a CE command's effect and of R119
before an SC command's, the fields of encoded words, and that every effect gives a next state. -/

namespace Sys2Proof.Machine

/-! ### Fields of an encoded word (R111, R112) -/

@[simp] theorem opcOf_ceWord (rsv off len opc : Byte) : opcOf (ceWord rsv off len opc) = opc := by
  simp only [opcOf, ceWord, fieldAt]; ext i h; interval_cases i <;> simp

@[simp] theorem lenOf_ceWord (rsv off len opc : Byte) : lenOf (ceWord rsv off len opc) = len := by
  simp only [lenOf, ceWord, fieldAt]; ext i h; interval_cases i <;> simp

@[simp] theorem offOf_ceWord (rsv off len opc : Byte) : offOf (ceWord rsv off len opc) = off := by
  simp only [offOf, ceWord, fieldAt]; ext i h; interval_cases i <;> simp

@[simp] theorem rsvOf_ceWord (rsv off len opc : Byte) : rsvOf (ceWord rsv off len opc) = rsv := by
  simp only [rsvOf, ceWord, fieldAt]; ext i h; interval_cases i <;> simp

/-- A word of format CE is its four fields. -/
theorem ceWord_fields (w : Word) : ceWord (rsvOf w) (offOf w) (lenOf w) (opcOf w) = w := by
  simp only [rsvOf, offOf, lenOf, opcOf, ceWord, fieldAt]; ext i h; interval_cases i <;> simp

@[simp] theorem opcOf_scWord (rsv : BitVec 16) (arg opc : Byte) : opcOf (scWord rsv arg opc) = opc := by
  simp only [opcOf, scWord, fieldAt]; ext i h; interval_cases i <;> simp

@[simp] theorem argOf_scWord (rsv : BitVec 16) (arg opc : Byte) : argOf (scWord rsv arg opc) = arg := by
  simp only [argOf, scWord, fieldAt]; ext i h; interval_cases i <;> simp

@[simp] theorem serRsvOf_scWord (rsv : BitVec 16) (arg opc : Byte) : serRsvOf (scWord rsv arg opc) = rsv := by
  simp only [serRsvOf, scWord, fieldAt]; ext i h; interval_cases i <;> simp

/-- A word of format SC is its three fields. -/
theorem scWord_fields (w : Word) : scWord (serRsvOf w) (argOf w) (opcOf w) = w := by
  simp only [serRsvOf, argOf, opcOf, scWord, fieldAt]; ext i h; interval_cases i <;> simp

/-! ### The checks -/

/-- A checked CE command, when it gives a next state: the first failing check's completion, or the effect (R271). -/
theorem checked_next {p l k : Bool} {e : State → Host.Outcome State Fault Refusal} {s t : State}
    (h : checked p l k e s = .next t) :
    (p = false ∧ t = s.complete .paramInvalid) ∨
    (p = true ∧ l = true ∧ t = s.complete .lengthError) ∨
    (p = true ∧ l = false ∧ k = true ∧ t = s.complete .cryptoError) ∨
    (p = true ∧ l = false ∧ k = false ∧ e s = .next t) := by
  cases p <;> cases l <;> cases k <;> simp_all [checked, raiseResult]

/-- With every check passed, a checked CE command is its effect. -/
@[simp] theorem checked_pass (e : State → Host.Outcome State Fault Refusal) (s : State) :
    checked true false false e s = e s := rfl

@[simp] theorem checked_param (l k : Bool) (e : State → Host.Outcome State Fault Refusal) (s : State) :
    checked false l k e s = .next (s.complete .paramInvalid) := rfl

@[simp] theorem checked_length (k : Bool) (e : State → Host.Outcome State Fault Refusal) (s : State) :
    checked true true k e s = .next (s.complete .lengthError) := rfl

@[simp] theorem checked_key (e : State → Host.Outcome State Fault Refusal) (s : State) :
    checked true false true e s = .next (s.complete .cryptoError) := rfl

/-- A checked SC command is its effect, or CMDERR and nothing else (R119). -/
theorem checkedSer_eq (legal : Bool) (e : State → State) (s : State) :
    checkedSer legal e s = .next (if legal = true then e s else s.setCmderr) := by
  unfold checkedSer; split <;> rfl

/-- OPEN's effect is a failure or a decryption, by its MIC check (R205). -/
theorem openEffect_cases (len : Byte) (s : State) :
    (mic4 s.cfg (micFull s.cfg s.ce.keyBytes (s.memRead .fbuf 0 (len.toNat - micLen))) ≠
        s.memRead .fbuf (len.toNat - micLen) micLen ∧ openEffect len s = openFail s) ∨
    (mic4 s.cfg (micFull s.cfg s.ce.keyBytes (s.memRead .fbuf 0 (len.toNat - micLen))) =
        s.memRead .fbuf (len.toNat - micLen) micLen ∧
      openEffect len s = finish .ok ((((s.cryptPayload (len.toNat - headerLen - micLen)).setTag
        (Quad.ofBytes (micFull s.cfg s.ce.keyBytes (s.memRead .fbuf 0 (len.toNat - micLen))))).setMic
        (micNum (s.memRead .fbuf (len.toNat - micLen) micLen))).setRlen
        (BitVec.ofNat 8 (len.toNat - headerLen - micLen)))) := by
  simp only [openEffect]
  split
  · next h => exact .inl ⟨h, rfl⟩
  · next h => exact .inr ⟨not_not.1 h, rfl⟩

/-! ### The engine step by OPC (R114, R116) -/

/-- OPC is one of the seven assigned values, or unassigned (R114). -/
theorem opc_cases (o : Byte) :
    o = 1 ∨ o = 2 ∨ o = 3 ∨ o = 4 ∨ o = 5 ∨ o = 6 ∨ o = 7 ∨ (o.toNat = 0 ∨ 8 ≤ o.toNat) := by
  have h : o.toNat = 1 ∨ o.toNat = 2 ∨ o.toNat = 3 ∨ o.toNat = 4 ∨ o.toNat = 5 ∨ o.toNat = 6 ∨ o.toNat = 7 ∨
      (o.toNat = 0 ∨ 8 ≤ o.toNat) := by omega
  rcases h with h | h | h | h | h | h | h | h
  · exact .inl (BitVec.eq_of_toNat_eq h)
  · exact .inr <| .inl (BitVec.eq_of_toNat_eq h)
  · exact .inr <| .inr <| .inl (BitVec.eq_of_toNat_eq h)
  · exact .inr <| .inr <| .inr <| .inl (BitVec.eq_of_toNat_eq h)
  · exact .inr <| .inr <| .inr <| .inr <| .inl (BitVec.eq_of_toNat_eq h)
  · exact .inr <| .inr <| .inr <| .inr <| .inr <| .inl (BitVec.eq_of_toNat_eq h)
  · exact .inr <| .inr <| .inr <| .inr <| .inr <| .inr <| .inl (BitVec.eq_of_toNat_eq h)
  · exact .inr <| .inr <| .inr <| .inr <| .inr <| .inr <| .inr h

/-- A word with an unassigned OPC decodes to no command (R116). -/
theorem decode_ce_unassigned {w : Word} (h : (opcOf w).toNat = 0 ∨ 8 ≤ (opcOf w).toNat) :
    decode .ce w = .error (.illegalCmd (opcOf w)) := by
  simp only [decode, decodeCe]
  rw [if_neg, if_neg, if_neg, if_neg, if_neg, if_neg, if_neg] <;> intro g <;> rw [g] at h <;> simp at h

/-- Its engine step is a completion with ILLEGAL_CMD (R116). -/
theorem engineRun_unassigned {w : Word} {s : State} (h : (opcOf w).toNat = 0 ∨ 8 ≤ (opcOf w).toNat) :
    engineRun w s = .next (s.complete .illegalCmd) := by
  simp only [engineRun, decode_ce_unassigned h]; rfl

theorem engineRun_opc1 {w : Word} {s : State} (h : opcOf w = 1) :
    engineRun w s = execAesenc (rsvOf w) (offOf w) (lenOf w) s := by simp only [engineRun, decode, decodeCe, h]; rfl

theorem engineRun_opc2 {w : Word} {s : State} (h : opcOf w = 2) :
    engineRun w s = execCtrxor (rsvOf w) (offOf w) (lenOf w) s := by simp only [engineRun, decode, decodeCe, h]; rfl

theorem engineRun_opc3 {w : Word} {s : State} (h : opcOf w = 3) :
    engineRun w s = execCmac (rsvOf w) (offOf w) (lenOf w) s := by simp only [engineRun, decode, decodeCe, h]; rfl

theorem engineRun_opc4 {w : Word} {s : State} (h : opcOf w = 4) :
    engineRun w s = execMicgen (rsvOf w) (offOf w) (lenOf w) s := by simp only [engineRun, decode, decodeCe, h]; rfl

theorem engineRun_opc5 {w : Word} {s : State} (h : opcOf w = 5) :
    engineRun w s = execSealFrame (rsvOf w) (offOf w) (lenOf w) s := by simp only [engineRun, decode, decodeCe, h]; rfl

theorem engineRun_opc6 {w : Word} {s : State} (h : opcOf w = 6) :
    engineRun w s = execOpenFrame (rsvOf w) (offOf w) (lenOf w) s := by simp only [engineRun, decode, decodeCe, h]; rfl

theorem engineRun_opc7 {w : Word} {s : State} (h : opcOf w = 7) :
    engineRun w s = execKeyclr (rsvOf w) (offOf w) (lenOf w) s := by simp only [engineRun, decode, decodeCe, h]; rfl

end Sys2Proof.Machine
end

