-- ==== Sys2Proof/Laws/Codec.lean ====
section
/-! SUPPORT. The serial codec, said once: what escaping does to a byte and to a length, and what one byte does to the
decoder, by the four kinds of byte of R239 to R242. -/

namespace Sys2Proof.Machine

/-! ### The encoder -/

/-- A byte of ESCSET becomes two bytes, any other stays (R232). -/
theorem escOne_eq (x : Byte) :
    escOne x = if x = 0x7E ∨ x = 0x7D ∨ x = 0x11 ∨ x = 0x13 then [0x7D, x ^^^ 0x20] else [x] := by
  have h : escSet.contains x = true ↔ (x = 0x7E ∨ x = 0x7D ∨ x = 0x11 ∨ x = 0x13) := by simp [escSet]
  unfold escOne
  by_cases hx : escSet.contains x = true
  · rw [if_pos hx, if_pos (h.1 hx)]; rfl
  · rw [if_neg hx, if_neg (fun g => hx (h.2 g))]

/-- Escaping adds one byte for each byte of ESCSET (R232). -/
theorem escAll_length (s : List Byte) : (escAll s).length = s.length + s.countP (fun x => escSet.contains x) := by
  induction s with
  | nil => rfl
  | cons a s ih =>
    simp only [escAll, List.flatMap_cons, List.length_append, List.countP_cons, List.length_cons]
    rw [show (List.flatMap escOne s).length = _ from ih]
    simp only [escOne]
    split <;> simp_all <;> omega

/-- The length field of a frame of at most 255 bytes: a zero byte and the length (R234, R237). -/
theorem be16_small (n : Nat) (h : n ≤ 255) : be16 (BitVec.ofNat 16 n) = [0x00, BitVec.ofNat 8 n] := by
  simp only [be16, List.cons.injEq, and_true]
  constructor
  · apply BitVec.eq_of_toNat_eq; simp; omega
  · apply BitVec.eq_of_toNat_eq; simp

/-- An encoded frame fits EBUF (R237). -/
theorem encodeFrame_length_le (d : List Byte) (h : d.length ≤ 255) : (encodeFrame d).length ≤ 2 * d.length + 6 := by
  simp only [encodeFrame, List.length_cons, escAll_length, frameBody]
  rw [be16_small _ h]
  simp only [List.cons_append, List.nil_append, List.countP_cons, List.countP_append, List.countP_nil]
  have hc : d.countP (fun x => escSet.contains x) ≤ d.length := List.countP_le_length
  have h0 : escSet.contains (0x00 : Byte) = false := by decide
  simp only [h0]
  generalize List.countP _ d = c at *
  split <;> split <;> simp <;> omega

/-! ### The decoder -/

/-- Every byte in every state is of one of the four kinds of R239 to R242. -/
theorem Decoder.byte_cases (d : Decoder) (b : Byte) :
    b = 0x7E ∨ (b ≠ 0x7E ∧ d.phase = .hunt) ∨ (b = 0x7D ∧ d.phase ≠ .hunt ∧ d.esc = false) ∨ d.takesByte b := by
  unfold Decoder.takesByte
  by_cases h1 : b = 0x7E
  · exact .inl h1
  by_cases h2 : d.phase = .hunt
  · exact .inr (.inl ⟨h1, h2⟩)
  by_cases h3 : b = 0x7D <;> cases h4 : d.esc <;> simp_all

/-- A delimiter (R239). -/
theorem decoderStep_delimiter (s : State) : decoderStep 0x7E s = decodeDelimiter s := by
  simp only [decoderStep]; rw [if_pos (show (0x7E : Byte) = delimiter from rfl)]

/-- A byte in HUNT (R240). -/
theorem decoderStep_hunt {b : Byte} {s : State} (h1 : b ≠ 0x7E) (h2 : s.scu.dec.phase = .hunt) :
    decoderStep b s = s := by
  simp only [decoderStep]
  rw [if_neg (show b ≠ delimiter from h1), if_pos h2]

/-- An escape (R241). -/
theorem decoderStep_escape {s : State} (h1 : s.scu.dec.phase ≠ .hunt) (h2 : s.scu.dec.esc = false) :
    decoderStep 0x7D s = s.setDec { s.scu.dec with esc := true } := by
  simp only [decoderStep]
  rw [if_neg (by decide), if_neg h1, if_pos ⟨rfl, h2⟩]

/-- A byte that reaches the phase rules (R242). -/
theorem decoderStep_takes {b : Byte} {s : State} (h : s.scu.dec.takesByte b) :
    decoderStep b s = decodeByPhase (s.scu.dec.valueOf b) (s.setDec { s.scu.dec with esc := false }) := by
  obtain ⟨h1, h2, h3⟩ := h
  simp only [decoderStep]
  rw [if_neg (show b ≠ delimiter from h1), if_neg h2, if_neg]
  · rfl
  · rintro ⟨g1, g2⟩
    rcases h3 with h3 | h3
    · exact h3 g1
    · rw [g2] at h3; cases h3

/-- A checksum byte verifies exactly when it is 255 minus the sum (R246). -/
theorem checksum_byte_iff (v sum : Byte) : v = 0xFF - sum ↔ v.toNat = 255 - sum.toNat := by
  rw [← BitVec.toNat_inj]; simp; omega

end Sys2Proof.Machine
end

