-- ==== Sys2Proof/Laws/Frame.lean ====
section
/-! SUPPORT. LinkPackets in FBUF, said once: the header fields as they are read, the payload transform byte by byte, the
MIC as a number, and what each CE command's effect can change. -/

namespace Sys2Proof.Machine

/-! ### The header (R201) -/

/-- The PAN of a header read from FBUF offset 0 (R201). -/
theorem framePan_memRead (s : State) {n : Nat} (hn : 2 ≤ n) : framePan (s.memRead .fbuf 0 n) = s.fbufPan := by
  rw [framePan, State.take_memRead _ _ _ hn]
  simp only [State.fbufPan, State.memRead, List.range, List.range.loop, List.map, numBe, List.foldl, Nat.zero_add]
  apply BitVec.eq_of_toNat_eq
  simp only [BitVec.toNat_ofNat, BitVec.toNat_or, BitVec.toNat_shiftLeft, BitVec.toNat_setWidth]
  have h0 := (s.readByte .fbuf 0).isLt
  have h1 := (s.readByte .fbuf 1).isLt
  rw [Nat.shiftLeft_eq, Nat.mod_eq_of_lt (a := (s.readByte .fbuf 0).toNat) (by omega),
    Nat.mod_eq_of_lt (a := (s.readByte .fbuf 1).toNat) (by omega),
    Nat.mod_eq_of_lt (a := (s.readByte .fbuf 0).toNat * 2 ^ 8) (by omega),
    show (s.readByte .fbuf 0).toNat * 2 ^ 8 = 2 ^ 8 * (s.readByte .fbuf 0).toNat by ring,
    ← Nat.two_pow_add_eq_or_of_lt (by omega)]
  omega

/-- The destination of a header read from FBUF offset 0 (R201). -/
theorem frameDst_memRead (s : State) {n : Nat} (hn : 3 ≤ n) :
    frameDst (s.memRead .fbuf 0 n) = s.readByte .fbuf 2 := by
  simp [frameDst, State.byteAt_memRead]; omega

/-- The source of a header read from FBUF offset 0 (R201). -/
theorem frameSrc_memRead (s : State) {n : Nat} (hn : 4 ≤ n) :
    frameSrc (s.memRead .fbuf 0 n) = s.readByte .fbuf 3 := by
  simp [frameSrc, State.byteAt_memRead]; omega

/-- The payload transform, byte by byte, through the keystream of the header's triple (R204, R205). -/
theorem State.readByte_cryptPayload_key (s : State) (n : Nat) (c : Buf) (a : Nat) :
    (s.cryptPayload n).readByte c a =
      if c = .fbuf ∧ 5 ≤ a ∧ a < 5 + n ∧ a < 256 then s.readByte .fbuf a ^^^ s.payloadKeyByte (a - 5)
      else s.readByte c a := by
  rw [State.readByte_cryptPayload, framePan_memRead _ (by simp [headerLen]),
    frameDst_memRead _ (by simp [headerLen]), frameSrc_memRead _ (by simp [headerLen])]
  rfl

/-- The payload keystream depends only on the header, the parameters and the key. -/
theorem State.payloadKeyByte_congr {s t : State} (h : ∀ a, a < 4 → t.readByte .fbuf a = s.readByte .fbuf a)
    (hc : t.cfg = s.cfg) (hk : t.ce.keyBytes = s.ce.keyBytes) (i : Nat) :
    t.payloadKeyByte i = s.payloadKeyByte i := by
  simp [State.payloadKeyByte, State.fbufPan, h, hc, hk]

/-! ### The MIC (R181) -/

/-- The wire bytes of the MIC's number are the MIC (R181). -/
theorem be32_micNum {m : List Byte} (h : m.length = 4) : be32 (micNum m) = m := by
  match m, h with
  | [a, b, c, d], _ =>
    simp only [micNum, numBe, be32, List.foldl, List.cons.injEq, and_true]
    refine ⟨?_, ?_, ?_, ?_⟩ <;> apply BitVec.eq_of_toNat_eq <;> simp <;> omega

/-! ### What an effect can change -/

/-- A write to FBUF changes FBUF alone (R16). -/
theorem State.memWrite_fbuf_shape (s : State) (off : Nat) (bs : List Byte) :
    ∃ m, s.memWrite .fbuf off bs = { s with ce := { s.ce with fbuf := m } } := ⟨_, rfl⟩

/-- SEAL's effect changes FBUF, TAG, MIC and RLEN, and ends OK (R204). -/
theorem sealEffect_shape (len : Byte) (s : State) :
    ∃ (m : Memory) (tag : Quad) (mic : Word) (rlen : Byte), sealEffect len s =
      .next { s with ce := { s.ce with
                latch := none, done := true, result := .ok, tag := tag, mic := mic, rlen := rlen, fbuf := m } } := by
  simp only [sealEffect]
  generalize micFull s.cfg s.ce.keyBytes _ = T
  obtain ⟨g, hg⟩ := (s.cryptPayload (len.toNat - headerLen)).memWrite_fbuf_shape len.toNat (mic4 s.cfg T)
  obtain ⟨f, hf⟩ : ∃ m, s.cryptPayload (len.toNat - headerLen) = { s with ce := { s.ce with fbuf := m } } :=
    State.memWrite_fbuf_shape ..
  rw [hg, hf]
  exact ⟨_, _, _, _, rfl⟩

/-- OPEN's effect fails, or changes FBUF, TAG, MIC and RLEN and ends OK (R205). -/
theorem openEffect_shape (len : Byte) (s : State) :
    openEffect len s = openFail s ∨
    ∃ (m : Memory) (tag : Quad) (mic : Word) (rlen : Byte), openEffect len s =
      .next { s with ce := { s.ce with
                latch := none, done := true, result := .ok, tag := tag, mic := mic, rlen := rlen, fbuf := m } } := by
  rcases openEffect_cases len s with ⟨_, h⟩ | ⟨_, h⟩
  · exact .inl h
  · right
    obtain ⟨f, hf⟩ : ∃ m, s.cryptPayload (len.toNat - headerLen - micLen) = { s with ce := { s.ce with fbuf := m } } :=
      State.memWrite_fbuf_shape ..
    rw [h, hf]
    exact ⟨_, _, _, _, rfl⟩

end Sys2Proof.Machine
end

