-- ==== Sys2Proof/Laws/PerInstr.lean ====
section
/-! SUPPORT. A per-instruction family: the operation code of every command stands in bits 7:0 of its encoded word
(R111, R112, R114, R115), whatever its operands. -/

namespace Sys2Proof.Laws.EncodedOpcode

/-- Bits 7:0 of the command's word are its OPC (R114, R115). -/
def Statement (i : Instr) : Prop := opcOf (encode i) = i.opcode

theorem aesenc (rsv off len : Byte) : Statement (.aesenc rsv off len) :=
  Machine.opcOf_ceWord rsv off len _

theorem ctrxor (rsv off len : Byte) : Statement (.ctrxor rsv off len) :=
  Machine.opcOf_ceWord rsv off len _

theorem cmac (rsv off len : Byte) : Statement (.cmac rsv off len) :=
  Machine.opcOf_ceWord rsv off len _

theorem micgen (rsv off len : Byte) : Statement (.micgen rsv off len) :=
  Machine.opcOf_ceWord rsv off len _

theorem sealFrame (rsv off len : Byte) : Statement (.sealFrame rsv off len) :=
  Machine.opcOf_ceWord rsv off len _

theorem openFrame (rsv off len : Byte) : Statement (.openFrame rsv off len) :=
  Machine.opcOf_ceWord rsv off len _

theorem keyclr (rsv off len : Byte) : Statement (.keyclr rsv off len) :=
  Machine.opcOf_ceWord rsv off len _

theorem senc (rsv : BitVec 16) (arg : Byte) : Statement (.senc rsv arg) :=
  Machine.opcOf_scWord rsv arg _

theorem srxb (rsv : BitVec 16) (arg : Byte) : Statement (.srxb rsv arg) :=
  Machine.opcOf_scWord rsv arg _

theorem srxack (rsv : BitVec 16) (arg : Byte) : Statement (.srxack rsv arg) :=
  Machine.opcOf_scWord rsv arg _

theorem srxrst (rsv : BitVec 16) (arg : Byte) : Statement (.srxrst rsv arg) :=
  Machine.opcOf_scWord rsv arg _

end Sys2Proof.Laws.EncodedOpcode
end

