-- ==== Sys2Proof/Tests/Slice0.lean ====
section
/-! SUPPORT. The model's own tests: well-formedness, decoding, one step per command on vectors of 95_test_vectors.md
(V and G rows) or on examples of the rules, and for every statement with hypotheses a witness that meets them. Expected
values come from the spec, none from the model. -/

namespace Sys2Proof.Tests

open Sys2Proof.Machine

/-! ### Small states -/

/-- The next state of an outcome. -/
def after (o : Host.Outcome State Fault Refusal) : State :=
  match o with
  | .next t => t
  | _ => State.reset

/-- The key K of 95_test_vectors.md. -/
def keyK : Quad := ⟨0x16157E2B, 0xA6D2AE28, 0x8815F7AB, 0x3C4FCF09⟩

/-- The reset state with a full key and these bytes at the start of FBUF. -/
def keyed (key : Quad) (bytes : List Byte) : State :=
  { State.reset with ce := { Ce.reset with key := key, kw := 0xF, fbuf := Memory.writeBytes 256 0 bytes [] } }

/-- The reset state with these bytes at the start of STBUF. -/
def staged (bytes : List Byte) : State :=
  { State.reset with scu := { Scu.reset with stbuf := Memory.writeBytes 256 0 bytes [] } }

/-- The reset state with this decoder and these bytes at the start of ABUF. -/
def decoding (d : Decoder) (bytes : List Byte) : State :=
  { State.reset with scu := { Scu.reset with dec := d, abuf := Memory.writeBytes 256 0 bytes [] } }

/-- A command latched and pending (BUSY = 1). -/
def busyState : State := { State.reset with ce := { Ce.reset with latch := some 0x00001003 } }

/-- The reset state with one thing asked of the block. -/
def asking (op : HostOp) : State := { State.reset with hostQueue := [op] }

/-- The header H and payload P of 95_test_vectors.md. -/
def frameF : List Byte :=
  [0x12, 0x34, 0x02, 0x01, 0x40, 0x48, 0x65, 0x6C, 0x6C, 0x6F, 0x2C, 0x20, 0x4D, 0x51, 0x54, 0x54, 0x2D, 0x53, 0x4E,
   0x20, 0x4C, 0x6F, 0x52, 0x61, 0x21]

/-- The sealed frame S of 95_test_vectors.md. -/
def frameS : List Byte :=
  [0x12, 0x34, 0x02, 0x01, 0x40, 0xE6, 0x11, 0x22, 0x63, 0x0E, 0x9E, 0xE8, 0x01, 0xB3, 0x31, 0x11, 0xFB, 0xC6, 0x9A,
   0x24, 0x17, 0xB4, 0x1B, 0xF4, 0xFD, 0x06, 0x58, 0xF8, 0xFF]

/-- The empty-payload frame of V52, sealed. -/
def frameV52 : List Byte := [0x12, 0x34, 0x02, 0x01, 0x40, 0xCC, 0x6B, 0xB2, 0x24]

/-! ### Well-formedness: an ill-formed term for each check, refused -/

theorem test_wf_aesenc_rsv : (Instr.aesenc 1 0 0).wellFormed = false := by decide
theorem test_wf_aesenc_off : (Instr.aesenc 0 1 0).wellFormed = false := by decide
theorem test_wf_aesenc_len : (Instr.aesenc 0 0 1).wellFormed = false := by decide
theorem test_wf_keyclr_len : (Instr.keyclr 0 0 1).wellFormed = false := by decide
theorem test_wf_ctrxor_rsv : (Instr.ctrxor 1 0 0).wellFormed = false := by decide
theorem test_wf_cmac_rsv : (Instr.cmac 0x80 0 0).wellFormed = false := by decide
theorem test_wf_micgen_off : (Instr.micgen 0 1 25).wellFormed = false := by decide
theorem test_wf_seal_rsv : (Instr.sealFrame 1 0 25).wellFormed = false := by decide
theorem test_wf_open_off : (Instr.openFrame 0 1 29).wellFormed = false := by decide
theorem test_wf_senc_rsv : (Instr.senc 1 2).wellFormed = false := by decide
theorem test_wf_srxb_rsv : (Instr.srxb 0x0100 0x7E).wellFormed = false := by decide
theorem test_wf_srxack_arg : (Instr.srxack 0 1).wellFormed = false := by decide
theorem test_wf_srxack_rsv : (Instr.srxack 1 0).wellFormed = false := by decide
theorem test_wf_srxrst_arg : (Instr.srxrst 0 1).wellFormed = false := by decide
theorem test_wf_accepts : ([Asm.aesenc, Asm.ctrxor 255 255, Asm.cmac 7 0, Asm.micgen 0, Asm.sealFrame 25,
    Asm.openFrame 3, Asm.keyclr, Asm.senc 255, Asm.srxb 0x7E, Asm.srxack, Asm.srxrst].all Instr.wellFormed) = true := by
  decide

/-! ### Decoding: a word of each command, written bit by bit from the patterns of R111 and R112 -/

theorem test_decode_aesenc : decode .ce 0b00000000000000000000000000000001 = .ok (.aesenc 0 0 0) := by rfl
theorem test_decode_ctrxor : decode .ce 0b00000000000001010001010000000010 = .ok (.ctrxor 0 5 20) := by rfl
theorem test_decode_cmac : decode .ce 0b00000000011001000001000000000011 = .ok (.cmac 0 100 16) := by rfl
theorem test_decode_micgen : decode .ce 0b00000000000000000001100100000100 = .ok (.micgen 0 0 25) := by rfl
theorem test_decode_seal : decode .ce 0b00000000000000000001100100000101 = .ok (.sealFrame 0 0 25) := by rfl
theorem test_decode_open : decode .ce 0b00000000000000000001110100000110 = .ok (.openFrame 0 0 29) := by rfl
theorem test_decode_keyclr : decode .ce 0b00000000000000000000000000000111 = .ok (.keyclr 0 0 0) := by rfl
theorem test_decode_senc : decode .sc 0b00000000000000000000001000000001 = .ok (.senc 0 2) := by rfl
theorem test_decode_srxb : decode .sc 0b00000000000000000111111000000010 = .ok (.srxb 0 0x7E) := by rfl
theorem test_decode_srxack : decode .sc 0b00000000000000000000000000000011 = .ok (.srxack 0 0) := by rfl
theorem test_decode_srxrst : decode .sc 0b00000000000000000000000000000100 = .ok (.srxrst 0 0) := by rfl
/-- Every field in its own place: four different bytes. -/
theorem test_decode_fields : decode .ce 0x04030205 = .ok (.sealFrame 4 3 2) := by rfl
theorem test_decode_fields_sc : decode .sc 0x04030201 = .ok (.senc 0x0403 2) := by rfl
theorem test_decode_illegal_low : decode .ce 0x00000000 = .error (.illegalCmd 0) := by rfl
theorem test_decode_illegal_high : decode .ce 0x00000008 = .error (.illegalCmd 8) := by rfl
theorem test_decode_illegal_ser : decode .sc 0x00000005 = .error (.illegalSer 5) := by rfl

/-- The table's numbering: words of the CE rows, and of the SC rows. -/
theorem test_table_ce : [0x00000001, 0x00051402, 0x00641003, 0x00001904, 0x00001905, 0x00001D06, 0x00000007].map
    (decodeTableWord 32) = [some Asm.aesenc, some (Asm.ctrxor 5 20), some (Asm.cmac 100 16), some (Asm.micgen 25),
      some (Asm.sealFrame 25), some (Asm.openFrame 29), some Asm.keyclr] := by decide
theorem test_table_sc : [0x00000201, 0x00007E02, 0x00000003, 0x00000004].map (decodeTableWord 32) =
    [some (Asm.senc 2), some (Asm.srxb 0x7E), some Asm.srxack, some Asm.srxrst] := by decide

/-! ### One step per command -/

/-- The very next step after placing a CE word runs its engine step. -/
theorem test_place_keyclr : step ((keyed keyK []).withFetchWord 32 0x00000007) =
    exec Asm.keyclr ((keyed keyK []).launch 0x00000007 0) := by rfl

/-- The very next step after placing an SC word runs it inside the write. -/
theorem test_place_srxb : step (State.reset.withFetchWord 32 0x00007E02) = exec (Asm.srxb 0x7E) State.reset := by rfl

/-- V1 (FIPS-197 C.1). -/
theorem test_aesenc_fips197 :
    (fun s : State => (after (exec Asm.aesenc s)).ce.tag)
      { State.reset with ce := { Ce.reset with
          key := ⟨0x03020100, 0x07060504, 0x0B0A0908, 0x0F0E0D0C⟩, kw := 0xF
          blk := ⟨0x33221100, 0x77665544, 0xBBAA9988, 0xFFEEDDCC⟩ } } =
    ⟨0xD8E0C469, 0x30047B6A, 0x80B7CDD8, 0x5AC5B470⟩ := by decide +kernel

/-- V6: no key. -/
theorem test_aesenc_noKey : loadReg (after (exec Asm.aesenc State.reset)) .status = 0x202 := by decide

/-- V20. -/
theorem test_ctrxor_block :
    (fun s : State => (after (exec (Asm.ctrxor 0 16) s)).memRead .fbuf 0 16)
      { keyed keyK (zeros 16) with ce := { (keyed keyK (zeros 16)).ce with arg0 := 0x01021234 } } =
    [0xAE, 0x74, 0x4E, 0x0F, 0x61, 0xB2, 0xC8, 0x4C, 0xE2, 0x65, 0x45, 0xD6, 0x95, 0xD4, 0x04, 0x5B] := by
  decide +kernel

/-- V28: the length check comes before the key check. -/
theorem test_ctrxor_length : loadReg (after (exec (Asm.ctrxor 200 100) State.reset)) .status = 0x302 := by decide

/-- V31 (RFC 4493 example 2). -/
theorem test_cmac_rfc4493 :
    (after (exec (Asm.cmac 0 16) (keyed keyK
      [0x6B, 0xC1, 0xBE, 0xE2, 0x2E, 0x40, 0x9F, 0x96, 0xE9, 0x3D, 0x7E, 0x11, 0x73, 0x93, 0x17, 0x2A]))).ce.tag.w0 =
    0xB4160A07 := by decide +kernel

/-- V37: RSV ≠ 0. -/
theorem test_cmac_rsv : loadReg (after (exec (.cmac 1 0 0) (keyed keyK []))) .status = 0x406 := by decide

/-- V40. -/
theorem test_micgen_frame :
    (fun t : State => (t.ce.mic, t.ce.tag)) (after (exec (Asm.micgen 25) (keyed keyK frameF))) =
    (0x50B6DC78, ⟨0x1931E1BB, 0x4A0FAC07, 0xCC941FCB, 0x78DCB650⟩) := by decide +kernel

/-- V45: one byte more than MAXPL = 246. -/
theorem test_micgen_maxpl : loadReg (after (exec (Asm.micgen 252) (keyed keyK []))) .status = 0x306 := by decide

/-- V50. -/
theorem test_seal_frame :
    (fun t : State => (t.memRead .fbuf 0 29, t.ce.mic, t.ce.rlen)) (after (exec (Asm.sealFrame 25) (keyed keyK frameF))) =
    (frameS, 0x0658F8FF, 29) := by decide +kernel

/-- V60: LEN below the header. -/
theorem test_seal_short : loadReg (after (exec (Asm.sealFrame 4) (keyed keyK []))) .status = 0x306 := by decide

/-- V51. -/
theorem test_open_frame :
    (fun t : State => (t.memRead .fbuf 0 25, t.ce.mic, t.ce.rlen)) (after (exec (Asm.openFrame 29) (keyed keyK frameS))) =
    (frameF, 0x0658F8FF, 20) := by decide +kernel

/-- V57 on the frame of V52: a flipped payloadType bit fails the MIC check. -/
theorem test_open_tampered :
    (fun t : State => (loadReg t .status, t.ce.mic, t.ce.rlen))
      (after (exec (Asm.openFrame 9) (keyed keyK [0x12, 0x34, 0x02, 0x01, 0x41, 0xCC, 0x6B, 0xB2, 0x24]))) =
    (0x106, 0, 0) := by decide +kernel

/-- V10. -/
theorem test_keyclr : loadReg (after (exec Asm.keyclr (keyed keyK []))) .status = 0x002 := by decide

/-- V13: KEYV stays 1. -/
theorem test_keyclr_len : loadReg (after (exec (.keyclr 0 0 1) (keyed keyK []))) .status = 0x406 := by decide

/-- V81. -/
theorem test_senc_hi :
    (fun t : State => (t.memRead .ebuf 0 6, t.scu.elen)) (after (exec (Asm.senc 2) (staged [0x48, 0x69]))) =
    ([0x7E, 0x00, 0x02, 0x48, 0x69, 0x4E], 6) := by decide

/-- V83: a checksum that is a delimiter is escaped. -/
theorem test_senc_escapedChecksum :
    (fun t : State => (t.memRead .ebuf 0 6, t.scu.elen)) (after (exec (Asm.senc 1) (staged [0x81]))) =
    ([0x7E, 0x00, 0x01, 0x81, 0x7D, 0x5E], 6) := by decide

/-- V90, last byte: the frame "Hi" is delivered. -/
theorem test_srxb_delivers :
    (fun t : State => (loadReg t .serStatus, loadReg t .serRxlen, t.memRead .srbuf 0 2, loadReg t .serDbg))
      (after (exec (Asm.srxb 0x4E) (decoding ⟨.cksum, false, 2, 2, 0xB1⟩ [0x48, 0x69]))) =
    (0x00000001, 2, [0x48, 0x69], 0x00020200) := by decide

/-- V99, the second 7D: after an escape it stands for 5D. -/
theorem test_srxb_escaped :
    (fun t : State => (loadReg t .serDbg, t.readByte .abuf 0))
      (after (exec (Asm.srxb 0x7D) (decoding ⟨.data, true, 0, 1, 0⟩ []))) = (0x00010104, 0x5D) := by decide

/-- V110. -/
theorem test_srxack :
    (fun t : State => (loadReg t .serStatus, loadReg t .serRxlen))
      (after (exec Asm.srxack { State.reset with scu := { Scu.reset with rxrdy := true, rxlen := 2 } })) = (0, 2) := by
  decide

/-- V114: an ARG that is not 0. -/
theorem test_srxack_arg :
    loadReg (after (exec (.srxack 0 1) { State.reset with scu := { Scu.reset with rxrdy := true } })) .serStatus =
    0x00000021 := by decide

/-- V112; and R249's pseudocode after V90 (log entry 20): in HUNT, SRXRST clears the pos and dlen that R246 keeps. -/
theorem test_srxrst :
    [Decoder.mk .lenLo false 0 0 0, Decoder.mk .hunt false 2 2 0xB1].map (fun d =>
      (fun t : State => (loadReg t .serDbg, loadReg t .serStatus)) (after (exec Asm.srxrst (decoding d [])))) =
    [(0, 0), (0, 0)] := by decide

/-- R249, R119: RSV ≠ 0 leaves the decoder alone. -/
theorem test_srxrst_rsv :
    (fun t : State => (loadReg t .serDbg, loadReg t .serStatus))
      (after (exec (.srxrst 1 0) (decoding ⟨.lenLo, false, 0, 0, 0⟩ []))) = (2, 0x20) := by decide

/-! ### Bus and reset -/

/-- V125. -/
theorem test_status_w1c :
    loadReg (after (hostWrite .w32 0x008 0x1A
      { keyed keyK [] with ce := { (keyed keyK []).ce with done := true, cmdovr := true, werr := true } })) .status =
    0x00000004 := by decide

/-- R84: lane i of a 32-bit write is byte i. -/
theorem test_word_lanes :
    (after (hostWrite .w32 0x204 0x01023412 State.reset)).memRead .stbuf 4 4 = [0x12, 0x34, 0x02, 0x01] := by decide

/-- V120, one register of each kind. -/
theorem test_reset_reads :
    [0x000, 0x004, 0x008, 0x010, 0x020, 0x060, 0x064].map (fun a => (after (hostRead .w32 a State.reset)).hostData) =
    [some 0x4C435342, some 0, some 0, some 0xF6, some 0, some 0, some 0] := by decide

/-! ### Witnesses: for every statement with hypotheses, states and operands that meet them, each clause at a boundary -/

/-- OPC unassigned (R116), below and above the assigned ones, with an idle engine. -/
theorem witness_UnassignedOpcodeEndsIllegalCmd :
    (0x00000000 : Word).toNat % 256 = 0 ∧ 8 ≤ (0x00000008 : Word).toNat % 256 ∧
    8 ≤ (0xFFFFFFFF : Word).toNat % 256 ∧ State.reset.ce.latch = none := by decide

/-- The field tests of R117 and R118 on a CE word. -/
abbrev fieldNonzero (w : Word) : Prop :=
  rsvOf w ≠ 0 ∨ ((opcOf w = 1 ∨ opcOf w = 7) ∧ (lenOf w ≠ 0 ∨ offOf w ≠ 0)) ∨
    ((opcOf w = 4 ∨ opcOf w = 5 ∨ opcOf w = 6) ∧ offOf w ≠ 0)

theorem witness_NonzeroReservedFieldEndsParamInvalid :
    (1 ≤ (opcOf 0x01000001).toNat ∧ (opcOf 0x01000001).toNat ≤ 7 ∧ fieldNonzero 0x01000001) ∧
    (1 ≤ (opcOf 0x80000002).toNat ∧ (opcOf 0x80000002).toNat ≤ 7 ∧ fieldNonzero 0x80000002) ∧
    (1 ≤ (opcOf 0x01000007).toNat ∧ (opcOf 0x01000007).toNat ≤ 7 ∧ fieldNonzero 0x01000007) ∧
    (1 ≤ (opcOf 0x00000101).toNat ∧ (opcOf 0x00000101).toNat ≤ 7 ∧ fieldNonzero 0x00000101) ∧
    (1 ≤ (opcOf 0x00010001).toNat ∧ (opcOf 0x00010001).toNat ≤ 7 ∧ fieldNonzero 0x00010001) ∧
    (1 ≤ (opcOf 0x0000FF07).toNat ∧ (opcOf 0x0000FF07).toNat ≤ 7 ∧ fieldNonzero 0x0000FF07) ∧
    (1 ≤ (opcOf 0x00010504).toNat ∧ (opcOf 0x00010504).toNat ≤ 7 ∧ fieldNonzero 0x00010504) ∧
    (1 ≤ (opcOf 0x00011905).toNat ∧ (opcOf 0x00011905).toNat ≤ 7 ∧ fieldNonzero 0x00011905) ∧
    (1 ≤ (opcOf 0x00FF1D06).toNat ∧ (opcOf 0x00FF1D06).toNat ≤ 7 ∧ fieldNonzero 0x00FF1D06) :=
  ⟨by decide, by decide, by decide, by decide, by decide, by decide, by decide, by decide, by decide⟩

theorem witness_IllegalSerWordOnlySetsCmderr :
    (opcOf 0x00000000).toNat = 0 ∧ 5 ≤ (opcOf 0x00000005).toNat ∧ serRsvOf 0x00010201 ≠ 0 ∧
    (opcOf 0x00000103 = 3 ∧ argOf 0x00000103 ≠ 0) ∧ (opcOf 0x0000FF04 = 4 ∧ argOf 0x0000FF04 ≠ 0) := by decide

/-- The length tests of R272 on a CE word. -/
abbrev lengthBad (w : Word) (s : State) : Prop :=
  ((opcOf w = 2 ∨ opcOf w = 3) ∧ (offOf w).toNat + (lenOf w).toNat > 256) ∨
    ((opcOf w = 4 ∨ opcOf w = 5) ∧ ((lenOf w).toNat < 5 ∨ (lenOf w).toNat - 5 > s.ce.maxpl.toNat)) ∨
    (opcOf w = 6 ∧ ((lenOf w).toNat < 9 ∨ (lenOf w).toNat - 9 > s.ce.maxpl.toNat))

/-- OPC names a command (R114). -/
abbrev assigned (w : Word) : Prop := ¬ ((opcOf w).toNat = 0 ∨ 8 ≤ (opcOf w).toNat)

/-- A state whose frame of V52 verifies. -/
theorem micMatches_v52 : (keyed keyK frameV52).micMatches 9 := by unfold State.micMatches; decide +kernel

/-- A state whose frame does not. -/
theorem not_micMatches_zeroMic : ¬ (keyed keyK (zeros 9)).micMatches 9 := by unfold State.micMatches; decide +kernel

/-- The first two checks of R271: an unassigned OPC, and a nonzero field (of `OPEN 3`, whose length is bad too). -/
theorem witness_FirstFailingCheckGivesResult_fields :
    (¬ assigned 0x00000000 ∧ ¬ assigned 0x00000008) ∧
    (assigned 0x01000001 ∧ fieldNonzero 0x01000001 ∧ assigned 0x00010306 ∧ fieldNonzero 0x00010306) := by decide

/-- The length check, one past each bound: 255 + 2 bytes, 4 bytes, MAXPL + 1 payload bytes, 8 received bytes. -/
theorem witness_FirstFailingCheckGivesResult_length :
    (assigned 0x00FF0202 ∧ ¬ fieldNonzero 0x00FF0202 ∧ lengthBad 0x00FF0202 State.reset) ∧
    (assigned 0x00000404 ∧ ¬ fieldNonzero 0x00000404 ∧ lengthBad 0x00000404 State.reset) ∧
    (assigned 0x0000FC05 ∧ ¬ fieldNonzero 0x0000FC05 ∧ lengthBad 0x0000FC05 State.reset) ∧
    (assigned 0x00000806 ∧ ¬ fieldNonzero 0x00000806 ∧ lengthBad 0x00000806 State.reset) :=
  ⟨by decide, by decide, by decide, by decide⟩

/-- The key check, at each bound the length check lets pass. -/
theorem witness_FirstFailingCheckGivesResult_key :
    State.reset.ce.keyv = false ∧
    (assigned 0x00F01002 ∧ ¬ fieldNonzero 0x00F01002 ∧ ¬ lengthBad 0x00F01002 State.reset ∧ opcOf 0x00F01002 ≠ 7) ∧
    (assigned 0x0000FB05 ∧ ¬ fieldNonzero 0x0000FB05 ∧ ¬ lengthBad 0x0000FB05 State.reset ∧ opcOf 0x0000FB05 ≠ 7) ∧
    (assigned 0x00000906 ∧ ¬ fieldNonzero 0x00000906 ∧ ¬ lengthBad 0x00000906 State.reset ∧ opcOf 0x00000906 ≠ 7) :=
  ⟨rfl, by decide, by decide, by decide⟩

/-- The MIC check, failed and passed. -/
theorem witness_FirstFailingCheckGivesResult_mic :
    (opcOf 0x00000906 = 6 ∧ (lenOf 0x00000906).toNat = 9 ∧ (keyed keyK (zeros 9)).ce.keyv = true ∧
      ¬ lengthBad 0x00000906 (keyed keyK (zeros 9)) ∧ ¬ lengthBad 0x00000906 (keyed keyK frameV52)) ∧
    ¬ (keyed keyK (zeros 9)).micMatches 9 ∧ (keyed keyK frameV52).micMatches 9 :=
  ⟨by decide, not_micMatches_zeroMic, micMatches_v52⟩

/-- An engine step that ends in an error other than MIC_FAIL, and one that ends in MIC_FAIL. -/
theorem witness_ErrorResultHasNoOtherEffect :
    (after (engineRun 0x00000404 State.reset)).ce.result = .lengthError ∧
    (after (engineRun 0x00000906 (keyed keyK (zeros 9)))).ce.result = .micFail := ⟨by decide, by decide +kernel⟩

theorem witness_EngineStepEndsWithCompletion :
    (0x00000001 : Word).toNat % 256 ≠ 7 ∧ (0x00000008 : Word).toNat % 256 ≠ 7 := by decide

theorem witness_AesencWritesCipherOfBlk : (keyed keyK []).ce.keyv = true := by decide

/-- CTRXOR and CMAC, at the largest range end and with an empty range. -/
theorem witness_CtrxorXorsKeystreamIntoRange :
    (240 : Byte).toNat + (16 : Byte).toNat ≤ 256 ∧ (255 : Byte).toNat + (0 : Byte).toNat ≤ 256 ∧
    (keyed keyK frameF).ce.keyv = true := by decide

theorem witness_CtrxorTwiceRestoresFbuf :
    (1 : Byte).toNat + (255 : Byte).toNat ≤ 256 ∧ (keyed keyK frameF).ce.keyv = true := by decide

theorem witness_CmacWritesTagOfRange :
    (255 : Byte).toNat + (1 : Byte).toNat ≤ 256 ∧ (keyed keyK frameF).ce.keyv = true := by decide

/-- MICGEN and SEAL, at the shortest frame and at the longest MAXPL admits. -/
theorem witness_MicgenWritesTagAndMic :
    (5 ≤ (5 : Byte).toNat ∧ (5 : Byte).toNat - 5 ≤ (keyed keyK frameF).ce.maxpl.toNat) ∧
    (5 ≤ (251 : Byte).toNat ∧ (251 : Byte).toNat - 5 ≤ (keyed keyK frameF).ce.maxpl.toNat) ∧
    (keyed keyK frameF).ce.keyv = true := by decide

theorem witness_SealEncryptsThenAppendsMic :
    (5 ≤ (5 : Byte).toNat ∧ (5 : Byte).toNat - 5 ≤ (keyed keyK frameF).ce.maxpl.toNat) ∧
    (5 ≤ (251 : Byte).toNat ∧ (251 : Byte).toNat - 5 ≤ (keyed keyK frameF).ce.maxpl.toNat) ∧
    (keyed keyK frameF).ce.maxpl.toNat ≤ 246 ∧ (keyed keyK frameF).ce.keyv = true := by decide

theorem witness_SealThenOpenRestoresFrame :
    5 ≤ (25 : Byte).toNat ∧ (25 : Byte).toNat - 5 ≤ (keyed keyK frameF).ce.maxpl.toNat ∧
    (keyed keyK frameF).ce.maxpl.toNat ≤ 246 ∧ (keyed keyK frameF).ce.keyv = true := by decide

theorem witness_SealTwiceGivesPlaintextMic :
    5 ≤ (251 : Byte).toNat ∧ (251 : Byte).toNat - 5 ≤ (keyed keyK frameF).ce.maxpl.toNat ∧
    (keyed keyK frameF).ce.maxpl.toNat ≤ 246 ∧ (keyed keyK frameF).ce.keyv = true := by decide

theorem witness_OpenVerifiesThenDecrypts :
    9 ≤ (9 : Byte).toNat ∧ (9 : Byte).toNat - 9 ≤ (keyed keyK frameV52).ce.maxpl.toNat ∧
    (keyed keyK frameV52).ce.keyv = true ∧ (keyed keyK frameV52).micMatches (9 : Byte).toNat :=
  ⟨by decide, by decide, by decide, micMatches_v52⟩

theorem witness_OpenMicFailureWritesNoByte :
    9 ≤ (9 : Byte).toNat ∧ (9 : Byte).toNat - 9 ≤ (keyed keyK (zeros 9)).ce.maxpl.toNat ∧
    (keyed keyK (zeros 9)).ce.keyv = true ∧ ¬ (keyed keyK (zeros 9)).micMatches (9 : Byte).toNat :=
  ⟨by decide, by decide, by decide, not_micMatches_zeroMic⟩

theorem witness_OpenAcceptsOnlyMatchingMic :
    ∃ t, exec (.openFrame 0 0 9) (keyed keyK frameV52) = .next t ∧ t.ce.result = .ok := by
  have h1 : lenOnly 0 0 = true := by decide
  have h2 : badFrameLen (headerLen + micLen) 9 (keyed keyK frameV52).ce.maxpl = false := by decide
  have h3 : (!(keyed keyK frameV52).ce.keyv) = false := by decide
  simp only [exec, execOpenFrame, h1, h2, h3, checked_pass]
  rcases openEffect_cases 9 (keyed keyK frameV52) with ⟨h, -⟩ | ⟨-, h⟩
  · exact absurd micMatches_v52 h
  · exact ⟨_, h, rfl⟩

theorem witness_CtrTransformLaws :
    (15 < 16 ∧ byteAt (counterBlock .default 0 0 0 15) 15 = byteAt (counterBlock .default 0 0 0 15) 15) ∧
    (0 < ([0x5A] : List Byte).length ∧ byteAt [0x5A] 0 = byteAt [0x5A, 1] 0) := by decide

theorem witness_MicInputIsB0ThenFrame :
    (5 ≤ ([0x40] : List Byte).length + 4 ∧ ([0x40] : List Byte).length + 4 ≤ 251) ∧
    (5 ≤ (zeros 247).length + 4 ∧ (zeros 247).length + 4 ≤ 251) := by
  simp only [zeros_length]; decide

theorem witness_CipherPermutesBlocks :
    (zeros 16).length = 16 ∧ (0x80 :: zeros 15).length = 16 ∧
    aes128 (zeros 16) (zeros 16) = aes128 (zeros 16) (List.replicate 16 0) := ⟨by decide, by decide, rfl⟩

theorem witness_EncodedFrameLength :
    (zeros 0).length ≤ 255 ∧ (zeros 255).length ≤ 255 ∧ (zeros 17).length = 17 ∧ (zeros 126).length = 126 := by
  simp only [zeros_length]; decide

theorem witness_SrxbDelimiterHuntAndEscape :
    ((0x00 : Byte) ≠ 0x7E ∧ (0x7D : Byte) ≠ 0x7E ∧ State.reset.scu.dec.phase = .hunt) ∧
    ((decoding ⟨.data, false, 0, 1, 0⟩ []).scu.dec.esc = false ∧
      (decoding ⟨.data, false, 0, 1, 0⟩ []).scu.dec.phase ≠ .hunt) := by decide

/-- LEN_HI; LEN_LO with the lengths 256, 0, 1 and 255. -/
theorem witness_SrxbLengthBytes :
    ((Decoder.mk .lenHi false 0 0 0).takesByte 0x01 ∧ (Decoder.mk .lenHi true 0 0 0).takesByte 0x7D) ∧
    ((Decoder.mk .lenLo false 0 0x0100 0).takesByte 0x00 ∧
      255 < ((0x0100 : BitVec 16) ||| ((Decoder.mk .lenLo false 0 0x0100 0).valueOf 0x00).setWidth 16).toNat) ∧
    ((Decoder.mk .lenLo false 0 0 0).takesByte 0x00 ∧
      ((0 : BitVec 16) ||| ((Decoder.mk .lenLo false 0 0 0).valueOf 0x00).setWidth 16).toNat = 0) ∧
    ((Decoder.mk .lenLo false 0 0 0).takesByte 0xFF ∧
      ((0 : BitVec 16) ||| ((Decoder.mk .lenLo false 0 0 0).valueOf 0xFF).setWidth 16).toNat = 255) := by
  unfold Decoder.takesByte; decide

/-- The first and the last byte of the longest frame. -/
theorem witness_SrxbDataByte :
    (Decoder.mk .data false 0 255 0).takesByte 0x11 ∧ (0 : Byte).toNat < (255 : BitVec 16).toNat ∧
    (Decoder.mk .data true 254 255 0).takesByte 0x5E ∧ (254 : Byte).toNat < (255 : BitVec 16).toNat ∧
    (255 : BitVec 16).toNat ≤ 255 := by unfold Decoder.takesByte; decide

/-- The empty frame's checksum byte, a wrong one, and the longest frame's. -/
theorem witness_SrxbChecksumByte :
    (Decoder.mk .cksum false 0 0 0).takesByte 0xFF ∧
    ((Decoder.mk .cksum false 0 0 0).valueOf 0xFF).toNat = 255 - (0 : Byte).toNat ∧
    ((Decoder.mk .cksum false 0 0 0).valueOf 0xFE).toNat ≠ 255 - (0 : Byte).toNat ∧
    (Decoder.mk .cksum true 255 255 0x82).takesByte 0x5D ∧
    ((Decoder.mk .cksum true 255 255 0x82).valueOf 0x5D).toNat = 255 - (0x82 : Byte).toNat ∧
    (255 : BitVec 16).toNat ≤ 255 ∧ State.reset.scu.rxrdy = false ∧
    ({ State.reset with scu := { Scu.reset with rxrdy := true } } : State).scu.rxrdy = true := by
  unfold Decoder.takesByte
  exact ⟨by decide, by decide, by decide, by decide, by decide, by decide, rfl, rfl⟩

/-- Every byte; a flag set in each of the ways named. -/
theorem witness_SrxbSetsAtMostOneFlag :
    (after (exec (Asm.srxb 0x7E) (decoding ⟨.data, false, 0, 1, 0⟩ []))).scu.synerr = true ∧
    (after (exec (Asm.srxb 0x00) (decoding ⟨.lenLo, false, 0, 0x0100, 0⟩ []))).scu.lenerr = true ∧
    (after (exec (Asm.srxb 0x00) (decoding ⟨.cksum, false, 0, 0, 0⟩ []))).scu.ckerr = true ∧
    (0x8000 : BitVec 16) ≠ 0 := by decide

theorem witness_SrxbStoresOnlyDataAndDelivery :
    ¬ ((Decoder.mk .hunt false 0 0 0).takesByte 0x41 ∧ (Decoder.mk .hunt false 0 0 0).phase = .data) ∧
    ¬ ((Decoder.mk .data false 0 1 0).takesByte 0x41 ∧ (Decoder.mk .data false 0 1 0).phase = .cksum) := by
  unfold Decoder.takesByte; decide

theorem witness_EncodedFrameDecodesToItself :
    ([] : List Byte).length ≤ 255 ∧ (zeros 255).length ≤ 255 ∧ State.reset.scu.rxrdy = false ∧
    (decoding ⟨.data, true, 3, 9, 0⟩ []).scu.rxrdy = false := by
  simp only [zeros_length]; decide

/-- Two decoders that differ in every register, and bytes that deliver a frame. -/
theorem witness_DelimiterResynchronises :
    State.reset.scu.rxrdy = (decoding ⟨.data, true, 3, 9, 7⟩ []).scu.rxrdy ∧
    State.reset.scu.rxrdy = false ∧
    (after (execAll (Asm.srxs [0x00, 0x02, 0x48, 0x69, 0x4E]) (after (exec (.srxb 0 0x7E) State.reset)))).scu.rxrdy =
      true := by decide

theorem witness_UnitsShareNothing :
    ((Instr.srxack 0 0).format = .sc ∧ exec (.srxack 0 0) State.reset = .next (State.reset.setRxrdy false) ∧
      busyState.scu = State.reset.scu ∧ busyState.epoch = State.reset.epoch ∧ busyState ≠ State.reset) ∧
    ((Instr.keyclr 0 0 0).format = .ce ∧
      exec (.keyclr 0 0 0) State.reset = .next (State.reset.clearKey.complete .ok) ∧
      (staged [1]).ce = State.reset.ce ∧ (staged [1]).cfg = State.reset.cfg ∧
      (staged [1]).epoch = State.reset.epoch ∧ staged [1] ≠ State.reset) :=
  ⟨⟨rfl, rfl, rfl, rfl, by decide⟩, rfl, rfl, rfl, rfl, rfl, by decide⟩

/-- The last word and the last byte of the window; a 16-bit access, a misaligned one, a byte access to a register, and
the first address past the window. -/
theorem witness_AccessAnsweredIffAdmitted :
    (0x7FC < 0x800 ∧ 0x7FC % 4 = 0) ∧ (0x7FF < 0x800 ∧ 0x100 ≤ 0x7FF ∧ 0x100 ≤ 0x100) ∧
    access State.reset.cfg .w16 0x100 = .busError ∧ access State.reset.cfg .w32 0x102 = .busError ∧
    access State.reset.cfg .w8 0x0FF = .busError ∧ access State.reset.cfg .w32 0x800 = .noResponse := by decide

theorem witness_ReadHasNoSideEffect :
    hostRead .w32 0x000 busyState = .next (busyState.answer 0x4C435342) ∧
    access busyState.cfg .w32 0x000 = .reach (.reg .id) ∧ (Target.reg .id).isCeOutput = false ∧
    hostRead .w32 0x018 State.reset = .next (State.reset.answer 0) ∧ State.reset.ce.busy = false ∧
    busyState.setWerr.popHost.cfg = busyState.cfg := ⟨rfl, rfl, rfl, rfl, rfl, rfl⟩

theorem witness_BusyWriteToCeInputDropped :
    busyState.ce.busy = true ∧ (0x020 % 4 = 0 ∧ 0x020 ≤ 0x03C ∧ 0x03C < 0x040) ∧
    (0x100 ≤ 0x1FF ∧ 0x1FF < 0x200) ∧ 0x1FC % 4 = 0 := by decide

theorem witness_CmdWriteAcceptedOrDropped : State.reset.ce.busy = false ∧ busyState.ce.busy = true := by decide

theorem witness_MaxplWriteStoresMinimum : State.reset.ce.busy = false := by decide

theorem witness_KeyWriteSetsItsWordAndKw : State.reset.ce.busy = false := by decide

theorem witness_CtrlWriteResetsOrEnables :
    (0x0000000F : Word).getLsbD 0 = true ∧ (0x0000000E : Word).getLsbD 0 = false := by decide

theorem witness_ReservedAndReadOnlyIgnoreWrites :
    (0x19 ≤ 0x19 ∧ 0x3F < 0x40) ∧ (16 ≤ 19 ∧ 22 ≤ 24) ∧ (0x300 ≤ 0x300 ∧ 0x7FF < 0x800 ∧ 0x7FC % 4 = 0) ∧
    State.reset.ce.busy = false := by decide

theorem witness_WordWriteStoresLanes : State.reset.ce.busy = false ∧ 252 % 4 = 0 ∧ 252 < 256 ∧ 255 < 256 ∧
    1020 % 4 = 0 ∧ 1023 < 1024 := by decide

theorem witness_HostMoveNeverShowsKey :
    sameButKey State.reset { State.reset with ce := { Ce.reset with key := keyK } } ∧
    hostMove (.read .w32 0x020) State.reset = .next (State.reset.answer 0) := ⟨rfl, rfl⟩

/-- A write of a CE input and of CMD while idle, a read of a CE output while idle, a reset while busy. -/
theorem witness_DutifulHostMeetsNoHazard :
    (HostOp.write .w32 0x020 1).keepsDuty State.reset = true ∧ (HostOp.write .w32 0x00C 7).keepsDuty State.reset = true ∧
    (HostOp.read .w8 0x1FF).keepsDuty State.reset = true ∧ (HostOp.poll 0x008 1 0).keepsDuty busyState = true ∧
    HostOp.assertReset.keepsDuty busyState = true ∧ (HostOp.read .w32 0x018).keepsDuty busyState = false := by decide

theorem witness_StepRunsTheDecodedCommand :
    ((Instr.cmac 0 0 16).format = .ce ∧ busyState.ce.latch = some (encode (.cmac 0 0 16)) ∧
      busyState.hostQueue = []) ∧
    ((Instr.senc 0 2).format = .sc ∧ (State.reset.withFetchWord 32 0x201).hostQueue =
      [.write .w32 (State.reset.cfg.pBase + 0x050) (encode (.senc 0 2))] ∧
      (State.reset.withFetchWord 32 0x201).ce.latch = none) := by decide

/-- A latched word that names no command; each kind of host move, a POLL answered and one not admitted; nobody to
move. -/
theorem witness_StepRunsTheDecodedCommand_moves :
    ((State.reset.launch 0x00000008 0).ce.latch = some 0x00000008 ∧ (State.reset.launch 0x00000008 0).hostQueue = []) ∧
    ((asking (.read .w32 0x000)).hostQueue = [.read .w32 0x000] ∧ (asking (.read .w32 0x000)).ce.latch = none) ∧
    (asking (.write .w8 0x200 1)).hostQueue = [.write .w8 0x200 1] ∧ (asking .assertReset).hostQueue = [.assertReset] ∧
    ((asking (.poll 0x008 1 0)).hostQueue = [.poll 0x008 1 0] ∧
      hostRead .w32 0x008 State.reset = .next (State.reset.answer 0)) ∧
    hostRead .w32 0x009 State.reset = .fault (.busErrorRead 0x009) ∧
    (State.reset.ce.latch = none ∧ State.reset.hostQueue = []) :=
  ⟨⟨rfl, rfl⟩, ⟨rfl, rfl⟩, rfl, rfl, ⟨rfl, rfl⟩, rfl, rfl, rfl⟩

/-- The invariant holds of a busy state, in the middle of a frame, and a step changes it. -/
theorem witness_StepKeepsInvariant :
    Inv { decoding ⟨.data, false, 1, 2, 0x48⟩ [0x48] with ce := busyState.ce } ∧
    step { decoding ⟨.data, false, 1, 2, 0x48⟩ [0x48] with ce := busyState.ce } =
      .next (State.complete { decoding ⟨.data, false, 1, 2, 0x48⟩ [0x48] with ce := busyState.ce } .cryptoError) :=
  ⟨{ baseAligned := by decide
     buffersWf := fun b => by cases b <;> rfl
     maxplLegal := by decide
     busyNotDone := by decide
     unwrittenKeyZero := by decide
     elenBound := by decide
     decoder :=
      { huntNoEsc := by decide
        lenHiZero := by decide
        lenLoZero := by decide
        dataRoom := by decide
        cksumFull := by decide
        sumOfStored := by decide } }, rfl⟩

theorem witness_EngineInputsHoldWhileBusy :
    busyState.ce.busy = true ∧ hostMove (.write .w8 0x100 0xAA) busyState = .next busyState.setWerr ∧
    busyState.setWerr.ce.busy = true := ⟨rfl, rfl, rfl⟩

/-- The race of P7: the write comes while the command is pending. -/
theorem witness_RaceCannotChangeResult :
    busyState.ce.latch = some 0x00001003 ∧ hostMove (.write .w8 0x100 0xAA) busyState = .next busyState.setWerr ∧
    busyState.setWerr.ce.busy = true := ⟨rfl, rfl, rfl⟩

theorem witness_EngineStepComesWithinDelay : busyState.ce.latch = some 0x00001003 := rfl

end Sys2Proof.Tests
end

/-! SUPPORT. The registers as the host reads and writes them, said once: where a register's access goes, and what the
bits of a word made of fields are. -/

namespace Sys2Proof.Machine

/-! ### Register accesses -/

/-- Below 0x100 an offset's target is its register (R81). -/
theorem targetAt_reg {off : Nat} (h : off < 0x100) : targetAt off = .reg (regAt off) := if_pos h

/-- A 32-bit access at a register's offset reaches the register (R82). -/
theorem access_reg (p : Config.Params) {off : Nat} {r : Reg} (hlt : off < 0x100) (h4 : off % 4 = 0)
    (hr : regAt off = r) : access p .w32 (p.pBase + off) = .reach (.reg r) := by
  rw [access_word p (by omega) h4, targetAt_reg hlt, hr]

/-- A read of a register returns its word, unless it is a CE output while BUSY = 1 (R307). -/
theorem hostRead_reg {s : State} {off : Nat} {r : Reg} (hlt : off < 0x100) (h4 : off % 4 = 0) (hr : regAt off = r)
    (hb : (s.ce.busy && (Target.reg r).isCeOutput) = false) :
    hostRead .w32 (s.cfg.pBase + off) s = .next { s with hostData := some (loadReg s r) } :=
  hostRead_stored (access_reg s.cfg hlt h4 hr) hb

/-- A write to a register, unless it is a CE input while BUSY = 1 (R308). -/
theorem hostWrite_reg {s : State} {off : Nat} {r : Reg} (v : Word) (hlt : off < 0x100) (h4 : off % 4 = 0)
    (hr : regAt off = r) (hb : (s.ce.busy && (Target.reg r).isCeInput) = false) :
    hostWrite .w32 (s.cfg.pBase + off) v s = storeReg r v s := by
  rw [hostWrite_of_reach (access_reg s.cfg hlt h4 hr)]
  simp [writeTarget, hb]

/-- A write to a buffer, unless it is FBUF while BUSY = 1 (R308). -/
theorem hostWrite_buf {s : State} {w : Width} {addr : Nat} {b : Buf} {off : Nat} (v : Word)
    (hx : access s.cfg w addr = .reach (.buf b off)) (hb : (s.ce.busy && (Target.buf b off).isCeInput) = false) :
    hostWrite w addr v s = .next (storeBuf w b off v s) := by
  rw [hostWrite_of_reach hx]
  simp [writeTarget, hb]

/-- A write to a CE input while BUSY = 1 stores nothing and sets WERR (R58, R308). -/
theorem hostWrite_busy_input {s : State} {w : Width} {addr : Nat} {x : Target} (v : Word)
    (hx : access s.cfg w addr = .reach x) (hb : s.ce.busy = true) (hin : x.isCeInput = true) :
    hostWrite w addr v s = .next s.setWerr := by
  rw [hostWrite_of_reach hx]
  simp [writeTarget, hb, hin]

/-! ### The register map (10_state.md section 2) -/

/-- The KEY, BLK and TAG words stand one after another from 0x020, 0x030 and 0x040 on. -/
theorem regAt_key (k : Fin 4) : regAt (0x020 + 4 * k.val) = .key k := by fin_cases k <;> rfl
theorem regAt_blk (k : Fin 4) : regAt (0x030 + 4 * k.val) = .blk k := by fin_cases k <;> rfl
theorem regAt_tag (k : Fin 4) : regAt (0x040 + 4 * k.val) = .tag k := by fin_cases k <;> rfl

/-- From 0x064 on every register offset is reserved (R49). -/
theorem regAt_reserved {n : Nat} (h : 0x19 ≤ n) : regAt (4 * n) = .reserved := by
  rw [regAt, Nat.mul_div_cancel_left n (by decide)]
  exact List.getD_eq_default _ _ h

/-! ### CE inputs and ignored writes (R49, R52, R53, R58) -/

/-- The targets at the offsets of R58 are the CE inputs. -/
theorem isCeInput_targetAt {off : Nat}
    (h : off = 0x010 ∨ off = 0x014 ∨ (0x020 ≤ off ∧ off < 0x040) ∨ (0x100 ≤ off ∧ off < 0x200)) :
    (targetAt off).isCeInput = true := by
  rcases h with rfl | rfl | ⟨h1, h2⟩ | ⟨h1, h2⟩
  · rfl
  · rfl
  · interval_cases off <;> rfl
  · obtain ⟨o, rfl⟩ := Nat.exists_eq_add_of_le h1
    rw [targetAt_fbuf (by omega)]; rfl

/-- A register whose write is ignored (R31 to R49). -/
def Reg.readOnly : Reg → Bool
  | .id | .rlen | .mic | .tag _ | .serRxlen | .serElen | .serDbg | .reserved => true
  | _ => false

/-- A write to a read-only register changes nothing. -/
theorem storeReg_readOnly {r : Reg} (h : r.readOnly = true) (v : Word) (s : State) : storeReg r v s = .next s := by
  cases r with
  | id | rlen | mic | tag | serRxlen | serElen | serDbg | reserved => rfl
  | ctrl | status | cmd | maxpl | arg0 | key | blk | serCmd | serStatus => cases h

/-- No read-only register is a CE input, so its write is ignored whatever BUSY is (R58). -/
theorem isCeInput_of_readOnly {r : Reg} (h : r.readOnly = true) : (Target.reg r).isCeInput = false := by
  cases r with
  | id | rlen | mic | tag | serRxlen | serElen | serDbg | reserved => rfl
  | ctrl | status | cmd | maxpl | arg0 | key | blk | serCmd | serStatus => cases h

/-- A host write to a read-only register changes nothing, whatever BUSY is. -/
theorem hostWrite_readOnly {n : Nat} (hn : n < 0x40) (h : (regAt (4 * n)).readOnly = true) (v : Word) (s : State) :
    hostWrite .w32 (s.cfg.pBase + 4 * n) v s = .next s := by
  rw [hostWrite_reg v (by omega) (by omega) rfl (by rw [isCeInput_of_readOnly h, Bool.and_false]),
    storeReg_readOnly h]

/-- From 0x300 on the window maps to SRBUF and EBUF (R81). -/
theorem targetAt_readOnlyBuf {off : Nat} (h : 0x300 ≤ off) :
    ∃ b o, targetAt off = .buf b o ∧ (b = .srbuf ∨ b = .ebuf) := by
  by_cases h4 : off < 0x400
  · obtain ⟨o, rfl⟩ := Nat.exists_eq_add_of_le h
    exact ⟨.srbuf, o, targetAt_srbuf (by omega), .inl rfl⟩
  · obtain ⟨o, rfl⟩ := Nat.exists_eq_add_of_le (not_lt.1 h4)
    exact ⟨.ebuf, o, targetAt_ebuf, .inr rfl⟩

/-- SRBUF and EBUF ignore writes, whatever BUSY is (R52, R53). -/
theorem hostWrite_readOnlyBuf {w : Width} {off : Nat} (v : Word) (s : State) (h : 0x300 ≤ off) (hlt : off < 0x800)
    (ha : admitted w off = true) : hostWrite w (s.cfg.pBase + off) v s = .next s := by
  obtain ⟨b, o, ht, hb⟩ := targetAt_readOnlyBuf h
  have hx : access s.cfg w (s.cfg.pBase + off) = .reach (.buf b o) := by
    rw [access_inWindow s.cfg w hlt, if_pos ha, ht]
  rcases hb with rfl | rfl
  · exact hostWrite_buf v hx (Bool.and_false _)
  · exact hostWrite_buf v hx (Bool.and_false _)

/-! ### Bits of fields (R13) -/

/-- Bit j of a field put in its place. -/
theorem getLsbD_fieldAt {n : Nat} (v : BitVec n) (lo j : Nat) :
    (fieldAt v lo).getLsbD j = (decide (j < 32) && (decide (lo ≤ j) && v.getLsbD (j - lo))) := by
  by_cases h : j < 32
  · by_cases hlo : lo ≤ j
    · simp [fieldAt, h, hlo, Nat.not_lt.2 hlo]
    · simp [fieldAt, h, hlo, Nat.lt_of_not_le hlo]
  · simp [fieldAt, h]

/-- Bit j of a one-bit field at bit i. -/
theorem getLsbD_flagAt (b : Bool) {i j : Nat} (hj : j < 32) : (flagAt b i).getLsbD j = (decide (j = i) && b) := by
  rw [flagAt, getLsbD_fieldAt]
  rcases lt_trichotomy j i with h | rfl | h
  · simp [h.ne, h.not_ge]
  · simp [hj]
  · have : j - i ≠ 0 := by omega
    simp [h.ne', BitVec.getLsbD_ofBool, this]

/-! ### The status words, bit by bit -/

section
variable (c : Ce) (u : Scu) (d : Decoder)

/-- Every bit of STATUS (R34). -/
theorem Ce.getLsbD_statusWord {j : Nat} (hj : j < 32) :
    c.statusWord.getLsbD j =
      (decide (j = 0) && c.busy || decide (j = 1) && c.done || decide (j = 2) && c.keyv ||
        decide (j = 3) && c.cmdovr || decide (j = 4) && c.werr ||
        decide (8 ≤ j) && c.result.code.getLsbD (j - 8)) := by
  simp only [Ce.statusWord, BitVec.getLsbD_or, getLsbD_flagAt _ hj, getLsbD_fieldAt, hj, decide_true, Bool.true_and]

/-- Every bit of SER_STATUS (R45). -/
theorem Scu.getLsbD_statusWord {j : Nat} (hj : j < 32) :
    u.statusWord.getLsbD j =
      (decide (j = 0) && u.rxrdy || decide (j = 1) && u.ovr || decide (j = 2) && u.ckerr ||
        decide (j = 3) && u.lenerr || decide (j = 4) && u.synerr || decide (j = 5) && u.cmderr) := by
  simp only [Scu.statusWord, BitVec.getLsbD_or, getLsbD_flagAt _ hj]

/-- Every bit of SER_DBG (R48). -/
theorem Decoder.getLsbD_dbgWord {j : Nat} (hj : j < 32) :
    d.dbgWord.getLsbD j =
      (d.phase.code.getLsbD j || decide (j = 3) && d.esc || decide (8 ≤ j) && d.pos.getLsbD (j - 8) ||
        decide (16 ≤ j) && d.dlen.getLsbD (j - 16)) := by
  simp only [Decoder.dbgWord, BitVec.getLsbD_or, getLsbD_flagAt _ hj, getLsbD_fieldAt, hj, Nat.zero_le, Nat.sub_zero,
    decide_true, Bool.true_and]

/-- Every bit of CTRL (R32). -/
theorem Ctrl.getLsbD_word (k : Ctrl) {j : Nat} (hj : j < 32) :
    k.word.getLsbD j = (decide (j = 1) && k.doneIe || decide (j = 2) && k.srxIe || decide (j = 3) && k.serrIe) := by
  simp only [Ctrl.word, BitVec.getLsbD_or, getLsbD_flagAt _ hj]

/-- The RESULT field of STATUS is the code's number (R34, R270). -/
theorem Ce.statusWord_result : c.statusWord.extractLsb' 8 4 = c.result.code := by
  ext i hi
  rw [BitVec.getElem_extractLsb', c.getLsbD_statusWord (by omega)]
  simp [show 8 + i ≠ 1 by omega, show 8 + i ≠ 2 by omega, show 8 + i ≠ 3 by omega, show 8 + i ≠ 4 by omega, hi]

end

/-- A field all of whose bits are 0. -/
theorem extractLsb'_eq_zero {w : Word} {start len : Nat} (h : ∀ i, i < len → w.getLsbD (start + i) = false) :
    w.extractLsb' start len = 0 := by
  ext i hi
  simp [h i hi]

/-- The one-bit fields of STATUS (R34). -/
theorem Ce.statusWord_flags (c : Ce) :
    c.statusWord.getLsbD 0 = c.busy ∧ c.statusWord.getLsbD 1 = c.done ∧ c.statusWord.getLsbD 2 = c.keyv ∧
      c.statusWord.getLsbD 3 = c.cmdovr ∧ c.statusWord.getLsbD 4 = c.werr := by
  refine ⟨?_, ?_, ?_, ?_, ?_⟩ <;>
  · rw [c.getLsbD_statusWord (by decide)]
    simp

/-- The one-bit fields of SER_STATUS (R45). -/
theorem Scu.statusWord_flags (u : Scu) :
    u.statusWord.getLsbD 0 = u.rxrdy ∧ u.statusWord.getLsbD 1 = u.ovr ∧ u.statusWord.getLsbD 2 = u.ckerr ∧
      u.statusWord.getLsbD 3 = u.lenerr ∧ u.statusWord.getLsbD 4 = u.synerr ∧
      u.statusWord.getLsbD 5 = u.cmderr := by
  refine ⟨?_, ?_, ?_, ?_, ?_, ?_⟩ <;>
  · rw [u.getLsbD_statusWord (by decide)]
    simp

/-- The enables of CTRL (R32). -/
theorem Ctrl.word_flags (k : Ctrl) :
    k.word.getLsbD 1 = k.doneIe ∧ k.word.getLsbD 2 = k.srxIe ∧ k.word.getLsbD 3 = k.serrIe := by
  refine ⟨?_, ?_, ?_⟩ <;>
  · rw [k.getLsbD_word (by decide)]
    simp

/-- The reserved bits of STATUS read 0 (R34). -/
theorem Ce.statusWord_reserved (c : Ce) {j : Nat} (hj : (5 ≤ j ∧ j < 8) ∨ (12 ≤ j ∧ j < 32)) :
    c.statusWord.getLsbD j = false := by
  rw [c.getLsbD_statusWord (by omega)]
  have hcode : (decide (8 ≤ j) && c.result.code.getLsbD (j - 8)) = false := by
    rcases hj with hj | hj
    · simp [Nat.not_le.2 hj.2]
    · rw [BitVec.getLsbD_of_ge _ _ (by omega), Bool.and_false]
  simp [hcode, show j ≠ 0 by omega, show j ≠ 1 by omega, show j ≠ 2 by omega, show j ≠ 3 by omega,
    show j ≠ 4 by omega]

/-- The reserved bits of SER_STATUS read 0 (R45). -/
theorem Scu.statusWord_reserved (u : Scu) {j : Nat} (h6 : 6 ≤ j) (h32 : j < 32) : u.statusWord.getLsbD j = false := by
  rw [u.getLsbD_statusWord h32]
  simp [show j ≠ 0 by omega, show j ≠ 1 by omega, show j ≠ 2 by omega, show j ≠ 3 by omega,
    show j ≠ 4 by omega, show j ≠ 5 by omega]

section
variable (d : Decoder)

/-- PHASE of SER_DBG (R48). -/
theorem Decoder.dbgWord_phase : d.dbgWord.extractLsb' 0 3 = d.phase.code := by
  ext i hi
  rw [BitVec.getElem_extractLsb', d.getLsbD_dbgWord (by omega)]
  simp [show i ≠ 3 by omega, show ¬ 8 ≤ i by omega, show ¬ 16 ≤ i by omega, hi]

/-- ESC of SER_DBG (R48). -/
theorem Decoder.dbgWord_esc : d.dbgWord.getLsbD 3 = d.esc := by
  rw [d.getLsbD_dbgWord (by decide)]
  simp

/-- The reserved bits of SER_DBG read 0 (R48). -/
theorem Decoder.dbgWord_reserved {j : Nat} (h4 : 4 ≤ j) (h8 : j < 8) : d.dbgWord.getLsbD j = false := by
  rw [d.getLsbD_dbgWord (by omega)]
  simp [show j ≠ 3 by omega, show ¬ 8 ≤ j by omega, show ¬ 16 ≤ j by omega,
    BitVec.getLsbD_of_ge _ _ (show 3 ≤ j by omega)]

/-- POS of SER_DBG (R48). -/
theorem Decoder.dbgWord_pos : d.dbgWord.extractLsb' 8 8 = d.pos := by
  ext i hi
  rw [BitVec.getElem_extractLsb', d.getLsbD_dbgWord (by omega)]
  simp [show 8 + i ≠ 3 by omega, show ¬ 16 ≤ 8 + i by omega,
    BitVec.getLsbD_of_ge _ _ (show 3 ≤ 8 + i by omega), hi]

/-- DLEN of SER_DBG (R48). -/
theorem Decoder.dbgWord_dlen : d.dbgWord.extractLsb' 16 16 = d.dlen := by
  ext i hi
  rw [BitVec.getElem_extractLsb', d.getLsbD_dbgWord (by omega)]
  simp [show 16 + i ≠ 3 by omega, BitVec.getLsbD_of_ge d.phase.code _ (show 3 ≤ 16 + i by omega),
    BitVec.getLsbD_of_ge d.pos _ (show 8 ≤ 16 + i - 8 by omega), hi]

end

/-! ### What single writes and the reset leave -/

/-- What a MAXPL write stores, as a number (R36). -/
theorem State.writeMaxpl_toNat (s : State) (v : Byte) : (s.writeMaxpl v).ce.maxpl.toNat = min v.toNat 246 := by
  rw [State.writeMaxpl_ce]
  show (if v ≤ maxplMax then v else maxplMax).toNat = _
  split
  · next h => exact (min_eq_left (BitVec.le_def.1 h)).symm
  · next h => exact (min_eq_right (BitVec.not_le.1 h).le).symm

/-- KW after word k is marked written: bit k, and the bits that were set (R41). -/
theorem getLsbD_markWritten (kw : BitVec 4) (k j : Fin 4) :
    (kw ||| (1#4 <<< k.val)).getLsbD j.val = (decide (j = k) || kw.getLsbD j.val) := by
  have hbit : (1#4 <<< k.val).getLsbD j.val = decide (j = k) := by revert k j; decide
  rw [BitVec.getLsbD_or, hbit, Bool.or_comm]

/-- KEYV is the conjunction of the KW bits (R41). -/
theorem Ce.keyv_iff (c : Ce) : c.keyv = true ↔ ∀ j : Fin 4, c.kw.getLsbD j.val = true := by
  simp [Ce.keyv, Fin.forall_fin_succ, and_assoc]

/-- CTRL reads back bits 3:1 of the word written (R32, R33). -/
theorem State.writeCtrl_word (s : State) (v : Word) : (s.writeCtrl v).ctrl.word = v &&& 0x0000000E := by
  apply BitVec.eq_of_getLsbD_eq
  intro j hj
  rw [Ctrl.getLsbD_word _ hj, State.writeCtrl_ctrl]
  interval_cases j <;> simp

/-- What each offset below 0x100 reads right after reset (R60). -/
theorem loadReg_reset {n : Nat} (h : n < 64) :
    loadReg State.reset (regAt (4 * n)) = if n = 0 then 0x4C435342 else if n = 4 then 0x000000F6 else 0 := by
  revert n; decide

/-- After the reset action every register reads as right after reset (R301). -/
theorem loadReg_resetAction (s : State) (r : Reg) : loadReg s.resetAction r = loadReg State.reset r := by
  cases r <;> rfl

end Sys2Proof.Machine

/-! SUPPORT. Every step keeps the invariant: first what each kind of update of the state asks for to keep it, then the
decoder byte by byte, the commands, the host's moves, and the step. -/

namespace Sys2Proof.Machine

/-! ### What the invariant reads -/

/-- `s` with every field the invariant does not read blanked: two states alike here are alike to `Inv`. -/
def State.invView (s : State) : State :=
  { s with
    ctrl := .reset
    ce := { s.ce with
      cmdovr := false, werr := false, result := .ok, arg0 := 0, rlen := 0, mic := 0, blk := .zero, tag := .zero }
    scu := { s.scu with
      rxrdy := false, ovr := false, ckerr := false, lenerr := false, synerr := false, cmderr := false, rxlen := 0 }
    draws := 0
    engineDelay := 0
    hostQueue := []
    hostData := none }

@[simp] theorem State.invView_mem (s : State) (b : Buf) : s.invView.mem b = s.mem b := by cases b <;> rfl
@[simp] theorem State.invView_memRead (s : State) (b : Buf) (off n : Nat) :
    s.invView.memRead b off n = s.memRead b off n := by cases b <;> rfl

/-- The decoder's part of the invariant reads the decoder's registers and ABUF's bytes below pos, nothing else. -/
theorem DecoderInv.congr {s t : State} (h : DecoderInv s) (hdec : t.scu.dec = s.scu.dec)
    (habuf : t.memRead .abuf 0 s.scu.dec.pos.toNat = s.memRead .abuf 0 s.scu.dec.pos.toNat) : DecoderInv t where
  huntNoEsc := hdec ▸ h.huntNoEsc
  lenHiZero := hdec ▸ h.lenHiZero
  lenLoZero := hdec ▸ h.lenLoZero
  dataRoom := hdec ▸ h.dataRoom
  cksumFull := hdec ▸ h.cksumFull
  sumOfStored := by rw [hdec, habuf]; exact h.sumOfStored

/-- The invariant reads nothing but the view. -/
theorem inv_invView_iff (s : State) : Inv s.invView ↔ Inv s :=
  ⟨fun h => { h with buffersWf := by simpa using h.buffersWf, decoder := h.decoder.congr rfl (by simp) },
    fun h => { h with buffersWf := by simpa using h.buffersWf, decoder := h.decoder.congr rfl (by simp) }⟩

/-- An update of fields the invariant does not read keeps it. -/
theorem Inv.congr {s t : State} (hs : Inv s) (h : t.invView = s.invView) : Inv t :=
  (inv_invView_iff t).1 (h ▸ (inv_invView_iff s).2 hs)

/-- Replacing the crypto engine's registers keeps the invariant when the new ones meet its clauses on them. -/
theorem Inv.withCe {s : State} (hs : Inv s) {c : Ce} (hwf : Memory.wf (bufSize .fbuf) c.fbuf = true)
    (hmax : c.maxpl.toNat ≤ 246) (hdone : c.busy = true → c.done = false)
    (hkey : ∀ k : Fin 4, c.kw.getLsbD k.val = false → c.key.get k = 0) : Inv { s with ce := c } :=
  { hs with
    buffersWf := fun b => by
      cases b with
      | fbuf => exact hwf
      | stbuf => exact hs.buffersWf .stbuf
      | srbuf => exact hs.buffersWf .srbuf
      | ebuf => exact hs.buffersWf .ebuf
      | abuf => exact hs.buffersWf .abuf
    maxplLegal := hmax
    busyNotDone := hdone
    unwrittenKeyZero := hkey
    decoder := hs.decoder.congr rfl rfl }

/-- Replacing the decoder's registers keeps the invariant when the new ones meet its clauses on the decoder. -/
theorem Inv.setDec {s : State} (hs : Inv s) {d : Decoder} (hd : DecoderInv (s.setDec d)) : Inv (s.setDec d) :=
  { hs with buffersWf := by simpa using hs.buffersWf, decoder := hd }

/-- A state whose units hold their reset values meets the invariant, with an aligned base (R60, R80). -/
theorem inv_of_units_reset {s : State} (hbase : s.cfg.pBase % windowAlign = 0) (hce : s.ce = .reset)
    (hscu : s.scu = .reset) : Inv s where
  baseAligned := hbase
  buffersWf b := by cases b <;> simp [State.mem, hce, hscu, Ce.reset, Scu.reset, Memory.wf]
  maxplLegal := by rw [hce]; decide
  busyNotDone := by rw [hce]; decide
  unwrittenKeyZero := by rw [hce]; decide
  elenBound := by rw [hscu]; decide
  decoder :=
    { huntNoEsc := by rw [hscu]; decide
      lenHiZero := by rw [hscu]; decide
      lenLoZero := by rw [hscu]; decide
      dataRoom := by rw [hscu]; decide
      cksumFull := by rw [hscu]; decide
      sumOfStored := by rw [hscu]; rintro (h | h) <;> cases h }

/-! ### The named updates -/

section
variable {s : State} (hs : Inv s)
include hs

/-- Writes to the buffers keep the invariant, as long as ABUF is not written below pos (R245). -/
theorem Inv.memWrite {b : Buf} {off : Nat} (hb : b = .abuf → s.scu.dec.pos.toNat ≤ off) (bs : List Byte) :
    Inv (s.memWrite b off bs) where
  baseAligned := by simpa using hs.baseAligned
  buffersWf := State.memWrite_wf hs.buffersWf b off bs
  maxplLegal := by simpa using hs.maxplLegal
  busyNotDone := by simpa [Ce.busy] using hs.busyNotDone
  unwrittenKeyZero := by simpa using hs.unwrittenKeyZero
  elenBound := by simpa using hs.elenBound
  decoder := hs.decoder.congr (by simp) <| State.memRead_congr fun i hi =>
    s.readByte_memWrite_of_notMem fun ⟨hab, hle, _⟩ => by have := hb hab.symm; omega

/-- A write to a buffer other than ABUF keeps the invariant. -/
theorem Inv.memWrite_of_ne_abuf {b : Buf} (hb : b ≠ .abuf) (off : Nat) (bs : List Byte) :
    Inv (s.memWrite b off bs) := hs.memWrite (fun h => absurd h hb) bs

/-- The completion step leaves BUSY = 0 (R306). -/
theorem Inv.complete (code : ResultCode) : Inv (s.complete code) :=
  hs.withCe (hs.buffersWf .fbuf) hs.maxplLegal (fun h => by cases h) hs.unwrittenKeyZero

/-- TAG, MIC and RLEN are not read by the invariant. -/
theorem Inv.setTag (q : Quad) : Inv (s.setTag q) := hs.congr rfl
theorem Inv.setMic (v : Word) : Inv (s.setMic v) := hs.congr rfl
theorem Inv.setRlen (n : Byte) : Inv (s.setRlen n) := hs.congr rfl

/-- A SER_ELEN within its bound keeps the invariant (R237). -/
theorem Inv.setElen {n : BitVec 10} (hn : n.toNat ≤ 516) : Inv (s.setElen n) :=
  { hs with buffersWf := by simpa using hs.buffersWf, elenBound := hn, decoder := hs.decoder.congr rfl rfl }

/-- An accepted CMD write leaves DONE = 0 (R35). -/
theorem Inv.acceptCmd (w : Word) : Inv (s.acceptCmd w) := by
  have h : Inv { s with ce := { s.ce with latch := some w, done := false } } :=
    hs.withCe (hs.buffersWf .fbuf) hs.maxplLegal (fun _ => rfl) hs.unwrittenKeyZero
  exact h.congr rfl

/-- A STATUS write clears DONE or leaves it (R34). -/
theorem Inv.ackStatus (v : Word) : Inv (s.ackStatus v) :=
  hs.withCe (hs.buffersWf .fbuf) hs.maxplLegal (fun h => by simp [hs.busyNotDone h]) hs.unwrittenKeyZero

/-- With the key erased every KEY word is 0 (R41, R149). -/
theorem Inv.clearKey : Inv s.clearKey :=
  hs.withCe (hs.buffersWf .fbuf) hs.maxplLegal hs.busyNotDone (fun k _ => by fin_cases k <;> rfl)

/-- A MAXPL write stores at most 246 (R36). -/
theorem Inv.writeMaxpl (v : Byte) : Inv (s.writeMaxpl v) := by
  have hmax : (s.writeMaxpl v).ce.maxpl.toNat ≤ 246 := (s.writeMaxpl_toNat v).trans_le (min_le_right _ _)
  exact hs.withCe (hs.buffersWf .fbuf) hmax hs.busyNotDone hs.unwrittenKeyZero

/-- A KEYk write marks the word it writes as written (R41). -/
theorem Inv.writeKey (k : Fin 4) (v : Word) : Inv (s.writeKey k v) := by
  refine hs.withCe (hs.buffersWf .fbuf) hs.maxplLegal hs.busyNotDone fun j hj => ?_
  rw [getLsbD_markWritten, Bool.or_eq_false_iff, decide_eq_false_iff_not] at hj
  obtain ⟨hne, hkw⟩ := hj
  rw [Quad.get_set, if_neg hne, hs.unwrittenKeyZero j hkw]

end

/-! ### The decoder -/

/-- The sum over a byte string and one more byte (R233). -/
theorem byteSum_append_singleton (d : List Byte) (v : Byte) : byteSum (d ++ [v]) = byteSum d + v := by
  simp [byteSum]

/-- MemRead of one byte more. -/
theorem State.memRead_succ (s : State) (b : Buf) (off n : Nat) :
    s.memRead b off (n + 1) = s.memRead b off n ++ [s.readByte b (off + n)] := by
  simp [State.memRead, List.range_succ]

/-- A data byte stored at pos extends the string of ABUF's bytes below pos by that byte (R245). -/
theorem State.memRead_memWrite_next (s : State) {b : Buf} {n : Nat} (hn : n < bufSize b) (v : Byte) :
    (s.memWrite b n [v]).memRead b 0 (n + 1) = s.memRead b 0 n ++ [v] := by
  have hbelow : (s.memWrite b n [v]).memRead b 0 n = s.memRead b 0 n :=
    State.memRead_congr fun i hi => s.readByte_memWrite_of_notMem (by omega)
  have hlast : (s.memWrite b n [v]).readByte b (0 + n) = v := by
    rw [State.readByte_memWrite_of_mem _ (by omega) (by simp) (by omega)]
    simp [byteAt]
  rw [State.memRead_succ, hbelow, hlast]

/-! What the decoder's part of the invariant asks for in each phase. -/

section
variable {s : State}

theorem DecoderInv.of_hunt (hp : s.scu.dec.phase = .hunt) (hesc : s.scu.dec.esc = false) : DecoderInv s := by
  constructor <;> simp [hp, hesc]

theorem DecoderInv.of_lenHi (hp : s.scu.dec.phase = .lenHi) (hpos : s.scu.dec.pos = 0) (hdlen : s.scu.dec.dlen = 0)
    (hsum : s.scu.dec.sum = 0) : DecoderInv s := by
  constructor <;> simp [hp, hpos, hdlen, hsum]

theorem DecoderInv.of_lenLo (hp : s.scu.dec.phase = .lenLo) (hpos : s.scu.dec.pos = 0)
    (hdlen : s.scu.dec.dlen.setWidth 8 = 0#8) (hsum : s.scu.dec.sum = 0) : DecoderInv s := by
  constructor <;> simp [hp, hpos, hdlen, hsum]

theorem DecoderInv.of_data (hp : s.scu.dec.phase = .data) (hroom : s.scu.dec.pos.toNat < s.scu.dec.dlen.toNat)
    (hlen : s.scu.dec.dlen.toNat ≤ 255) (hsum : s.scu.dec.sum = byteSum (s.memRead .abuf 0 s.scu.dec.pos.toNat)) :
    DecoderInv s := by
  constructor <;> simp [hp, hroom, hlen, ← hsum]

theorem DecoderInv.of_cksum (hp : s.scu.dec.phase = .cksum) (hfull : s.scu.dec.pos.toNat = s.scu.dec.dlen.toNat)
    (hsum : s.scu.dec.sum = byteSum (s.memRead .abuf 0 s.scu.dec.pos.toNat)) : DecoderInv s := by
  constructor <;> simp [hp, hfull, hsum]

end

section
variable {s : State} (hs : Inv s)
include hs

/-- Outside HUNT the escape flag is free (R241, R242). -/
theorem Inv.setEsc {e : Bool} (h : s.scu.dec.phase ≠ .hunt) : Inv (s.setDec { s.scu.dec with esc := e }) :=
  hs.setDec { hs.decoder with huntNoEsc := fun g => absurd g h, sumOfStored := hs.decoder.sumOfStored }

/-- A delimiter (R239) starts a frame with nothing counted. -/
theorem Inv.decodeDelimiter : Inv (decodeDelimiter s) := by
  have h : Inv (if s.scu.dec.phase ≠ .hunt then s.setSynerr else s) := by
    split
    · exact hs.congr rfl
    · exact hs
  exact h.setDec (.of_lenHi rfl rfl rfl rfl)

/-- LEN_HI (R243) leaves the low byte of dlen 0. -/
theorem Inv.decodeLenHi (hp : s.scu.dec.phase = .lenHi) (v : Byte) : Inv (decodeLenHi v s) := by
  obtain ⟨hpos, -, hsum⟩ := hs.decoder.lenHiZero hp
  exact hs.setDec (.of_lenLo rfl hpos (by ext; simp) hsum)

/-- LEN_LO (R244): with nothing counted yet, a length of 0 is complete and any other up to 255 leaves room. -/
theorem Inv.decodeLenLo (hp : s.scu.dec.phase = .lenLo) (hesc : s.scu.dec.esc = false) (v : Byte) :
    Inv (decodeLenLo v s) := by
  obtain ⟨hpos, -, hsum⟩ := hs.decoder.lenLoZero hp
  have hstored : s.scu.dec.sum = byteSum (s.memRead .abuf 0 s.scu.dec.pos.toNat) := by rw [hpos, hsum]; rfl
  simp only [Machine.decodeLenLo]
  split
  · have h : Inv s.setLenerr := hs.congr rfl
    exact h.setDec (.of_hunt rfl hesc)
  next hle =>
    split
    · next hzero => exact hs.setDec (.of_cksum rfl (by simp [hzero, hpos]) hstored)
    · next hpositive =>
      have hroom : s.scu.dec.pos.toNat < (s.scu.dec.dlen ||| v.setWidth 16).toNat := by
        rw [hpos]
        exact Nat.pos_of_ne_zero fun h => hpositive (BitVec.eq_of_toNat_eq h)
      exact hs.setDec (.of_data rfl hroom (not_lt.1 hle) hstored)

/-- DATA (R245): the byte goes to ABUF[pos] and into the sum; the last one completes the count. -/
theorem Inv.decodeData (hp : s.scu.dec.phase = .data) (v : Byte) : Inv (decodeData v s) := by
  obtain ⟨hroom, hlen⟩ := hs.decoder.dataRoom hp
  have hnext : (s.scu.dec.pos + 1).toNat = s.scu.dec.pos.toNat + 1 := by
    rw [BitVec.toNat_add_of_lt (by simp; omega)]; rfl
  have hlast : (s.scu.dec.pos + 1).setWidth 16 = s.scu.dec.dlen ↔ s.scu.dec.pos.toNat + 1 = s.scu.dec.dlen.toNat := by
    rw [← BitVec.toNat_inj, BitVec.toNat_setWidth, hnext, Nat.mod_eq_of_lt (by omega)]
  have hstored : s.scu.dec.sum + v =
      byteSum ((s.memWrite .abuf s.scu.dec.pos.toNat [v]).memRead .abuf 0 (s.scu.dec.pos + 1).toNat) := by
    rw [hnext, State.memRead_memWrite_next s (by simp [bufSize]; omega), byteSum_append_singleton,
      ← hs.decoder.sumOfStored (.inl hp)]
  have h : Inv (s.memWrite .abuf s.scu.dec.pos.toNat [v]) := hs.memWrite (fun _ => le_rfl) [v]
  simp only [Machine.decodeData, hlast]
  split
  · next hfull => exact h.setDec (.of_cksum rfl (hnext.trans hfull) (by simpa using hstored))
  · next hmore =>
    have hroom' : (s.scu.dec.pos + 1).toNat < s.scu.dec.dlen.toNat := by omega
    exact h.setDec (.of_data rfl hroom' hlen (by simpa using hstored))

/-- Delivery (R246) writes SRBUF, SER_RXLEN and RXRDY. -/
theorem Inv.deliver : Inv (deliver s) :=
  (hs.memWrite_of_ne_abuf (by decide) 0 _).congr (t := Machine.deliver s) rfl

/-- CKSUM (R246): whatever becomes of the frame, the decoder hunts. -/
theorem Inv.decodeCksum (hesc : s.scu.dec.esc = false) (v : Byte) : Inv (decodeCksum v s) := by
  have h : Inv (if v = 0xFF - s.scu.dec.sum then if s.scu.rxrdy = true then s.setOvr else Machine.deliver s
      else s.setCkerr) := by
    split
    · split
      · exact hs.congr rfl
      · exact hs.deliver
    · exact hs.congr rfl
  exact h.setDec (.of_hunt rfl hesc)

/-- An unescaped or unmasked byte (R242), by the phase that takes it. -/
theorem Inv.decodeByPhase (hesc : s.scu.dec.esc = false) (v : Byte) : Inv (decodeByPhase v s) := by
  unfold Machine.decodeByPhase
  split
  case h_1 => exact hs
  case h_2 hp => exact hs.decodeLenHi hp v
  case h_3 hp => exact hs.decodeLenLo hp hesc v
  case h_4 hp => exact hs.decodeData hp v
  case h_5 => exact hs.decodeCksum hesc v

/-- One byte fed to the decoder, by the four kinds of byte of R239 to R242. -/
theorem Inv.decoderStep (b : Byte) : Inv (decoderStep b s) := by
  rcases s.scu.dec.byte_cases b with rfl | ⟨hb, hhunt⟩ | ⟨rfl, hphase, hesc⟩ | htakes
  · rw [decoderStep_delimiter]; exact hs.decodeDelimiter
  · rw [decoderStep_hunt hb hhunt]; exact hs
  · rw [decoderStep_escape hphase hesc]; exact hs.setEsc hphase
  · obtain ⟨-, hphase, -⟩ := id htakes
    rw [decoderStep_takes htakes]
    have hunescaped : Inv (s.setDec { s.scu.dec with esc := false }) := hs.setEsc hphase
    exact hunescaped.decodeByPhase rfl _

end

/-! ### The commands -/

/-- The normal end of a CE command is its completion step (R17, R306). -/
theorem finish_next {code : ResultCode} {u t : State} (h : finish code u = .next t) : t = u.complete code := by
  cases h; rfl

section
variable {s : State} (hs : Inv s)
include hs

/-- SENC's effect (R236) writes EBUF and a SER_ELEN within its bound (R237). -/
theorem Inv.sencEffect (arg : Byte) : Inv (sencEffect arg s) := by
  have hlen := encodeFrame_length_le (s.memRead .stbuf 0 arg.toNat) (by rw [State.memRead_length]; omega)
  rw [State.memRead_length] at hlen
  have h : Inv (s.memWrite .ebuf 0 (encodeFrame (s.memRead .stbuf 0 arg.toNat))) :=
    hs.memWrite_of_ne_abuf (by decide) 0 _
  refine h.setElen ?_
  rw [BitVec.toNat_ofNat]
  exact (Nat.mod_le _ _).trans (by omega)

/-- SEAL's effect (R204). -/
theorem Inv.sealEffect {len : Byte} {t : State} (h : sealEffect len s = .next t) : Inv t := by
  simp only [Machine.sealEffect] at h
  obtain rfl := finish_next h
  have hcrypt : Inv (s.cryptPayload (len.toNat - headerLen)) := hs.memWrite_of_ne_abuf (by decide) _ _
  exact ((((hcrypt.memWrite_of_ne_abuf (by decide) _ _).setTag _).setMic _).setRlen _).complete .ok

/-- OPEN's effect (R205), with a matching MIC or without. -/
theorem Inv.openEffect {len : Byte} {t : State} (h : openEffect len s = .next t) : Inv t := by
  rcases openEffect_cases len s with ⟨-, hfail⟩ | ⟨-, hok⟩
  · rw [hfail] at h
    obtain rfl := finish_next h
    exact (((hs.setTag _).setMic _).setRlen _).complete .micFail
  · rw [hok] at h
    obtain rfl := finish_next h
    have hcrypt : Inv (s.cryptPayload (len.toNat - headerLen - micLen)) := hs.memWrite_of_ne_abuf (by decide) _ _
    exact (((hcrypt.setTag _).setMic _).setRlen _).complete .ok

/-- A checked CE command (R271) keeps the invariant when its effect does. -/
theorem Inv.checked {p l k : Bool} {e : State → Host.Outcome State Fault Refusal} {t : State}
    (h : checked p l k e s = .next t) (he : e s = .next t → Inv t) : Inv t := by
  rcases checked_next h with ⟨-, rfl⟩ | ⟨-, -, rfl⟩ | ⟨-, -, -, rfl⟩ | ⟨-, -, -, heff⟩
  · exact hs.complete _
  · exact hs.complete _
  · exact hs.complete _
  · exact he heff

/-- A checked SC command (R119) keeps the invariant when its effect does. -/
theorem Inv.checkedSer {legal : Bool} {e : State → State} {t : State} (h : checkedSer legal e s = .next t)
    (he : Inv (e s)) : Inv t := by
  rw [checkedSer_eq] at h
  cases h
  split
  · exact he
  · exact hs.congr rfl

/-- Every command keeps the invariant. -/
theorem Inv.exec {i : Instr} {t : State} (h : exec i s = .next t) : Inv t := by
  cases i with
  | aesenc rsv off len => exact hs.checked h fun he => finish_next he ▸ (hs.setTag _).complete .ok
  | ctrxor rsv off len =>
    exact hs.checked h fun he => finish_next he ▸ (hs.memWrite_of_ne_abuf (by decide) _ _).complete .ok
  | cmac rsv off len => exact hs.checked h fun he => finish_next he ▸ (hs.setTag _).complete .ok
  | micgen rsv off len => exact hs.checked h fun he => finish_next he ▸ ((hs.setTag _).setMic _).complete .ok
  | sealFrame rsv off len => exact hs.checked h hs.sealEffect
  | openFrame rsv off len => exact hs.checked h hs.openEffect
  | keyclr rsv off len =>
    exact hs.checked (e := fun s => finish .ok s.clearKey) h fun he => finish_next he ▸ hs.clearKey.complete .ok
  | senc rsv arg => exact hs.checkedSer h (hs.sencEffect arg)
  | srxb rsv arg => exact hs.checkedSer h (hs.decoderStep arg)
  | srxack rsv arg => exact hs.checkedSer (e := fun s => s.setRxrdy false) h (hs.congr rfl)
  | srxrst rsv arg => exact hs.checkedSer (e := fun s => s.setDec .reset) h (hs.setDec (.of_hunt rfl rfl))

/-- The engine step of any latched word (R305, R116) keeps the invariant. -/
theorem Inv.engineRun {w : Word} {t : State} (h : engineRun w s = .next t) : Inv t := by
  unfold Machine.engineRun at h
  split at h
  · exact hs.exec h
  · cases h; exact hs.complete .illegalCmd

/-! ### The host's moves -/

/-- A reset (R300, R301) keeps the parameters, and puts both units at their reset values. -/
theorem Inv.resetAction : Inv s.resetAction := inv_of_units_reset hs.baseAligned rfl rfl

/-- An admitted read (R88). -/
theorem Inv.readTarget (w : Width) (x : Target) : Inv (readTarget w x s) := by
  unfold Machine.readTarget
  split
  · exact hs.congr rfl
  · exact hs.congr rfl

/-- A SER_CMD write (R44): the command, or CMDERR. -/
theorem Inv.writeSerCmd {v : Word} {t : State} (h : writeSerCmd v s = .next t) : Inv t := by
  unfold Machine.writeSerCmd at h
  split at h
  · exact hs.exec h
  · cases h; exact hs.congr rfl

/-- A register write that is not dropped (R31 to R49). -/
theorem Inv.storeReg {r : Reg} {v : Word} {t : State} (h : storeReg r v s = .next t) : Inv t := by
  cases r with
  | ctrl =>
    cases h
    unfold writeCtrlReg
    split
    · exact hs.resetAction
    · exact hs.congr rfl
  | cmd =>
    cases h
    unfold writeCmd
    split
    · exact hs.congr rfl
    · exact hs.acceptCmd v
  | serCmd => exact hs.writeSerCmd h
  | status => cases h; exact hs.ackStatus v
  | maxpl => cases h; exact hs.writeMaxpl _
  | key k => cases h; exact hs.writeKey k v
  | arg0 => cases h; exact hs.congr rfl
  | blk k => cases h; exact hs.congr rfl
  | serStatus => cases h; exact hs.congr rfl
  | id | rlen | mic | tag | serRxlen | serElen | serDbg | reserved => cases h; exact hs

/-- A buffer write that is not dropped (R50 to R54). -/
theorem Inv.storeBuf (w : Width) (b : Buf) (off : Nat) (v : Word) : Inv (storeBuf w b off v s) := by
  cases b with
  | fbuf | stbuf => exact hs.memWrite_of_ne_abuf (by decide) off _
  | srbuf | ebuf | abuf => exact hs

/-- An admitted write, dropped or not (R308). -/
theorem Inv.writeTarget {w : Width} {x : Target} {v : Word} {t : State} (h : writeTarget w x v s = .next t) :
    Inv t := by
  rcases writeTarget_next h with ⟨-, rfl⟩ | ⟨-, ⟨r, -, hr⟩ | ⟨b, off, -, rfl⟩⟩
  · exact hs.congr rfl
  · exact hs.storeReg hr
  · exact hs.storeBuf w b off v

/-- Every move of the host keeps the invariant. -/
theorem Inv.hostMove {op : HostOp} {t : State} (h : hostMove op s = .next t) : Inv t := by
  rcases hostMove_next h with ⟨w, addr, x, -, -, rfl⟩ | ⟨w, addr, v, x, -, -, hw⟩ |
    ⟨addr, m, v, x, -, -, rfl⟩ | ⟨-, rfl⟩
  · exact hs.readTarget w x
  · exact hs.writeTarget hw
  · have hread := hs.readTarget .w32 x
    rcases pollAgain_cases addr m v (Machine.readTarget .w32 x s) with hp | hp
    · rw [hp]; exact hread
    · rw [hp]; exact hread.congr rfl
  · exact hs.resetAction

/-- Every step keeps the invariant: an idle one, the engine's, and the host's. -/
theorem Inv.step {t : State} (h : step s = .next t) : Inv t := by
  rcases step_next h with ⟨-, rfl⟩ | ⟨w, -, hw⟩ | ⟨op, -, hop⟩
  · exact hs
  · exact hs.engineRun hw
  · have hpop : Inv s.popHost := hs.congr rfl
    exact hpop.hostMove hop

end

end Sys2Proof.Machine

/-! SUPPORT. The statements about the architectural state, settled: each from the rules above. -/

namespace Sys2Proof.Machine

/-- Settles O57: the invariant is kept by each of the three kinds of step. -/
theorem stepKeepsInvariant : Obligations.StepKeepsInvariant := fun _ _ hs h => hs.step h

/-- Settles O42: each of these accesses reaches a CE input, and such a write is dropped while BUSY = 1. -/
theorem busyWriteToCeInputDropped : Obligations.BusyWriteToCeInputDropped := by
  intro w off v s hb h
  have hadmitted : admitted w off = true := by
    rcases h with ⟨rfl, h4, -⟩ | ⟨hlo, -, rfl | ⟨rfl, h4⟩⟩
    · simp [admitted, h4]
    · simp [admitted, hlo]
    · simp [admitted, h4]
  have hx : access s.cfg w (s.cfg.pBase + off) = .reach (targetAt off) := by
    rw [access_inWindow s.cfg w (by omega), if_pos hadmitted]
  exact hostWrite_busy_input v hx hb (isCeInput_targetAt (by omega))

/-- Settles O45: one write each to KEY, BLK and ARG0, and the reads after it. -/
theorem keyWriteSetsItsWordAndKw : Obligations.KeyWriteSetsItsWordAndKw := by
  intro k v s hb
  have hidle (x : Target) : (s.ce.busy && x.isCeInput) = false := by rw [hb]; rfl
  refine ⟨⟨s.writeKey k v, ?_, ?_, ?_, Ce.keyv_iff _, ?_, rfl, ?_⟩, ⟨s.writeBlk k v, ?_, ?_, ?_, rfl, ?_⟩,
    ⟨s.writeArg0 v, ?_, rfl, rfl, rfl, rfl, ?_⟩⟩
  · exact hostWrite_reg v (by omega) (by omega) (regAt_key k) (hidle _)
  · exact fun j => Quad.get_set s.ce.key k j v
  · exact fun j => getLsbD_markWritten s.ce.kw k j
  · exact fun j i hi => Quad.byteAt_bytes _ j hi
  · exact hostRead_reg (s := s.writeKey k v) (by omega) (by omega) (regAt_key k) (Bool.and_false _)
  · exact hostWrite_reg v (by omega) (by omega) (regAt_blk k) (hidle _)
  · exact fun j => Quad.get_set s.ce.blk k j v
  · exact fun j i hi => Quad.byteAt_bytes _ j hi
  · intro j
    rw [← Quad.get_set]
    exact hostRead_reg (s := s.writeBlk k v) (by omega) (by omega) (regAt_blk j) (Bool.and_false _)
  · exact hostWrite_reg v (by decide) rfl rfl (hidle _)
  · exact hostRead_reg (s := s.writeArg0 v) (by decide) rfl rfl (Bool.and_false _)

/-- Settles O49: the reset action puts the registers and the hidden state at the values of R60. -/
theorem resetLeavesResetValues : Obligations.ResetLeavesResetValues := by
  intro s
  refine ⟨s.resetAction, rfl, fun n hn => ⟨loadReg s.resetAction (regAt (4 * n)), ?_, ?_⟩,
    rfl, rfl, rfl, rfl, rfl, fun b => ?_, rfl, rfl⟩
  · exact hostRead_reg (s := s.resetAction) (by omega) (by omega) rfl rfl
  · rw [loadReg_resetAction, loadReg_reset hn]
  · cases b <;> rfl

/-- Settles O50: reads of registers that are no CE outputs, ignored writes, and the CE outputs while BUSY = 0. -/
theorem reservedAndReadOnlyIgnoreWrites : Obligations.ReservedAndReadOnlyIgnoreWrites := by
  intro n v s reads
  have hreg {off : Nat} {r : Reg} (hlt : off < 0x100) (h4 : off % 4 = 0) (hr : regAt off = r)
      (hout : (Target.reg r).isCeOutput = false) : reads off (loadReg s r) :=
    hostRead_reg hlt h4 hr (by rw [hout, Bool.and_false])
  refine ⟨fun h1 h2 => ⟨hreg (by omega) (by omega) (regAt_reserved h1) rfl, ?_⟩, fun h => ?_,
    fun h1 h2 => ⟨?_, fun h4 => ?_⟩,
    hreg (by decide) rfl rfl rfl, hreg (by decide) rfl rfl rfl, hreg (by decide) rfl rfl rfl,
    hreg (by decide) rfl rfl rfl, hreg (by decide) rfl rfl rfl, hreg (by decide) rfl rfl rfl,
    hreg (by decide) rfl rfl rfl, fun k => ⟨?_, ?_⟩, fun hb => ?_⟩
  · exact hostWrite_readOnly h2 (by rw [regAt_reserved h1]; rfl) v s
  · have hn : n < 25 := by omega
    have hreadOnly : ∀ m < 25, (m = 0 ∨ m = 6 ∨ m = 7 ∨ (16 ≤ m ∧ m ≤ 19) ∨ (22 ≤ m ∧ m ≤ 24)) →
        (regAt (4 * m)).readOnly = true := by decide
    exact hostWrite_readOnly (by omega) (hreadOnly n hn h) v s
  · exact hostWrite_readOnlyBuf v s h1 h2 (by simp [admitted]; omega)
  · exact hostWrite_readOnlyBuf v s h1 h2 (by simp [admitted, h4])
  · exact hreg (by omega) (by omega) (regAt_key k) rfl
  · exact hreg (by omega) (by omega) (regAt_blk k) rfl
  · have hidle {off : Nat} {r : Reg} (hlt : off < 0x100) (h4 : off % 4 = 0) (hr : regAt off = r) :
        reads off (loadReg s r) := hostRead_reg hlt h4 hr (by rw [hb]; rfl)
    exact ⟨hidle (by decide) rfl rfl, hidle (by decide) rfl rfl, fun k =>
      ⟨hidle (by omega) (by omega) (regAt_tag k), fun i hi => Quad.byteAt_bytes _ k hi⟩⟩

/-- Settles O43: a CMD write is never a dropped input write, and BUSY decides its two outcomes. -/
theorem cmdWriteAcceptedOrDropped : Obligations.CmdWriteAcceptedOrDropped := by
  intro v s
  have hwrite : hostWrite .w32 (s.cfg.pBase + 0x00C) v s = .next (writeCmd v s) :=
    hostWrite_reg v (by decide) rfl rfl (Bool.and_false _)
  refine ⟨fun hb => ⟨s.acceptCmd v, ?_, rfl, rfl⟩, fun hb => ?_, ?_⟩
  · rw [hwrite, writeCmd, hb]; rfl
  · rw [hwrite, writeCmd, hb]; rfl
  · exact hostRead_reg (by decide) rfl rfl (Bool.and_false _)

/-- Settles O44: bits 7:0 of the word reach the stored minimum, which the read extends by zeros. -/
theorem maxplWriteStoresMinimum : Obligations.MaxplWriteStoresMinimum := by
  intro v s hb
  have hstored : (s.writeMaxpl (v.setWidth 8)).ce.maxpl.toNat = min (v.toNat % 256) 246 := by
    rw [State.writeMaxpl_toNat, BitVec.toNat_setWidth]
  refine ⟨s.writeMaxpl (v.setWidth 8), hostWrite_reg v (by decide) rfl rfl (by rw [hb]; rfl), hstored, rfl,
    (s.writeMaxpl (v.setWidth 8)).ce.maxpl.setWidth 32,
    hostRead_reg (s := s.writeMaxpl _) (by decide) rfl rfl (Bool.and_false _), ?_⟩
  rw [BitVec.toNat_setWidth, Nat.mod_eq_of_lt (by omega), hstored]

/-- Settles O46, from the bits of the STATUS word. -/
theorem statusReadAndWriteOneToClear : Obligations.StatusReadAndWriteOneToClear := by
  intro v s
  obtain ⟨hbusy, hdone, hkeyv, hcmdovr, hwerr⟩ := s.ce.statusWord_flags
  have hread : hostRead .w32 (s.cfg.pBase + 0x008) s = .next { s with hostData := some s.ce.statusWord } :=
    hostRead_reg (by decide) rfl rfl (Bool.and_false _)
  refine ⟨⟨s.ce.statusWord, hread, hbusy, hdone, hkeyv, hcmdovr, hwerr, ?_, ?_, ?_⟩,
    hostWrite_reg v (by decide) rfl rfl (Bool.and_false _)⟩
  · exact extractLsb'_eq_zero fun i hi => s.ce.statusWord_reserved (by omega)
  · rw [Ce.statusWord_result]; cases s.ce.result <;> rfl
  · exact extractLsb'_eq_zero fun i hi => s.ce.statusWord_reserved (by omega)

/-- Settles O47, from the bits of the SER_STATUS and SER_DBG words. -/
theorem serialStatusAndDebugReads : Obligations.SerialStatusAndDebugReads := by
  intro v s
  obtain ⟨hrxrdy, hovr, hckerr, hlenerr, hsynerr, hcmderr⟩ := s.scu.statusWord_flags
  refine ⟨⟨s.scu.statusWord, ?_, hrxrdy, hovr, hckerr, hlenerr, hsynerr, hcmderr, ?_⟩,
    ⟨s.scu.dec.dbgWord, ?_, ?_, s.scu.dec.dbgWord_esc, ?_, s.scu.dec.dbgWord_pos, s.scu.dec.dbgWord_dlen⟩,
    hostWrite_reg v (by decide) rfl rfl (Bool.and_false _)⟩
  · exact hostRead_reg (by decide) rfl rfl (Bool.and_false _)
  · exact extractLsb'_eq_zero fun i hi => s.scu.statusWord_reserved (by omega) (by omega)
  · exact hostRead_reg (by decide) rfl rfl (Bool.and_false _)
  · rw [Decoder.dbgWord_phase]; cases s.scu.dec.phase <;> rfl
  · exact extractLsb'_eq_zero fun i hi => s.scu.dec.dbgWord_reserved (by omega) (by omega)

/-- Settles O48: bit 0 chooses between the reset action and the enables. -/
theorem ctrlWriteResetsOrEnables : Obligations.CtrlWriteResetsOrEnables := by
  intro v s
  have hwrite : hostWrite .w32 (s.cfg.pBase + 0x004) v s = .next (writeCtrlReg v s) :=
    hostWrite_reg v (by decide) rfl rfl (Bool.and_false _)
  refine ⟨fun h => ⟨s.resetAction, ?_, rfl, ?_⟩, fun h => ⟨s.writeCtrl v, ?_, rfl, ?_⟩⟩
  · rw [hwrite, writeCtrlReg, if_pos h]
  · have hread : loadReg s.resetAction .ctrl = 0 := by rw [loadReg_resetAction]; decide
    rw [← hread]
    exact hostRead_reg (s := s.resetAction) (by decide) rfl rfl rfl
  · rw [hwrite, writeCtrlReg, if_neg (by rw [h]; decide)]
  · rw [← s.writeCtrl_word]
    exact hostRead_reg (s := s.writeCtrl v) (by decide) rfl rfl (Bool.and_false _)

/-- Settles O53: IRQ reads DONE, RXRDY, the error flags and the enables, which are bits of the three words. -/
theorem irqFollowsReadRegisters : Obligations.IrqFollowsReadRegisters := by
  intro s
  obtain ⟨-, hdone, -, -, -⟩ := s.ce.statusWord_flags
  obtain ⟨hrxrdy, hovr, hckerr, hlenerr, hsynerr, hcmderr⟩ := s.scu.statusWord_flags
  obtain ⟨hdoneIe, hsrxIe, hserrIe⟩ := s.ctrl.word_flags
  simp only [loadReg, hdone, hrxrdy, hovr, hckerr, hlenerr, hsynerr, hcmderr, hdoneIe, hsrxIe, hserrIe, State.irq,
    Scu.anyError]

/-- Settles O56: reset is a state whose units hold their reset values. -/
theorem resetMeetsInvariant : Obligations.ResetMeetsInvariant := inv_of_units_reset rfl rfl rfl

end Sys2Proof.Machine

/-! SUPPORT. Each unit's commands work on that unit alone (R98), and a pending command's inputs are out of the host's
reach (R56, R92): what a command gives is the same in any surroundings. -/

namespace Sys2Proof.Machine

/-! ### The SCU in other surroundings -/

/-- `r` with the serial codec unit of `s`, and the epoch that names its unwritten bytes (R302). -/
def State.serialInto (s r : State) : State := { r with scu := s.scu, epoch := s.epoch }

@[simp] theorem State.serialInto_scu (s r : State) : (s.serialInto r).scu = s.scu := rfl

/-- A state that shares the SCU and the epoch is its own surroundings. -/
theorem State.serialInto_eq_self {s r : State} (hscu : r.scu = s.scu) (hepoch : r.epoch = s.epoch) :
    s.serialInto r = r := by rw [State.serialInto, ← hscu, ← hepoch]

/-- In any surroundings `f` does the same to the SCU, and changes nothing else. -/
def SerialLocal (f : State → State) : Prop :=
  ∀ s r : State, f (s.serialInto r) = { s.serialInto r with scu := (f s).scu }

/-- An operation on the SCU alone changes nothing else of the machine. -/
theorem SerialLocal.frame {f : State → State} (h : SerialLocal f) (s : State) : f s = { s with scu := (f s).scu } :=
  h s s

theorem serialLocal_setCmderr : SerialLocal State.setCmderr := fun _ _ => rfl
theorem serialLocal_setRxrdy (b : Bool) : SerialLocal fun s => s.setRxrdy b := fun _ _ => rfl
theorem serialLocal_setDec (d : Decoder) : SerialLocal fun s => s.setDec d := fun _ _ => rfl

/-- SENC (R236) reads STBUF and writes EBUF and SER_ELEN. -/
theorem serialLocal_sencEffect (arg : Byte) : SerialLocal (sencEffect arg) := fun _ _ => rfl

/-- A case distinction on what the SCU holds, between two operations on it alone. -/
theorem SerialLocal.ite {p : Scu → Prop} [∀ u, Decidable (p u)] {f g : State → State} (hf : SerialLocal f)
    (hg : SerialLocal g) : SerialLocal fun s => if p s.scu then f s else g s := by
  intro s r
  by_cases h : p s.scu
  · simp only [State.serialInto_scu, if_pos h, hf s r]
  · simp only [State.serialInto_scu, if_neg h, hg s r]

/-- Replacing the decoder state after an operation on the SCU alone. -/
theorem SerialLocal.thenSetDec {f : State → State} (hf : SerialLocal f) (d : Decoder → Decoder) :
    SerialLocal fun s => (f s).setDec (d s.scu.dec) := by
  intro s r
  show (f (s.serialInto r)).setDec (d s.scu.dec) = _
  rw [hf]; rfl

/-! The decoder's rules, one by one: each is a case distinction on the decoder and RXRDY. -/

theorem serialLocal_decodeDelimiter : SerialLocal decodeDelimiter :=
  have hflag : SerialLocal fun s => if s.scu.dec.phase ≠ .hunt then s.setSynerr else s :=
    .ite (p := fun u => u.dec.phase ≠ .hunt) (fun _ _ => rfl) (fun _ _ => rfl)
  hflag.thenSetDec fun _ => ⟨.lenHi, false, 0, 0, 0⟩

theorem serialLocal_decodeLenHi (v : Byte) : SerialLocal (decodeLenHi v) := fun _ _ => rfl

theorem serialLocal_decodeLenLo (v : Byte) : SerialLocal (decodeLenLo v) :=
  .ite (p := fun u => (u.dec.dlen ||| v.setWidth 16).toNat > serMaxBody) (fun _ _ => rfl)
    (.ite (p := fun u => u.dec.dlen ||| v.setWidth 16 = 0) (fun _ _ => rfl) (fun _ _ => rfl))

theorem serialLocal_decodeData (v : Byte) : SerialLocal (decodeData v) := fun _ _ => rfl

theorem serialLocal_decodeCksum (v : Byte) : SerialLocal (decodeCksum v) :=
  have hframe : SerialLocal fun s =>
      if v = 0xFF - s.scu.dec.sum then if s.scu.rxrdy = true then s.setOvr else deliver s else s.setCkerr :=
    .ite (p := fun u => v = 0xFF - u.dec.sum)
      (.ite (p := fun u => u.rxrdy = true) (fun _ _ => rfl) (fun _ _ => rfl)) (fun _ _ => rfl)
  hframe.thenSetDec fun d => { d with phase := .hunt }

theorem serialLocal_decodeByPhase (v : Byte) : SerialLocal (decodeByPhase v) := by
  intro s r
  have hinto : (s.serialInto r).scu.dec.phase = s.scu.dec.phase := rfl
  cases hp : s.scu.dec.phase with
  | hunt => simp only [decodeByPhase, hinto, hp]; rfl
  | lenHi => simp only [decodeByPhase, hinto, hp, serialLocal_decodeLenHi v s r]
  | lenLo => simp only [decodeByPhase, hinto, hp, serialLocal_decodeLenLo v s r]
  | data => simp only [decodeByPhase, hinto, hp, serialLocal_decodeData v s r]
  | cksum => simp only [decodeByPhase, hinto, hp, serialLocal_decodeCksum v s r]

/-- One byte fed to the decoder, by the four kinds of byte of R239 to R242. -/
theorem serialLocal_decoderStep (b : Byte) : SerialLocal (decoderStep b) := by
  intro s r
  rcases s.scu.dec.byte_cases b with rfl | ⟨hb, hhunt⟩ | ⟨rfl, hphase, hesc⟩ | htakes
  · rw [decoderStep_delimiter, decoderStep_delimiter, serialLocal_decodeDelimiter]
  · rw [decoderStep_hunt hb hhunt, decoderStep_hunt hb (s := s.serialInto r) hhunt]; rfl
  · rw [decoderStep_escape hphase hesc, decoderStep_escape (s := s.serialInto r) hphase hesc]; rfl
  · rw [decoderStep_takes htakes, decoderStep_takes (s := s.serialInto r) htakes]
    exact serialLocal_decodeByPhase _ (s.setDec { s.scu.dec with esc := false }) r

/-- A checked SC command (R119) is an operation on the SCU alone when its effect is. -/
theorem SerialLocal.checkedSer {legal : Bool} {e : State → State} (he : SerialLocal e) :
    ∃ f, SerialLocal f ∧ ∀ s, Machine.checkedSer legal e s = .next (f s) := by
  cases legal with
  | true => exact ⟨e, he, fun _ => rfl⟩
  | false => exact ⟨State.setCmderr, serialLocal_setCmderr, fun _ => rfl⟩

/-- Every SC command answers, and works on the SCU alone (R98). -/
theorem exec_serialLocal {i : Instr} (hf : i.format = .sc) : ∃ f, SerialLocal f ∧ ∀ s, exec i s = .next (f s) := by
  cases i with
  | senc rsv arg => exact (serialLocal_sencEffect arg).checkedSer
  | srxb rsv arg => exact (serialLocal_decoderStep arg).checkedSer
  | srxack rsv arg => exact (serialLocal_setRxrdy false).checkedSer
  | srxrst rsv arg => exact (serialLocal_setDec .reset).checkedSer
  | aesenc | ctrxor | cmac | micgen | sealFrame | openFrame | keyclr => cases hf

/-- A word decodes to a command of the format it is decoded in. -/
theorem format_of_decode {f : Format} {w : Word} {i : Instr} (h : decode f w = .ok i) : i.format = f := by
  cases f with
  | ce => simp only [decode, decodeCe] at h; split_ifs at h <;> cases h <;> rfl
  | sc => simp only [decode, decodeSc] at h; split_ifs at h <;> cases h <;> rfl

/-- Every SER_CMD write answers, and works on the SCU alone (R98, R119). -/
theorem writeSerCmd_serialLocal (v : Word) : ∃ f, SerialLocal f ∧ ∀ s, writeSerCmd v s = .next (f s) := by
  unfold writeSerCmd
  split
  · next i hi => exact exec_serialLocal (format_of_decode hi)
  · exact ⟨State.setCmderr, serialLocal_setCmderr, fun _ => rfl⟩

/-! ### The CE in other surroundings -/

/-- `r` with what the engine step reads taken from `s`: the parameters, the epoch and the CE, latch included, but for
the flags DONE, CMDOVR and WERR, which it does not read and which stay r's. -/
def State.engineInto (s r : State) : State :=
  { r with
    cfg := s.cfg
    epoch := s.epoch
    ce := { s.ce with done := r.ce.done, cmdovr := r.ce.cmdovr, werr := r.ce.werr } }

/-- `r` after an engine step that gives the results `t` holds: those results, the latch empty and DONE = 1 (R306). -/
def State.withResults (r t : State) : State :=
  { r with ce := { r.ce with
      latch := none, done := true, result := t.ce.result, rlen := t.ce.rlen, mic := t.ce.mic, tag := t.ce.tag
      key := t.ce.key, kw := t.ce.kw, fbuf := t.ce.fbuf } }

/-- `e` always answers, and in any surroundings it gives the same results and changes nothing else. -/
def EngineLocal (e : State → Host.Outcome State Fault Refusal) : Prop :=
  ∀ s, ∃ t, e s = .next t ∧ ∀ r, e (s.engineInto r) = .next ((s.engineInto r).withResults t)

/-- What such an operation answers in other surroundings. -/
theorem EngineLocal.into {e : State → Host.Outcome State Fault Refusal} (he : EngineLocal e) {s t : State}
    (h : e s = .next t) (r : State) : e (s.engineInto r) = .next ((s.engineInto r).withResults t) := by
  obtain ⟨u, hu, hinto⟩ := he s
  obtain rfl : u = t := Host.Outcome.next.inj (hu.symm.trans h)
  exact hinto r

/-- Such an operation changes nothing but its results. -/
theorem EngineLocal.frame {e : State → Host.Outcome State Fault Refusal} (he : EngineLocal e) {s t : State}
    (h : e s = .next t) : t = s.withResults t := Host.Outcome.next.inj (h.symm.trans (he.into h s))

/-! The effects, one by one. -/

theorem engineLocal_raiseResult (code : ResultCode) : EngineLocal (raiseResult code) := fun _ => ⟨_, rfl, fun _ => rfl⟩
theorem engineLocal_aesencEffect : EngineLocal aesencEffect := fun _ => ⟨_, rfl, fun _ => rfl⟩
theorem engineLocal_ctrxorEffect (off len : Byte) : EngineLocal (ctrxorEffect off len) :=
  fun _ => ⟨_, rfl, fun _ => rfl⟩
theorem engineLocal_cmacEffect (off len : Byte) : EngineLocal (cmacEffect off len) := fun _ => ⟨_, rfl, fun _ => rfl⟩
theorem engineLocal_micgenEffect (len : Byte) : EngineLocal (micgenEffect len) := fun _ => ⟨_, rfl, fun _ => rfl⟩
theorem engineLocal_sealEffect (len : Byte) : EngineLocal (sealEffect len) := fun _ => ⟨_, rfl, fun _ => rfl⟩
theorem engineLocal_keyclrEffect : EngineLocal fun s => finish .ok s.clearKey := fun _ => ⟨_, rfl, fun _ => rfl⟩

/-- OPEN (R205) compares the MIC of the same FBUF bytes in any surroundings, so it takes the same branch. -/
theorem engineLocal_openEffect (len : Byte) : EngineLocal (openEffect len) := by
  intro s
  rcases openEffect_cases len s with ⟨hm, h⟩ | ⟨hm, h⟩
  · exact ⟨_, h, fun _ => if_pos hm⟩
  · exact ⟨_, h, fun _ => if_neg (not_not.2 hm)⟩

/-- A checked CE command (R271) answers alike in any surroundings when its checks and its effect do. -/
theorem EngineLocal.checked {p : Bool} {l k : State → Bool} {e : State → Host.Outcome State Fault Refusal}
    (hl : ∀ s r : State, l (s.engineInto r) = l s) (hk : ∀ s r : State, k (s.engineInto r) = k s) (he : EngineLocal e) :
    EngineLocal fun s => Machine.checked p (l s) (k s) e s := by
  intro s
  simp only [hl, hk]
  cases p with
  | false => exact engineLocal_raiseResult .paramInvalid s
  | true =>
    cases l s with
    | true => exact engineLocal_raiseResult .lengthError s
    | false =>
      cases k s with
      | true => exact engineLocal_raiseResult .cryptoError s
      | false => exact he s

/-- Every CE command answers alike in any surroundings (R98). -/
theorem exec_engineLocal {i : Instr} (hf : i.format = .ce) : EngineLocal (exec i) := by
  cases i with
  | aesenc rsv off len => exact engineLocal_aesencEffect.checked (fun _ _ => rfl) (fun _ _ => rfl)
  | ctrxor rsv off len => exact (engineLocal_ctrxorEffect off len).checked (fun _ _ => rfl) (fun _ _ => rfl)
  | cmac rsv off len => exact (engineLocal_cmacEffect off len).checked (fun _ _ => rfl) (fun _ _ => rfl)
  | micgen rsv off len => exact (engineLocal_micgenEffect len).checked (fun _ _ => rfl) (fun _ _ => rfl)
  | sealFrame rsv off len => exact (engineLocal_sealEffect len).checked (fun _ _ => rfl) (fun _ _ => rfl)
  | openFrame rsv off len => exact (engineLocal_openEffect len).checked (fun _ _ => rfl) (fun _ _ => rfl)
  | keyclr rsv off len => exact engineLocal_keyclrEffect.checked (fun _ _ => rfl) (fun _ _ => rfl)
  | senc | srxb | srxack | srxrst => cases hf

/-- So does the engine step of any latched word (R116, R305). -/
theorem engineRun_engineLocal (w : Word) : EngineLocal (engineRun w) := by
  unfold engineRun
  split
  · next i hi => exact exec_engineLocal (format_of_decode hi)
  · exact engineLocal_raiseResult .illegalCmd

/-! ### The host's moves while a command is pending -/

section
variable {s t : State}

/-- A register write that is not dropped, when it leaves a pending command pending, changes nothing the engine step
reads: what it could change is a CE input, and such a write is dropped (R58). -/
theorem storeReg_engineInto {r : Reg} {v : Word} (h : storeReg r v s = .next t) (hs : s.ce.busy = true)
    (ht : t.ce.busy = true) (hin : (Target.reg r).isCeInput = false) : s.engineInto t = t := by
  cases r with
  | ctrl =>
    cases h
    unfold writeCtrlReg at ht ⊢
    split at ht
    · cases ht
    · next hsrst => rw [if_neg hsrst]; rfl
  | cmd => cases h; rw [writeCmd, if_pos hs]; rfl
  | serCmd =>
    obtain ⟨f, hf, hrun⟩ := writeSerCmd_serialLocal v
    obtain rfl : f s = t := Host.Outcome.next.inj ((hrun s).symm.trans h)
    rw [hf.frame s]; rfl
  | status | serStatus => cases h; rfl
  | id | rlen | mic | tag | serRxlen | serElen | serDbg | reserved => cases h; rfl
  | maxpl | arg0 | key | blk => cases hin

/-- An admitted write, dropped or not, that leaves a pending command pending. -/
theorem writeTarget_engineInto {w : Width} {x : Target} {v : Word} (h : writeTarget w x v s = .next t)
    (hs : s.ce.busy = true) (ht : t.ce.busy = true) : s.engineInto t = t := by
  rcases writeTarget_next h with ⟨-, rfl⟩ | ⟨hin, hstore⟩
  · rfl
  · rw [hs, Bool.true_and] at hin
    rcases hstore with ⟨r, rfl, hr⟩ | ⟨b, off, rfl, rfl⟩
    · exact storeReg_engineInto hr hs ht hin
    · cases b with
      | fbuf => cases hin
      | stbuf | srbuf | ebuf | abuf => rfl

/-- A host move that leaves a pending command pending changes nothing the engine step reads (R56, R92). -/
theorem hostMove_engineInto {op : HostOp} (h : hostMove op s = .next t) (hs : s.ce.busy = true)
    (ht : t.ce.busy = true) : s.engineInto t = t := by
  rcases hostMove_next h with ⟨w, addr, x, -, -, rfl⟩ | ⟨w, addr, v, x, -, -, hw⟩ |
    ⟨addr, m, v, x, -, -, rfl⟩ | ⟨-, rfl⟩
  · rw [readTarget_frame]; rfl
  · exact writeTarget_engineInto hw hs ht
  · rcases pollAgain_cases addr m v (readTarget .w32 x s) with hp | hp
    · rw [hp, readTarget_frame]; rfl
    · rw [hp, readTarget_frame]; rfl
  · cases ht

end

end Sys2Proof.Machine

/-! SUPPORT. The statements about the two units and about a pending command, settled. -/

namespace Sys2Proof.Machine

/-- Settles O58: such a move leaves what the engine step reads, the latch and every CE input among it. -/
theorem engineInputsHoldWhileBusy : Obligations.EngineInputsHoldWhileBusy := by
  intro op s t hs h ht
  rw [← hostMove_engineInto h hs ht]
  exact ⟨rfl, rfl, rfl, rfl, rfl, rfl, fun _ => rfl⟩

/-- Settles O59: the state after the move is the state before it in other surroundings, as far as the engine reads. -/
theorem raceCannotChangeResult : Obligations.RaceCannotChangeResult := by
  intro op w s t hw h ht
  have hs : s.ce.busy = true := by rw [Ce.busy, hw]; rfl
  have hsame := hostMove_engineInto h hs ht
  obtain ⟨u, hu, hinto⟩ := engineRun_engineLocal w s
  have hframe : u = s.withResults u := (engineRun_engineLocal w).frame hu
  refine ⟨u, t.withResults u, hu, hsame ▸ hinto t, rfl, rfl, rfl, rfl, rfl, rfl, fun a => ?_⟩
  rw [hframe, ← hsame]; rfl

/-- Settles O39: the commands of each unit do the same in any surroundings, their own included. -/
theorem unitsShareNothing : Obligations.UnitsShareNothing := by
  refine ⟨fun i s t hf h => ?_, fun i s t hf h => ?_⟩
  · obtain ⟨f, hlocal, hrun⟩ := exec_serialLocal hf
    obtain rfl : f s = t := Host.Outcome.next.inj ((hrun s).symm.trans h)
    rw [hlocal.frame s]
    refine ⟨rfl, rfl, fun s' hscu hepoch => ⟨f s', hrun s', ?_⟩⟩
    rw [← State.serialInto_eq_self hscu hepoch, hlocal s s']
  · have hlocal := exec_engineLocal hf
    rw [hlocal.frame h]
    refine ⟨rfl, rfl, fun s' hce hcfg hepoch => ⟨s'.withResults t, ?_, ?_⟩⟩
    · have hself : s.engineInto s' = s' := by rw [State.engineInto, ← hce, ← hcfg, ← hepoch]
      have hrun := hlocal.into h s'
      rwa [hself] at hrun
    · simp only [State.withResults, hce]

end Sys2Proof.Machine

/-! SUPPORT. The bus: every admitted access answers (R82, R83), an admitted read gives what the state it reads holds
(R88), and the buffers' bytes as both widths of access carry them (R84, R85). -/

namespace Sys2Proof.Machine

/-! ### Every admitted access answers -/

/-- An access is admitted exactly inside the window, for a word at a multiple of 4 or a byte at 0x100 or above (R80,
R82). -/
theorem exists_access_reach_iff (p : Config.Params) (w : Width) (addr : Nat) :
    (∃ x, access p w addr = .reach x) ↔
      ∃ off, addr = p.pBase + off ∧ off < 0x800 ∧ ((w = .w32 ∧ off % 4 = 0) ∨ (w = .w8 ∧ 0x100 ≤ off)) := by
  have hadmitted (off : Nat) :
      admitted w off = true ↔ (w = .w32 ∧ off % 4 = 0) ∨ (w = .w8 ∧ 0x100 ≤ off) := by
    cases w <;> simp [admitted]
  simp only [access_reach_iff, hadmitted]
  constructor
  · rintro ⟨_, off, haddr, hlt, ha, -⟩
    exact ⟨off, haddr, hlt, ha⟩
  · rintro ⟨off, haddr, hlt, ha⟩
    exact ⟨targetAt off, off, haddr, hlt, ha, rfl⟩

/-- An access that reaches no target faults the host (R83, R279). -/
theorem host_faults_of_not_reach {w : Width} {addr : Nat} {s : State} (v : Word)
    (h : ¬ ∃ x, access s.cfg w addr = .reach x) :
    (∃ f, hostRead w addr s = .fault f) ∧ ∃ f, hostWrite w addr v s = .fault f := by
  simp only [hostRead, hostWrite]
  cases hx : access s.cfg w addr with
  | noResponse => exact ⟨⟨_, rfl⟩, _, rfl⟩
  | busError => exact ⟨⟨_, rfl⟩, _, rfl⟩
  | reach x => exact absurd ⟨x, hx⟩ h

/-- Every register write answers, a SER_CMD write and its command included (R44, R119). -/
theorem storeReg_answers (r : Reg) (v : Word) (s : State) : ∃ t, storeReg r v s = .next t := by
  cases r with
  | serCmd =>
    obtain ⟨f, -, hrun⟩ := writeSerCmd_serialLocal v
    exact ⟨f s, hrun s⟩
  | ctrl | status | cmd | maxpl | arg0 | key | blk | serStatus => exact ⟨_, rfl⟩
  | id | rlen | mic | tag | serRxlen | serElen | serDbg | reserved => exact ⟨_, rfl⟩

/-- Every admitted write answers, dropped or not. -/
theorem writeTarget_answers (w : Width) (x : Target) (v : Word) (s : State) : ∃ t, writeTarget w x v s = .next t := by
  unfold writeTarget
  split
  · exact ⟨_, rfl⟩
  · cases x with
    | reg r => exact storeReg_answers r v s
    | buf b off => exact ⟨_, rfl⟩

/-! ### What a read returns -/

/-- The stored value of a target is a function of the block's registers, buffers and epoch (R88, R302). -/
theorem storedData_congr {s r : State} (hctrl : r.ctrl = s.ctrl) (hce : r.ce = s.ce) (hscu : r.scu = s.scu)
    (hepoch : r.epoch = s.epoch) (w : Width) (x : Target) : storedData w x r = storedData w x s := by
  cases x with
  | reg q => cases q <;> simp only [storedData, loadReg, hctrl, hce, hscu]
  | buf b off =>
    have hbyte (a : Nat) : r.readByte b a = s.readByte b a := by
      cases b <;> simp only [State.readByte, State.mem, hce, hscu, hepoch]
    simp only [storedData, loadBuf, hbyte]

/-! ### The host buffers -/

/-- Buffer `b` stands in the window from offset `base` on, and a read of it returns its bytes (R81, R307). -/
def State.showsBuf (s : State) (b : Buf) (base size : Nat) : Prop :=
  (b = .fbuf ∧ base = 0x100 ∧ size = 256 ∧ s.ce.busy = false) ∨ (b = .stbuf ∧ base = 0x200 ∧ size = 256) ∨
    (b = .srbuf ∧ base = 0x300 ∧ size = 256) ∨ (b = .ebuf ∧ base = 0x400 ∧ size = 1024)

section
variable {s : State} {b : Buf} {base size o : Nat}

/-- Where the buffer stands, every offset is admitted for a byte, maps to the buffer, and words are aligned alike. -/
theorem State.showsBuf.place (h : s.showsBuf b base size) (ho : o < size) :
    targetAt (base + o) = .buf b o ∧ 0x100 ≤ base + o ∧ base + o < 0x800 ∧ base % 4 = 0 := by
  rcases h with ⟨rfl, rfl, rfl, -⟩ | ⟨rfl, rfl, rfl⟩ | ⟨rfl, rfl, rfl⟩ | ⟨rfl, rfl, rfl⟩
  · exact ⟨targetAt_fbuf ho, by omega, by omega, rfl⟩
  · exact ⟨targetAt_stbuf ho, by omega, by omega, rfl⟩
  · exact ⟨targetAt_srbuf ho, by omega, by omega, rfl⟩
  · exact ⟨targetAt_ebuf, by omega, by omega, rfl⟩

theorem State.showsBuf.access_byte (h : s.showsBuf b base size) (ho : o < size) :
    access s.cfg .w8 (s.cfg.pBase + (base + o)) = .reach (.buf b o) := by
  obtain ⟨htarget, hlo, hlt, -⟩ := h.place ho
  rw [Machine.access_byte s.cfg hlt hlo, htarget]

theorem State.showsBuf.access_word (h : s.showsBuf b base size) (ho : o < size) (h4 : o % 4 = 0) :
    access s.cfg .w32 (s.cfg.pBase + (base + o)) = .reach (.buf b o) := by
  obtain ⟨htarget, -, hlt, hbase⟩ := h.place ho
  rw [Machine.access_word s.cfg hlt (by omega), htarget]

/-- Its reads are not the unspecified ones of R307. -/
theorem State.showsBuf.notHidden (h : s.showsBuf b base size) : (s.ce.busy && (Target.buf b o).isCeOutput) = false := by
  rcases h with ⟨rfl, -, -, hb⟩ | ⟨rfl, -⟩ | ⟨rfl, -⟩ | ⟨rfl, -⟩
  · rw [hb]; rfl
  · exact Bool.and_false _
  · exact Bool.and_false _
  · exact Bool.and_false _

/-- An 8-bit read returns the buffer's byte (R82, R85). -/
theorem State.showsBuf.hostRead_byte (h : s.showsBuf b base size) (ho : o < size) :
    hostRead .w8 (s.cfg.pBase + (base + o)) s = .next (s.answer ((s.readByte b o).setWidth 32)) :=
  hostRead_stored (h.access_byte ho) h.notHidden

/-- A 32-bit read returns four bytes in their lanes (R84). -/
theorem State.showsBuf.hostRead_word (h : s.showsBuf b base size) (ho : o < size) (h4 : o % 4 = 0) :
    hostRead .w32 (s.cfg.pBase + (base + o)) s = .next (s.answer
      (ofLanes (s.readByte b o) (s.readByte b (o + 1)) (s.readByte b (o + 2)) (s.readByte b (o + 3)))) :=
  hostRead_stored (h.access_word ho h4) h.notHidden

end

/-- Byte i of a word's lanes (R84). -/
theorem byteAt_lanes (v : Word) {i : Nat} (hi : i < 4) : byteAt (lanes v) i = v.extractLsb' (8 * i) 8 := by
  interval_cases i <;> rfl

/-! ### The buffers the host writes -/

/-- A MemWrite stores nothing outside its range. -/
theorem State.sameBytesOutside_memWrite (s : State) (b : Buf) (off : Nat) (bs : List Byte) :
    sameBytesOutside s (s.memWrite b off bs) b off bs.length := fun _ _ h => s.readByte_memWrite_of_notMem h

/-- A buffer the host can write and read back stands at `base`: STBUF, or FBUF while BUSY = 0 (R50, R51, R58). -/
def State.takesBuf (s : State) (b : Buf) (base : Nat) : Prop :=
  (b = .fbuf ∧ base = 0x100 ∧ s.ce.busy = false) ∨ (b = .stbuf ∧ base = 0x200)

section
variable {s : State} {b : Buf} {base o : Nat}

theorem State.takesBuf.bufSize_eq (h : s.takesBuf b base) : bufSize b = 256 := by
  rcases h with ⟨rfl, -⟩ | ⟨rfl, -⟩ <;> rfl

/-- Such a buffer is shown, before a write to it and after. -/
theorem State.takesBuf.shows (h : s.takesBuf b base) : s.showsBuf b base 256 := by
  rcases h with ⟨rfl, rfl, hb⟩ | ⟨rfl, rfl⟩
  · exact .inl ⟨rfl, rfl, rfl, hb⟩
  · exact .inr (.inl ⟨rfl, rfl, rfl⟩)

theorem State.takesBuf.shows_memWrite (h : s.takesBuf b base) (off : Nat) (bs : List Byte) :
    (s.memWrite b off bs).showsBuf b base 256 := by
  rcases h with ⟨rfl, rfl, hb⟩ | ⟨rfl, rfl⟩
  · exact .inl ⟨rfl, rfl, rfl, hb⟩
  · exact .inr (.inl ⟨rfl, rfl, rfl⟩)

/-- A write to it that reaches it stores the bytes it carries. -/
theorem State.takesBuf.hostWrite (h : s.takesBuf b base) {w : Width} {addr : Nat} (v : Word)
    (hx : access s.cfg w addr = .reach (.buf b o)) :
    hostWrite w addr v s = .next (s.memWrite b o (writeBytesOf w v)) := by
  rcases h with ⟨rfl, -, hb⟩ | ⟨rfl, -⟩
  · exact hostWrite_buf v hx (by rw [hb]; rfl)
  · exact hostWrite_buf v hx (Bool.and_false _)

/-- Of the machine it changes FBUF's and STBUF's bytes alone. -/
theorem State.takesBuf.memWrite_frame (h : s.takesBuf b base) (off : Nat) (bs : List Byte) :
    s.memWrite b off bs = { s with
      ce := { s.ce with fbuf := (s.memWrite b off bs).ce.fbuf }
      scu := { s.scu with stbuf := (s.memWrite b off bs).scu.stbuf } } := by
  rcases h with ⟨rfl, -⟩ | ⟨rfl, -⟩ <;> rfl

/-- Lane i of a word written at a multiple of 4 stands at o + i (R84). -/
theorem State.takesBuf.readByte_lanes (h : s.takesBuf b base) (ho : o < 256) (h4 : o % 4 = 0) (v : Word) {i : Nat}
    (hi : i < 4) : (s.memWrite b o (lanes v)).readByte b (o + i) = v.extractLsb' (8 * i) 8 := by
  rw [State.readByte_memWrite_of_mem _ (by omega) (by simp; omega) (by rw [h.bufSize_eq]; omega),
    Nat.add_sub_cancel_left, byteAt_lanes v hi]

/-- The four bytes at o are the word written (R84). -/
theorem State.takesBuf.ofLanes_readByte (h : s.takesBuf b base) (ho : o < 256) (h4 : o % 4 = 0) (v : Word) :
    let t := s.memWrite b o (lanes v)
    ofLanes (t.readByte b o) (t.readByte b (o + 1)) (t.readByte b (o + 2)) (t.readByte b (o + 3)) = v := by
  have h0 := h.readByte_lanes ho h4 v (i := 0) (by decide)
  have h1 := h.readByte_lanes ho h4 v (i := 1) (by decide)
  have h2 := h.readByte_lanes ho h4 v (i := 2) (by decide)
  have h3 := h.readByte_lanes ho h4 v (i := 3) (by decide)
  rw [Nat.add_zero] at h0
  simp only [h0, h1, h2, h3]
  exact ofLanes_lanes v

/-- A byte written stands at its offset (R82). -/
theorem State.takesBuf.readByte_byte (h : s.takesBuf b base) (ho : o < 256) (v : Byte) :
    (s.memWrite b o [v]).readByte b o = v := by
  rw [State.readByte_memWrite_of_mem _ (by omega) (by simp) (by rw [h.bufSize_eq]; omega), Nat.sub_self]
  rfl

end

end Sys2Proof.Machine

/-! SUPPORT. The statements about the bus, settled. -/

namespace Sys2Proof.Machine

/-- Settles O40: an admitted access reaches a target, and every target answers. -/
theorem accessAnsweredIffAdmitted : Obligations.AccessAnsweredIffAdmitted := by
  intro w addr v s ok
  have hok : (∃ x, access s.cfg w addr = .reach x) ↔ ok := exists_access_reach_iff s.cfg w addr
  refine ⟨fun h => ?_, fun h => host_faults_of_not_reach v (mt hok.1 h)⟩
  obtain ⟨x, hx⟩ := hok.2 h
  refine ⟨⟨_, hostRead_of_reach hx⟩, ?_⟩
  rw [hostWrite_of_reach hx]
  exact writeTarget_answers w x v s

/-- Settles O41: a read answers its target's stored value, but for a CE output while BUSY = 1. -/
theorem readHasNoSideEffect : Obligations.ReadHasNoSideEffect := by
  intro w addr s t h
  obtain ⟨x, hx, rfl⟩ := hostRead_next h
  refine ⟨readTarget_frame w x s, fun hopen => ?_⟩
  have hb : (s.ce.busy && x.isCeOutput) = false := by
    rcases hopen with hb | hout
    · rw [hb]; rfl
    · rw [hout x hx]; exact Bool.and_false _
  rw [readTarget_stored hb]
  refine ⟨rfl, fun r hcfg hctrl hce hscu hepoch => ?_⟩
  have hread : hostRead w addr r = .next (r.answer (storedData w x r)) :=
    hostRead_stored (hcfg ▸ hx) (hce ▸ hb)
  exact ⟨_, hread, congrArg some (storedData_congr hctrl hce hscu hepoch w x)⟩

/-- Settles O51: a write stores the bytes it carries, and a read returns the buffer's. -/
theorem wordWriteStoresLanes : Obligations.WordWriteStoresLanes := by
  refine ⟨fun b base o v s (h : s.takesBuf b base) ho => ⟨fun h4 => ?_, ?_⟩,
    fun b base size o s (h : s.showsBuf b base size) ho => ⟨h.hostRead_byte ho, fun h4 => ?_⟩⟩
  · have hlanes {i : Nat} (hi : i < 4) := h.readByte_lanes ho h4 v hi
    have hshows := h.shows_memWrite o (lanes v)
    refine ⟨s.memWrite b o (lanes v), h.hostWrite v (h.shows.access_word ho h4), fun i hi => hlanes hi,
      s.sameBytesOutside_memWrite b o _, h.memWrite_frame o _, ?_, fun i hi => ?_⟩
    · have hread := hshows.hostRead_word ho h4
      rwa [h.ofLanes_readByte ho h4 v, State.memWrite_cfg] at hread
    · have hread := hshows.hostRead_byte (o := o + i) (by omega)
      rwa [hlanes hi, extract_setWidth, State.memWrite_cfg, ← Nat.add_assoc base] at hread
  · have hbyte := h.readByte_byte ho (v.extractLsb' 0 8)
    have hread := (h.shows_memWrite o [v.extractLsb' 0 8]).hostRead_byte ho
    rw [hbyte, extract_setWidth, State.memWrite_cfg] at hread
    exact ⟨s.memWrite b o [v.extractLsb' 0 8], h.hostWrite v (h.shows.access_byte ho), hbyte,
      s.sameBytesOutside_memWrite b o _, h.memWrite_frame o _, hread⟩
  · exact ⟨_, h.hostRead_word ho h4, fun i hi => by
      rw [ofLanes_lane _ _ _ _ hi]; interval_cases i <;> rfl⟩

end Sys2Proof.Machine

/-! SUPPORT. The command words (R110 to R121): in each format decoding inverts encoding, which fields a word's command
requires to be 0, and what a word that breaks such a requirement does. -/

namespace Sys2Proof.Machine

/-! ### Decoding and encoding -/

/-- A command's word decodes to the command in the command's own format. -/
theorem decode_encode (i : Instr) : decode i.format (encode i) = .ok i := by
  cases i with
  | aesenc | ctrxor | cmac | micgen | sealFrame | openFrame | keyclr =>
    simp [decode, decodeCe, encode, Instr.format, Instr.opcode]
  | senc | srxb | srxack | srxrst => simp [decode, decodeSc, encode, Instr.format, Instr.opcode]

/-- A word of format CE with a known OPC is its other three fields and that OPC. -/
theorem ceWord_of_opcOf {w : Word} {opc : Byte} (h : opcOf w = opc) : ceWord (rsvOf w) (offOf w) (lenOf w) opc = w :=
  h ▸ ceWord_fields w

/-- A word of format SC with a known OPC is its other two fields and that OPC. -/
theorem scWord_of_opcOf {w : Word} {opc : Byte} (h : opcOf w = opc) : scWord (serRsvOf w) (argOf w) opc = w :=
  h ▸ scWord_fields w

/-- Decoding drops no bit: the command a word decodes to has that word as its encoding. -/
theorem encode_of_decode {f : Format} {w : Word} {i : Instr} (h : decode f w = .ok i) : encode i = w := by
  cases f with
  | ce =>
    simp only [decode, decodeCe] at h
    split_ifs at h <;> cases h <;> exact ceWord_of_opcOf ‹opcOf w = _›
  | sc =>
    simp only [decode, decodeSc] at h
    split_ifs at h <;> cases h <;> exact scWord_of_opcOf ‹opcOf w = _›

/-- Settles O1: the encoding decodes to the command, and what a word decodes to has its format and its bits. -/
theorem decodeInvertsEncode : Obligations.DecodeInvertsEncode := by
  intro f w i
  constructor
  · exact fun h => ⟨format_of_decode h, encode_of_decode h⟩
  · rintro ⟨rfl, rfl⟩
    exact decode_encode i

/-- Settles O2: each word is the encoding of its command. -/
theorem writtenOutWordsDecode : Obligations.WrittenOutWordsDecode := by
  have hword {f : Format} {w : Word} {i : Instr} (hf : i.format = f) (he : encode i = w) : decode f w = .ok i :=
    (decodeInvertsEncode f w i).2 ⟨hf, he⟩
  exact ⟨hword rfl rfl, hword rfl rfl, hword rfl rfl, hword rfl rfl, hword rfl rfl, hword rfl rfl⟩

/-! ### Assigned OPCs and must-be-zero fields (R114 to R119) -/

/-- Every assigned OPC of format CE names a command (R114). -/
theorem exists_decode_ce {w : Word} (h1 : 1 ≤ (opcOf w).toNat) (h7 : (opcOf w).toNat ≤ 7) :
    ∃ i, decode .ce w = .ok i := by
  simp only [decode, decodeCe]
  split_ifs
  case neg => exfalso; bv_omega
  all_goals exact ⟨_, rfl⟩

/-- The fields a CE command requires to be 0: RSV, and LEN or OFF by its OPC (R117, R118). -/
theorem wellFormed_ce_iff {i : Instr} {w : Word} (h : decode .ce w = .ok i) :
    i.wellFormed = true ↔
      rsvOf w = 0 ∧ ((opcOf w = 1 ∨ opcOf w = 7) → lenOf w = 0 ∧ offOf w = 0) ∧
        ((opcOf w = 4 ∨ opcOf w = 5 ∨ opcOf w = 6) → offOf w = 0) := by
  obtain ⟨hf, rfl⟩ := (decodeInvertsEncode .ce w i).1 h
  cases i with
  | aesenc | keyclr => simp [encode, Instr.opcode, Instr.wellFormed, noOperands, and_assoc, and_comm]
  | micgen | sealFrame | openFrame => simp [encode, Instr.opcode, Instr.wellFormed, lenOnly]
  | ctrxor | cmac => simp [encode, Instr.opcode, Instr.wellFormed]
  | senc | srxb | srxack | srxrst => cases hf

/-- The OPCs of format SC (R115). -/
theorem opcOf_sc_bounds {i : Instr} {w : Word} (h : decode .sc w = .ok i) :
    1 ≤ (opcOf w).toNat ∧ (opcOf w).toNat ≤ 4 := by
  obtain ⟨hf, rfl⟩ := (decodeInvertsEncode .sc w i).1 h
  cases i with
  | senc | srxb | srxack | srxrst => simp [encode, Instr.opcode]
  | aesenc | ctrxor | cmac | micgen | sealFrame | openFrame | keyclr => cases hf

/-- The fields an SC command requires to be 0: RSV, and ARG by its OPC (R119). -/
theorem wellFormed_sc_iff {i : Instr} {w : Word} (h : decode .sc w = .ok i) :
    i.wellFormed = true ↔ serRsvOf w = 0 ∧ ((opcOf w = 3 ∨ opcOf w = 4) → argOf w = 0) := by
  obtain ⟨hf, rfl⟩ := (decodeInvertsEncode .sc w i).1 h
  cases i with
  | senc | srxb | srxack | srxrst => simp [encode, Instr.opcode, Instr.wellFormed]
  | aesenc | ctrxor | cmac | micgen | sealFrame | openFrame | keyclr => cases hf

/-! ### What a malformed command does (R117 to R119) -/

/-- Whatever its other checks and its effect, a CE command that fails the first check ends with PARAM_INVALID (R271). -/
theorem checked_of_param_false {p l k : Bool} {e : State → Host.Outcome State Fault Refusal} {s : State}
    (h : p = false) : checked p l k e s = .next (s.complete .paramInvalid) := by rw [h, checked_param]

/-- Whatever its effect, an SC command that is not legal sets CMDERR (R119). -/
theorem checkedSer_of_legal_false {legal : Bool} {e : State → State} {s : State} (h : legal = false) :
    checkedSer legal e s = .next s.setCmderr := by rw [checkedSer_eq, h]; rfl

/-- A CE command with a nonzero must-be-zero field ends with PARAM_INVALID (R117, R118). -/
theorem exec_ce_malformed {i : Instr} (hf : i.format = .ce) (h : i.wellFormed = false) (s : State) :
    exec i s = .next (s.complete .paramInvalid) := by
  cases i with
  | aesenc | ctrxor | cmac | micgen | sealFrame | openFrame => exact checked_of_param_false h
  | keyclr => exact checked_of_param_false (e := fun s => finish .ok s.clearKey) h
  | senc | srxb | srxack | srxrst => cases hf

/-- An SC command with a nonzero must-be-zero field sets CMDERR (R119). -/
theorem exec_sc_malformed {i : Instr} (hf : i.format = .sc) (h : i.wellFormed = false) (s : State) :
    exec i s = .next s.setCmderr := by
  cases i with
  | senc | srxb => exact checkedSer_of_legal_false h
  | srxack => exact checkedSer_of_legal_false (e := fun s => s.setRxrdy false) h
  | srxrst => exact checkedSer_of_legal_false (e := fun s => s.setDec .reset) h
  | aesenc | ctrxor | cmac | micgen | sealFrame | openFrame | keyclr => cases hf

/-- Settles O3: a CMD write is accepted whatever its OPC, and an unassigned OPC names no command. -/
theorem unassignedOpcodeEndsIllegalCmd : Obligations.UnassignedOpcodeEndsIllegalCmd := by
  intro w s hopc
  refine ⟨fun hidle => ⟨s.acceptCmd w, ?_, rfl, rfl⟩, ?_⟩
  · rw [hostWrite_reg (r := .cmd) w (by decide) rfl rfl (Bool.and_false _), storeReg, writeCmd, Ce.busy, hidle]; rfl
  · have hfield : (opcOf w).toNat = w.toNat % 256 := by simp [opcOf]
    rw [← hfield] at hopc
    exact engineRun_unassigned hopc

/-- Settles O4: the word names a command, and one of the fields that command requires to be 0 is not. -/
theorem nonzeroReservedFieldEndsParamInvalid : Obligations.NonzeroReservedFieldEndsParamInvalid := by
  intro w s opc len off rsv h1 h7 hbad
  obtain ⟨i, hi⟩ := exists_decode_ce h1 h7
  have hmalformed : i.wellFormed = false := by
    rw [← Bool.not_eq_true, wellFormed_ce_iff hi]
    rintro ⟨hrsv, hnone, hoff⟩
    rcases hbad with hne | ⟨hopc, hne | hne⟩ | ⟨hopc, hne⟩
    · exact hne hrsv
    · exact hne (hnone hopc).1
    · exact hne (hnone hopc).2
    · exact hne (hoff hopc)
  rw [engineRun, hi]
  exact exec_ce_malformed (format_of_decode hi) hmalformed s

/-- Settles O5: an illegal word names no command, or one that requires a field to be 0 that is not. -/
theorem illegalSerWordOnlySetsCmderr : Obligations.IllegalSerWordOnlySetsCmderr := by
  intro w s opc arg rsv hbad
  rw [hostWrite_reg (r := .serCmd) w (by decide) rfl rfl (Bool.and_false _), storeReg, writeSerCmd]
  cases hi : decode .sc w with
  | error => rfl
  | ok i =>
    obtain ⟨h1, h4⟩ : 1 ≤ opc.toNat ∧ opc.toNat ≤ 4 := opcOf_sc_bounds hi
    have hmalformed : i.wellFormed = false := by
      rw [← Bool.not_eq_true, wellFormed_sc_iff hi]
      rintro ⟨hrsv, harg⟩
      rcases hbad with hopc | hopc | hne | ⟨hopc, hne⟩
      · omega
      · omega
      · exact hne hrsv
      · exact hne (harg hopc)
    exact exec_sc_malformed (format_of_decode hi) hmalformed s

end Sys2Proof.Machine

/-! SUPPORT. The block cipher (R140 to R149): the S-box table against its definition in GF(2^8), the cipher as a chain of
injective rounds, and what AESENC and KEYCLR are once their checks pass. -/

namespace Sys2Proof.Machine

/-! ### The S-box and its definition (R142) -/

/-- Multiplication in GF(2^8): the multiples of `a` by the powers of 2 that are set in `b`. -/
def gfMul (a b : Byte) : Byte :=
  (List.range 8).foldl (fun acc i => if b.getLsbD i then acc ^^^ xtime^[i] a else acc) 0

/-- The affine half of R142: what the S-box does to an inverse. -/
def sboxAffine (b : Byte) : Byte :=
  b ^^^ b.rotateLeft 1 ^^^ b.rotateLeft 2 ^^^ b.rotateLeft 3 ^^^ b.rotateLeft 4 ^^^ 0x63

/-- The way back through the affine half, from a table entry to the inverse it was made of. -/
def sboxAffineInv (y : Byte) : Byte := y.rotateLeft 1 ^^^ y.rotateLeft 3 ^^^ y.rotateLeft 6 ^^^ 0x05

/-- Rotating an XOR of bytes rotates both. -/
theorem rotateLeft_xor (a b : Byte) (n : Nat) : (a ^^^ b).rotateLeft n = a.rotateLeft n ^^^ b.rotateLeft n := by
  ext i hi
  simp only [BitVec.getElem_xor, BitVec.getElem_rotateLeft]
  split <;> rfl

/-- The amounts of two rotations of a byte add up modulo 8. -/
theorem rotateLeft_rotateLeft (a : Byte) (m n : Nat) :
    (a.rotateLeft m).rotateLeft n = a.rotateLeft ((m + n) % 8) := by
  ext i hi
  simp only [BitVec.getElem_rotateLeft]
  grind

/-- The affine half of the S-box, undone: of the fifteen rotations of `y` all but `y` itself cancel in pairs, and so do
the constants. -/
theorem sboxAffine_sboxAffineInv (y : Byte) : sboxAffine (sboxAffineInv y) = y := by
  have hzero : y.rotateLeft 0 = y := by ext i hi; simp [BitVec.getElem_rotateLeft]
  simp only [sboxAffine, sboxAffineInv, rotateLeft_xor, rotateLeft_rotateLeft, Nat.reduceAdd, Nat.reduceMod, hzero]
  simp [BitVec.xor_assoc, BitVec.xor_comm, xor_lc]

/-- Taken back through the affine half, entry x of the table is the inverse of x (0 for 0). -/
theorem sboxAffineInv_sbox (x : Byte) :
    x = 0 ∧ sboxAffineInv (sbox x) = 0 ∨ gfMul x (sboxAffineInv (sbox x)) = 1 := by
  have htable : ∀ n : Fin 256, let x : Byte := BitVec.ofFin n
      x = 0 ∧ sboxAffineInv (sbox x) = 0 ∨ gfMul x (sboxAffineInv (sbox x)) = 1 := by decide +kernel
  exact htable x.toFin

/-- Settles O25: the inverse of x is its table entry taken back through the affine half. -/
theorem sboxFollowsItsDefinition : Obligations.SboxFollowsItsDefinition := fun x =>
  ⟨sboxAffineInv (sbox x), sboxAffineInv_sbox x, (sboxAffine_sboxAffineInv (sbox x)).symm⟩

/-! ### The cipher (R146) -/

@[simp] theorem aesRound_length (ws : List (List Byte)) (s : List Byte) (i : Nat) : (aesRound ws s i).length = 16 :=
  addRoundKey_length _ _

/-- Any sequence of rounds keeps a block a block. -/
theorem foldl_aesRound_length (ws : List (List Byte)) (rounds : List Nat) {s : List Byte} (hs : s.length = 16) :
    (rounds.foldl (aesRound ws) s).length = 16 := by
  induction rounds generalizing s with
  | nil => exact hs
  | cons i rounds ih => exact ih (aesRound_length ws s i)

/-- Any sequence of rounds is injective on blocks. -/
theorem foldl_aesRound_injective {ws : List (List Byte)} {rounds : List Nat} {s t : List Byte} (hs : s.length = 16)
    (ht : t.length = 16) (h : rounds.foldl (aesRound ws) s = rounds.foldl (aesRound ws) t) : s = t := by
  induction rounds generalizing s t with
  | nil => exact h
  | cons i rounds ih => exact aesRound_injective hs ht (ih (aesRound_length ws s i) (aesRound_length ws t i) h)

/-- The cipher is injective on blocks: the last round has no MixColumns, and the rounds before it and the first
AddRoundKey lose nothing either. -/
theorem aes128_injective {k b c : List Byte} (hb : b.length = 16) (hc : c.length = 16) (h : aes128 k b = aes128 k c) :
    b = c := by
  have hlen (s : List Byte) : (subBytes ((List.range' 1 9).foldl (aesRound (keyWords k))
      (addRoundKey (roundKey (keyWords k) 0) s))).length = 16 := by
    rw [subBytes_length, foldl_aesRound_length _ _ (addRoundKey_length _ _)]
  have hlast := subBytes_injective <| shiftRows_injective (hlen b) (hlen c) <|
    addRoundKey_injective (shiftRows_length _) (shiftRows_length _) h
  have hfirst := foldl_aesRound_injective (addRoundKey_length _ _) (addRoundKey_length _ _) hlast
  exact addRoundKey_injective hb hc hfirst

/-- Settles O24, from the injectivity of each layer. -/
theorem cipherPermutesBlocks : Obligations.CipherPermutesBlocks := fun k b _ hb hc =>
  ⟨aes128_length k b, aes128_injective hb hc⟩

/-! ### The commands (R148, R149) -/

/-- AESENC with its fields 0 and a full key writes TAG and ends OK (R148). -/
theorem exec_aesenc_keyed {s : State} (hkey : s.ce.keyv = true) :
    exec (.aesenc 0 0 0) s =
      .next ((s.setTag (Quad.ofBytes (aes128 s.ce.keyBytes s.ce.blkBytes))).complete .ok) := by
  change checked true false (!s.ce.keyv) aesencEffect s = _
  rw [hkey, Bool.not_true, checked_pass]
  rfl

/-- KEYCLR with its fields 0 clears the key and ends OK, with or without a key (R149). -/
theorem exec_keyclr (s : State) : exec (.keyclr 0 0 0) s = .next (s.clearKey.complete .ok) := rfl

/-- With KW clear, KEYV reads 0 (R41). -/
theorem Ce.keyv_of_kw_zero {c : Ce} (h : c.kw = 0) : c.keyv = false := by rw [Ce.keyv, h]; decide

/-- Settles O9: TAG reads as the block it was given, and setTag and the completion step keep the rest. -/
theorem aesencWritesCipherOfBlk : Obligations.AesencWritesCipherOfBlk := by
  intro s hkey
  refine ⟨_, exec_aesenc_keyed hkey, ?_, rfl, fun b a => ?_⟩
  · exact Quad.bytes_ofBytes (aes128_length _ _)
  · rw [State.complete_readByte, State.setTag_readByte]

/-- Settles O10: KEYV reads the cleared KW, and clearKey and the completion step keep the rest. -/
theorem keyclrErasesKey : Obligations.KeyclrErasesKey := by
  intro s
  refine ⟨_, exec_keyclr s, Ce.keyv_of_kw_zero rfl, rfl, fun b a => ?_⟩
  rw [State.complete_readByte, State.clearKey_readByte]

end Sys2Proof.Machine

/-! SUPPORT. The CTR transform and the MAC (R170 to R184): every byte of the blocks the cipher is run on, the laws of the
transform, and what CTRXOR, CMAC and MICGEN are once their checks pass. -/

namespace Sys2Proof.Machine

/-! ### The counter block and B0 (R170, R171, R178) -/

/-- The bytes of the PAN in the order the parameter gives (R170). -/
theorem panBytes_eq (p : Config.Params) (pan : BitVec 16) :
    panBytes p pan =
      [if p.pPanOrder = .be then pan.extractLsb' 8 8 else pan.extractLsb' 0 8,
        if p.pPanOrder = .be then pan.extractLsb' 0 8 else pan.extractLsb' 8 8] := by
  cases h : p.pPanOrder <;> simp [panBytes, h, be16, le16]

/-- A counter block is 16 bytes (R171). -/
@[simp] theorem counterBlock_length (p : Config.Params) (pan : BitVec 16) (dst src : Byte) (j : Nat) :
    (counterBlock p pan dst src j).length = 16 := by simp [counterBlock]

/-- The counter byte is P_CTR_START + j mod 256 (R171). -/
theorem counter_eq_ofNat (start : Byte) (j : Nat) :
    start + BitVec.ofNat 8 j = BitVec.ofNat 8 ((start.toNat + j) % 256) := by
  apply BitVec.eq_of_toNat_eq
  simp

/-- The counter byte stands last in the counter block (R171). -/
theorem byteAt_counterBlock_last (p : Config.Params) (pan : BitVec 16) (dst src : Byte) (j : Nat) :
    byteAt (counterBlock p pan dst src j) 15 = p.pCtrStart + BitVec.ofNat 8 j := by
  rw [counterBlock, panBytes_eq]; rfl

/-- Settles O22: both blocks are fixed fields around the two bytes of the PAN. -/
theorem counterBlockAndB0Layout : Obligations.CounterBlockAndB0Layout := by
  intro p pan dst src n hi lo
  have hpan : panBytes p pan = [hi, lo] := panBytes_eq p pan
  refine ⟨?_, fun _ => ?_⟩
  · rw [counterBlock, hpan, counter_eq_ofNat]; rfl
  · rw [b0Block, hpan]; rfl

/-! ### The MIC input (R179) -/

/-- The PAN of a serialized frame is its first two bytes, big-endian (R201). -/
theorem framePan_cons (pan1 pan0 : Byte) (rest : List Byte) :
    framePan (pan1 :: pan0 :: rest) = pan1.setWidth 16 <<< 8 ||| pan0.setWidth 16 := by
  have hnum : numBe [pan1, pan0] = 256 * pan1.toNat + pan0.toNat := by simp [numBe]
  have hor : pan1.toNat <<< 8 ||| pan0.toNat = 256 * pan1.toNat + pan0.toNat := by
    rw [← Nat.shiftLeft_add_eq_or_of_lt pan0.isLt, Nat.shiftLeft_eq, Nat.mul_comm]
  change BitVec.ofNat 16 (numBe [pan1, pan0]) = _
  rw [hnum, ← hor]
  apply BitVec.eq_of_toNat_eq
  have hlt : pan1.toNat < 65536 := by omega
  simp [Nat.mod_eq_of_lt hlt]

/-- Settles O23: the header's fields are read back from the frame's first four bytes. -/
theorem micInputIsB0ThenFrame : Obligations.MicInputIsB0ThenFrame := by
  intro p k pan1 pan0 dst src rest _ _
  rw [micFull, framePan_cons]
  rfl

/-! ### The laws of the CTR transform (R174) -/

section
variable (p : Config.Params) (k : List Byte) (pan : BitVec 16) (dst src : Byte)

/-- The transform is its own inverse: it XORs the same keystream, which only the length of its input bears on. -/
theorem ctrTransform_ctrTransform (d : List Byte) :
    ctrTransform p k pan dst src (ctrTransform p k pan dst src d) = d := by
  rw [ctrTransform, ctrTransform_length]
  exact xorBytes_cancel (keystream_length ..).ge

variable {p k pan dst src}

/-- The counter bytes of the 16 blocks of a transform are distinct: there are fewer than 256 of them. -/
theorem counter_injective {i j : Nat} (hi : i < 16) (hj : j < 16)
    (h : byteAt (counterBlock p pan dst src i) 15 = byteAt (counterBlock p pan dst src j) 15) : i = j := by
  rw [byteAt_counterBlock_last, byteAt_counterBlock_last, BitVec.add_right_inj] at h
  have hmod : i % 256 = j % 256 := by simpa using congrArg BitVec.toNat h
  omega

/-- No two of those blocks have the same keystream block, for the cipher is a permutation (R146). -/
theorem keystreamBlock_injective {i j : Nat} (hi : i < 16) (hj : j < 16)
    (h : aes128 k (counterBlock p pan dst src i) = aes128 k (counterBlock p pan dst src j)) : i = j :=
  counter_injective hi hj <|
    congrArg (byteAt · 15) (aes128_injective (counterBlock_length ..) (counterBlock_length ..) h)

/-- Byte i of the result depends on byte i of the input alone. -/
theorem byteAt_ctrTransform_congr {d e : List Byte} {i : Nat} (hd : i < d.length) (he : i < e.length)
    (h : byteAt d i = byteAt e i) :
    byteAt (ctrTransform p k pan dst src d) i = byteAt (ctrTransform p k pan dst src e) i := by
  rw [byteAt_ctrTransform _ _ _ _ _ hd, byteAt_ctrTransform _ _ _ _ _ he, h]

end

/-- Settles O21, law by law. -/
theorem ctrTransformLaws : Obligations.CtrTransformLaws := fun p k pan dst src =>
  ⟨ctrTransform_ctrTransform p k pan dst src,
    fun _ _ hi hj h => h.elim (counter_injective hi hj) (keystreamBlock_injective hi hj),
    ctrTransform_length p k pan dst src,
    fun _ _ _ => byteAt_ctrTransform_congr⟩

/-! ### The commands past their checks (R271) -/

/-- A CE command that passes its three checks is its effect (R271). -/
theorem checked_of_pass {p l k : Bool} {e : State → Host.Outcome State Fault Refusal} {s : State} (hp : p = true)
    (hl : l = false) (hk : k = false) : checked p l k e s = e s := by rw [hp, hl, hk, checked_pass]

/-- The key check passes when all four KEY words have been written (R41). -/
theorem keyMissing_eq_false {s : State} (hkey : s.ce.keyv = true) : (!s.ce.keyv) = false := by rw [hkey]; rfl

/-- A range inside FBUF passes the length check of CTRXOR and CMAC (R272). -/
theorem rangeLeavesFbuf_eq_false {off len : Byte} (h : off.toNat + len.toNat ≤ 256) :
    rangeLeavesFbuf off len = false := decide_eq_false (by omega)

/-- A legal length passes the length check of MICGEN, SEAL and OPEN (R272). -/
theorem badFrameLen_eq_false {base : Nat} {len maxpl : Byte} (h : base ≤ len.toNat)
    (hmax : len.toNat - base ≤ maxpl.toNat) : badFrameLen base len maxpl = false := decide_eq_false (by omega)

/-! ### CTRXOR (R182) -/

/-- The state with FBUF[off .. off+len) XORed with the keystream of ARG0's triple (R182). -/
def State.cryptRange (s : State) (off len : Byte) : State :=
  s.memWrite .fbuf off.toNat
    (ctrTransform s.cfg s.ce.keyBytes s.ce.argPan s.ce.argDst s.ce.argSrc (s.memRead .fbuf off.toNat len.toNat))

/-- Byte i of the keystream of ARG0's triple (R172, R182). -/
def State.argKeyByte (s : State) (i : Nat) : Byte :=
  keystreamByte s.cfg s.ce.keyBytes s.ce.argPan s.ce.argDst s.ce.argSrc i

/-- CTRXOR with RSV 0, a range inside FBUF and a full key transforms the range and ends OK (R182). -/
theorem exec_ctrxor_keyed {off len : Byte} {s : State} (hrange : off.toNat + len.toNat ≤ 256)
    (hkey : s.ce.keyv = true) : exec (.ctrxor 0 off len) s = .next ((s.cryptRange off len).complete .ok) :=
  checked_of_pass rfl (rangeLeavesFbuf_eq_false hrange) (keyMissing_eq_false hkey)

/-- Every byte of every buffer after CTRXOR's transform: XORed with its keystream byte inside the range, as it was
elsewhere. -/
theorem State.readByte_cryptRange {off len : Byte} (s : State) (hrange : off.toNat + len.toNat ≤ 256) (c : Buf)
    (a : Nat) :
    (s.cryptRange off len).readByte c a =
      if c = .fbuf ∧ off.toNat ≤ a ∧ a < off.toNat + len.toNat then
        s.readByte .fbuf a ^^^ s.argKeyByte (a - off.toNat)
      else s.readByte c a := by
  simp only [State.cryptRange, State.readByte_memWrite, ctrTransform_length, State.memRead_length, bufSize]
  by_cases h : c = .fbuf ∧ off.toNat ≤ a ∧ a < off.toNat + len.toNat
  · obtain ⟨hc, hle, hlt⟩ := h
    have hi : a - off.toNat < len.toNat := by omega
    rw [if_pos ⟨hc, hle, hlt, by omega⟩, if_pos ⟨hc, hle, hlt⟩, byteAt_ctrTransform _ _ _ _ _ (by simpa using hi),
      State.byteAt_memRead, if_pos hi, Nat.add_sub_cancel' hle]
    rfl
  · rw [if_neg fun ⟨hc, hle, hlt, _⟩ => h ⟨hc, hle, hlt⟩, if_neg h]

/-- CTRXOR writes none of what its keystream is made of. -/
theorem State.argKeyByte_cryptRange (s : State) (off len : Byte) (code : ResultCode) (i : Nat) :
    ((s.cryptRange off len).complete code).argKeyByte i = s.argKeyByte i := rfl

/-- Settles O11: the completion step and a write to FBUF keep the rest. -/
theorem ctrxorXorsKeystreamIntoRange : Obligations.CtrxorXorsKeystreamIntoRange := by
  intro off len s hrange hkey
  refine ⟨_, exec_ctrxor_keyed hrange hkey, fun i hi => ?_, fun b a hout => ?_, rfl⟩
  · rw [State.complete_readByte, s.readByte_cryptRange hrange, if_pos ⟨rfl, by omega, by omega⟩,
      Nat.add_sub_cancel_left]
    rfl
  · rw [State.complete_readByte, s.readByte_cryptRange hrange, if_neg hout]

/-- Settles O12: the second run XORs each byte of the range with the same keystream byte as the first. -/
theorem ctrxorTwiceRestoresFbuf : Obligations.CtrxorTwiceRestoresFbuf := by
  intro off len s hrange hkey
  have hkey' : ((s.cryptRange off len).complete .ok).ce.keyv = true := hkey
  refine ⟨_, _, exec_ctrxor_keyed hrange hkey, exec_ctrxor_keyed hrange hkey', fun b a => ?_⟩
  rw [State.complete_readByte, State.readByte_cryptRange _ hrange]
  split
  · next hin =>
    rw [State.argKeyByte_cryptRange, State.complete_readByte, s.readByte_cryptRange hrange, if_pos ⟨rfl, hin.2⟩,
      BitVec.xor_assoc, BitVec.xor_self, BitVec.xor_zero, hin.1]
  · next hout => rw [State.complete_readByte, s.readByte_cryptRange hrange, if_neg hout]

/-! ### CMAC and MICGEN (R183, R184) -/

/-- CMAC with RSV 0, a range inside FBUF and a full key writes TAG and ends OK (R183). -/
theorem exec_cmac_keyed {off len : Byte} {s : State} (hrange : off.toNat + len.toNat ≤ 256)
    (hkey : s.ce.keyv = true) :
    exec (.cmac 0 off len) s =
      .next ((s.setTag (Quad.ofBytes (cmac s.ce.keyBytes (s.memRead .fbuf off.toNat len.toNat)))).complete .ok) :=
  checked_of_pass rfl (rangeLeavesFbuf_eq_false hrange) (keyMissing_eq_false hkey)

/-- Settles O13: TAG reads as the tag it was given, and setTag and the completion step keep the rest. -/
theorem cmacWritesTagOfRange : Obligations.CmacWritesTagOfRange := by
  intro off len s hrange hkey
  refine ⟨_, exec_cmac_keyed hrange hkey, Quad.bytes_ofBytes (cmac_length ..), rfl, fun b a => ?_⟩
  rw [State.complete_readByte, State.setTag_readByte]

/-- The full tag of the frame FBUF[0 .. len) (R179, R184). -/
def State.frameTag (s : State) (len : Byte) : List Byte :=
  micFull s.cfg s.ce.keyBytes (s.memRead .fbuf 0 len.toNat)

/-- MICGEN with RSV and OFF 0, a legal length and a full key writes TAG and MIC and ends OK (R184). -/
theorem exec_micgen_keyed {len : Byte} {s : State} (hlen : 5 ≤ len.toNat)
    (hmax : len.toNat - 5 ≤ s.ce.maxpl.toNat) (hkey : s.ce.keyv = true) :
    exec (.micgen 0 0 len) s =
      .next (((s.setTag (Quad.ofBytes (s.frameTag len))).setMic (micNum (mic4 s.cfg (s.frameTag len)))).complete
        .ok) :=
  checked_of_pass rfl (badFrameLen_eq_false hlen hmax) (keyMissing_eq_false hkey)

/-- Settles O14: MIC holds the number whose wire bytes are chosen from the tag that TAG reads as. -/
theorem micgenWritesTagAndMic : Obligations.MicgenWritesTagAndMic := by
  intro len s hlen hmax hkey
  have htag : (Quad.ofBytes (s.frameTag len)).bytes = s.frameTag len := Quad.bytes_ofBytes (micFull_length ..)
  have hmic : be32 (micNum (mic4 s.cfg (s.frameTag len))) = mic4 s.cfg (s.frameTag len) :=
    be32_micNum (mic4_length _ (micFull_length ..))
  refine ⟨_, exec_micgen_keyed hlen hmax hkey, htag, ?_, rfl, fun b a => ?_⟩
  · exact hmic.trans (congrArg (mic4 s.cfg) htag.symm)
  · rw [State.complete_readByte, State.setMic_readByte, State.setTag_readByte]

end Sys2Proof.Machine

/-! SUPPORT. SEAL and OPEN (R204, R205): the state each ends in once its checks pass, every byte it leaves in FBUF, and
that a second payload transform undoes the first. -/

namespace Sys2Proof.Machine

/-! ### The payload transform, twice -/

/-- The payload transform writes no byte in front of the payload. -/
theorem State.readByte_cryptPayload_header (s : State) (n : Nat) {a : Nat} (ha : a < 5) :
    (s.cryptPayload n).readByte .fbuf a = s.readByte .fbuf a := by
  rw [State.readByte_cryptPayload_key, if_neg fun h => by omega]

/-- Payload byte i of FBUF after the transform (R204, R205). -/
theorem State.readByte_cryptPayload_payload (s : State) {n i : Nat} (hn : 5 + n ≤ 256) (hi : i < n) :
    (s.cryptPayload n).readByte .fbuf (5 + i) = s.readByte .fbuf (5 + i) ^^^ s.payloadKeyByte i := by
  rw [State.readByte_cryptPayload_key, if_pos ⟨rfl, by omega, by omega, by omega⟩, Nat.add_sub_cancel_left]

/-- Outside the payload the transform leaves every byte of every buffer. -/
theorem State.sameBytesOutside_cryptPayload (s : State) (n : Nat) :
    sameBytesOutside s (s.cryptPayload n) .fbuf 5 n := fun c a h => by
  rw [State.readByte_cryptPayload_key, if_neg fun ⟨hc, hle, hlt, _⟩ => h ⟨hc, hle, hlt⟩]

/-- In a state that holds the key, the parameters and the frame that a transform of `s` left, the transform restores the
frame of `s`: it leaves the header, so both runs XOR the same keystream (R174, R201). -/
theorem State.readByte_cryptPayload_twice {s t : State} {n : Nat} (hn : 5 + n ≤ 256) (hcfg : t.cfg = s.cfg)
    (hkey : t.ce.keyBytes = s.ce.keyBytes)
    (ht : ∀ a, a < 5 + n → t.readByte .fbuf a = (s.cryptPayload n).readByte .fbuf a) {a : Nat} (ha : a < 5 + n) :
    (t.cryptPayload n).readByte .fbuf a = s.readByte .fbuf a := by
  have hheader : ∀ a, a < 5 → t.readByte .fbuf a = s.readByte .fbuf a := fun a h => by
    rw [ht a (by omega), s.readByte_cryptPayload_header n h]
  by_cases h : a < 5
  · rw [t.readByte_cryptPayload_header n h, hheader a h]
  · obtain ⟨i, rfl⟩ := Nat.exists_eq_add_of_le (not_lt.1 h)
    have hi : i < n := by omega
    have hstream : t.payloadKeyByte i = s.payloadKeyByte i :=
      State.payloadKeyByte_congr (fun a h => hheader a (by omega)) hcfg hkey i
    rw [t.readByte_cryptPayload_payload hn hi, ht _ ha, s.readByte_cryptPayload_payload hn hi, hstream,
      BitVec.xor_assoc, BitVec.xor_self, BitVec.xor_zero]

/-! ### The end of SEAL and of a successful OPEN (R204, R205) -/

/-- TAG, MIC and RLEN are written, and the command completes with OK. -/
def State.report (s : State) (tag mic : List Byte) (rlen : Byte) : State :=
  (((s.setTag (Quad.ofBytes tag)).setMic (micNum mic)).setRlen rlen).complete .ok

section
variable (s : State) (tag mic : List Byte) (rlen : Byte)

@[simp] theorem State.report_result : (s.report tag mic rlen).ce.result = .ok := rfl

/-- TAG reads as the tag it was given (R40). -/
theorem State.report_tag_bytes {tag : List Byte} (h : tag.length = 16) :
    (s.report tag mic rlen).ce.tag.bytes = tag := Quad.bytes_ofBytes h

@[simp] theorem State.report_readByte (c : Buf) (a : Nat) :
    (s.report tag mic rlen).readByte c a = s.readByte c a := by
  rw [State.report, State.complete_readByte, State.setRlen_readByte, State.setMic_readByte, State.setTag_readByte]

/-- After an FBUF update, of the machine only FBUF, TAG, MIC, RLEN and what completion writes have changed. -/
theorem State.report_frame {t : State} (h : ∃ m, t = { s with ce := { s.ce with fbuf := m } }) :
    t.report tag mic rlen = { s with ce := { s.ce with
      latch := none, done := true, result := .ok, tag := (t.report tag mic rlen).ce.tag,
      mic := (t.report tag mic rlen).ce.mic, rlen := (t.report tag mic rlen).ce.rlen,
      fbuf := (t.report tag mic rlen).ce.fbuf } } := by
  obtain ⟨m, rfl⟩ := h
  cases s
  rfl

end

/-! ### SEAL (R204) -/

/-- The full tag SEAL computes: that of the header and the ciphertext (R204). -/
def State.sealTag (s : State) (len : Byte) : List Byte :=
  micFull s.cfg s.ce.keyBytes ((s.cryptPayload (len.toNat - 5)).memRead .fbuf 0 len.toNat)

/-- The four MIC bytes SEAL appends (R204). -/
def State.sealMic (s : State) (len : Byte) : List Byte := mic4 s.cfg (s.sealTag len)

/-- The state SEAL ends in once its checks pass (R204). -/
def State.sealed (s : State) (len : Byte) : State :=
  ((s.cryptPayload (len.toNat - 5)).memWrite .fbuf len.toNat (s.sealMic len)).report (s.sealTag len) (s.sealMic len)
    (len + 4)

/-- SEAL with RSV and OFF 0, a legal length and a full key (R204). -/
theorem exec_sealFrame_keyed {len : Byte} {s : State} (hlen : 5 ≤ len.toNat)
    (hmax : len.toNat - 5 ≤ s.ce.maxpl.toNat) (hkey : s.ce.keyv = true) :
    exec (.sealFrame 0 0 len) s = .next (s.sealed len) :=
  checked_of_pass rfl (badFrameLen_eq_false hlen hmax) (keyMissing_eq_false hkey)

section
variable (s : State) {len : Byte}

@[simp] theorem State.sealTag_length : (s.sealTag len).length = 16 := micFull_length ..
@[simp] theorem State.sealMic_length : (s.sealMic len).length = 4 := mic4_length _ s.sealTag_length

/-- TAG reads as the tag SEAL computes (R204). -/
theorem State.sealed_tag_bytes : (s.sealed len).ce.tag.bytes = s.sealTag len :=
  State.report_tag_bytes _ _ _ s.sealTag_length

/-- SEAL changes FBUF, TAG, MIC and RLEN, and ends OK (R204). -/
theorem State.sealed_frame :
    s.sealed len = { s with ce := { s.ce with
      latch := none, done := true, result := .ok, tag := (s.sealed len).ce.tag, mic := (s.sealed len).ce.mic,
      rlen := (s.sealed len).ce.rlen, fbuf := (s.sealed len).ce.fbuf } } :=
  s.report_frame _ _ _ ⟨_, rfl⟩

@[simp] theorem State.sealed_mic : (s.sealed len).ce.mic = micNum (s.sealMic len) := rfl
@[simp] theorem State.sealed_rlen : (s.sealed len).ce.rlen = len + 4 := rfl
@[simp] theorem State.sealed_cfg : (s.sealed len).cfg = s.cfg := congrArg (·.cfg) s.sealed_frame
@[simp] theorem State.sealed_maxpl : (s.sealed len).ce.maxpl = s.ce.maxpl := congrArg (·.ce.maxpl) s.sealed_frame
@[simp] theorem State.sealed_keyv : (s.sealed len).ce.keyv = s.ce.keyv := congrArg (·.ce.keyv) s.sealed_frame
@[simp] theorem State.sealed_keyBytes : (s.sealed len).ce.keyBytes = s.ce.keyBytes :=
  congrArg (·.ce.keyBytes) s.sealed_frame

/-- Every byte after SEAL, by its two writes: the payload, then the MIC. -/
theorem State.readByte_sealed (c : Buf) (a : Nat) :
    (s.sealed len).readByte c a =
      ((s.cryptPayload (len.toNat - 5)).memWrite .fbuf len.toNat (s.sealMic len)).readByte c a :=
  State.report_readByte ..

/-- The first LEN bytes are those of the payload transform: the MIC comes after them. -/
theorem State.readByte_sealed_of_lt {a : Nat} (ha : a < len.toNat) :
    (s.sealed len).readByte .fbuf a = (s.cryptPayload (len.toNat - 5)).readByte .fbuf a := by
  rw [State.readByte_sealed, State.readByte_memWrite_of_notMem _ fun h => by omega]

/-- The tag is that of the first LEN bytes SEAL leaves. -/
theorem State.sealTag_eq : s.sealTag len = micFull s.cfg s.ce.keyBytes ((s.sealed len).memRead .fbuf 0 len.toNat) := by
  rw [State.sealTag, State.memRead_congr fun i hi => (s.readByte_sealed_of_lt (by omega)).symm]

/-- The four bytes after them are the MIC (R203). -/
theorem State.memRead_sealed_mic (hlen : len.toNat ≤ 251) :
    (s.sealed len).memRead .fbuf len.toNat 4 = s.sealMic len := by
  have hread := (s.cryptPayload (len.toNat - 5)).memRead_memWrite .fbuf len.toNat (s.sealMic len)
    (by rw [State.sealMic_length]; exact Nat.le_trans (Nat.add_le_add_right hlen 4) (by decide))
  rw [State.sealMic_length] at hread
  exact (State.memRead_congr fun i _ => s.readByte_sealed _ _).trans hread

/-- SEAL writes the payload and the MIC and no other byte. -/
theorem State.sameBytesOutside_sealed (h5 : 5 ≤ len.toNat) :
    sameBytesOutside s (s.sealed len) .fbuf 5 (len.toNat - 1) := by
  intro c a hout
  have hmic : ¬(c = .fbuf ∧ len.toNat ≤ a ∧ a < len.toNat + (s.sealMic len).length) := fun ⟨hc, hle, hlt⟩ =>
    hout ⟨hc, by omega, by rw [State.sealMic_length] at hlt; omega⟩
  rw [State.readByte_sealed, State.readByte_memWrite_of_notMem _ hmic]
  exact s.sameBytesOutside_cryptPayload _ c a fun ⟨hc, hle, hlt⟩ => hout ⟨hc, hle, by omega⟩

end

/-- RLEN after SEAL, as a number: LEN + 4 does not wrap around. -/
theorem add_four_toNat {len : Byte} (hlen : len.toNat ≤ 251) : (len + 4).toNat = len.toNat + 4 := by
  rw [BitVec.toNat_add]
  exact Nat.mod_eq_of_lt (Nat.lt_of_le_of_lt (Nat.add_le_add_right hlen 4) (by decide))

/-- Settles O15, from the bytes SEAL leaves in its two parts of FBUF. -/
theorem sealEncryptsThenAppendsMic : Obligations.SealEncryptsThenAppendsMic := by
  intro len s hlen hmax hbound hkey
  have hlen' : len.toNat ≤ 251 := by omega
  refine ⟨_, exec_sealFrame_keyed hlen hmax hkey, fun i hi => ?_, ?_, ?_, ?_, ?_, s.sameBytesOutside_sealed hlen,
    s.sealed_frame⟩
  · rw [s.readByte_sealed_of_lt (by omega), s.readByte_cryptPayload_payload (by omega) hi]
  · exact s.sealed_tag_bytes.trans s.sealTag_eq
  · rw [s.sealed_tag_bytes]; exact s.memRead_sealed_mic hlen'
  · rw [s.sealed_tag_bytes, s.sealed_mic]; exact be32_micNum s.sealMic_length
  · rw [s.sealed_rlen]; exact add_four_toNat hlen'

/-! ### OPEN (R205) -/

/-- The state OPEN ends in when the MIC matches (R205). -/
def State.opened (s : State) (len : Byte) : State :=
  (s.cryptPayload (len.toNat - 9)).report (micFull s.cfg s.ce.keyBytes (s.memRead .fbuf 0 (len.toNat - 4)))
    (s.memRead .fbuf (len.toNat - 4) 4) (BitVec.ofNat 8 (len.toNat - 9))

/-- The state OPEN ends in when the MIC does not match (R205, R273). -/
def State.rejected (s : State) : State := (((s.setTag .zero).setMic 0).setRlen 0).complete .micFail

section
variable {len : Byte} {s : State}

/-- Past its checks OPEN decrypts on a matching MIC (R205). -/
theorem openEffect_of_micMatches (hmic : s.micMatches len.toNat) : openEffect len s = .next (s.opened len) := by
  rcases openEffect_cases len s with ⟨hbad, -⟩ | ⟨-, h⟩
  · exact absurd hmic hbad
  · rw [h, State.opened, Nat.sub_sub]
    rfl

/-- Past its checks OPEN rejects a MIC that does not match (R205). -/
theorem openEffect_of_not_micMatches (hmic : ¬ s.micMatches len.toNat) : openEffect len s = .next s.rejected := by
  rcases openEffect_cases len s with ⟨-, h⟩ | ⟨hmatch, -⟩
  · exact h
  · exact absurd hmatch hmic

/-- OPEN with RSV and OFF 0, a legal length and a full key is its effect (R271). -/
theorem exec_openFrame_keyed (hlen : 9 ≤ len.toNat) (hmax : len.toNat - 9 ≤ s.ce.maxpl.toNat)
    (hkey : s.ce.keyv = true) : exec (.openFrame 0 0 len) s = openEffect len s :=
  checked_of_pass rfl (badFrameLen_eq_false hlen hmax) (keyMissing_eq_false hkey)

/-- OPEN on a matching MIC, its checks passed (R205). -/
theorem exec_openFrame_of_micMatches (hlen : 9 ≤ len.toNat) (hmax : len.toNat - 9 ≤ s.ce.maxpl.toNat)
    (hkey : s.ce.keyv = true) (hmic : s.micMatches len.toNat) :
    exec (.openFrame 0 0 len) s = .next (s.opened len) :=
  (exec_openFrame_keyed hlen hmax hkey).trans (openEffect_of_micMatches hmic)

/-- OPEN on a MIC that does not match, its other checks passed (R205). -/
theorem exec_openFrame_of_not_micMatches (hlen : 9 ≤ len.toNat) (hmax : len.toNat - 9 ≤ s.ce.maxpl.toNat)
    (hkey : s.ce.keyv = true) (hmic : ¬ s.micMatches len.toNat) :
    exec (.openFrame 0 0 len) s = .next s.rejected :=
  (exec_openFrame_keyed hlen hmax hkey).trans (openEffect_of_not_micMatches hmic)

end

/-- A rejection clears TAG, MIC and RLEN, and ends MIC_FAIL (R273). -/
theorem State.rejected_frame (s : State) :
    s.rejected = { s with ce := { s.ce with
      latch := none, done := true, result := .micFail, tag := ⟨0, 0, 0, 0⟩, mic := 0, rlen := 0 } } := by
  cases s
  rfl

/-- A rejection leaves every byte of every buffer (R207). -/
theorem State.readByte_rejected (s : State) (c : Buf) (a : Nat) : s.rejected.readByte c a = s.readByte c a := by
  rw [State.rejected, State.complete_readByte, State.setRlen_readByte, State.setMic_readByte, State.setTag_readByte]

/-- Every byte after OPEN is that of the payload transform. -/
theorem State.readByte_opened (s : State) (len : Byte) (c : Buf) (a : Nat) :
    (s.opened len).readByte c a = (s.cryptPayload (len.toNat - 9)).readByte c a := State.report_readByte ..

/-- RLEN after OPEN, as a number. -/
theorem State.opened_rlen_toNat (s : State) (len : Byte) : (s.opened len).ce.rlen.toNat = len.toNat - 9 :=
  Nat.mod_eq_of_lt (by omega)

/-- Settles O16, from the bytes the payload transform leaves. -/
theorem openVerifiesThenDecrypts : Obligations.OpenVerifiesThenDecrypts := by
  intro len s hlen hmax hkey hmic
  refine ⟨_, exec_openFrame_of_micMatches hlen hmax hkey hmic, fun i hi => ?_, ?_, ?_, s.opened_rlen_toNat len,
    fun c a hout => ?_, s.report_frame _ _ _ ⟨_, rfl⟩⟩
  · rw [State.readByte_opened, s.readByte_cryptPayload_payload (by omega) hi]
  · exact State.report_tag_bytes _ _ _ (micFull_length ..)
  · exact be32_micNum (State.memRead_length ..)
  · rw [State.readByte_opened, s.sameBytesOutside_cryptPayload _ c a hout]

/-- Settles O17: a rejection writes three registers and completes. -/
theorem openMicFailureWritesNoByte : Obligations.OpenMicFailureWritesNoByte := by
  intro len s hlen hmax hkey hmic
  exact ⟨_, exec_openFrame_of_not_micMatches hlen hmax hkey hmic, s.readByte_rejected, s.rejected_frame⟩

/-- Settles O18: of OPEN's five ends only the decryption has the result OK. -/
theorem openAcceptsOnlyMatchingMic : Obligations.OpenAcceptsOnlyMatchingMic := by
  intro rsv off len s t h hok
  rcases checked_next h with ⟨-, rfl⟩ | ⟨-, -, rfl⟩ | ⟨-, -, -, rfl⟩ | ⟨-, -, -, heffect⟩
  · cases hok
  · cases hok
  · cases hok
  · by_contra hmic
    cases (openEffect_of_not_micMatches hmic).symm.trans heffect
    cases hok

/-! ### SEAL, then OPEN or SEAL again (R204, R208) -/

section
variable {len : Byte} (s : State)

/-- A sealed frame passes OPEN's MIC check (R208). -/
theorem State.micMatches_sealed (hlen : len.toNat ≤ 251) : (s.sealed len).micMatches (len + 4).toNat := by
  rw [State.micMatches, add_four_toNat hlen, Nat.add_sub_cancel, s.memRead_sealed_mic hlen, State.sealMic,
    s.sealTag_eq, State.sealed_cfg, State.sealed_keyBytes]

/-- A second payload transform after SEAL restores the header and the payload. -/
theorem State.readByte_cryptPayload_sealed (h5 : 5 ≤ len.toNat) {i : Nat} (hi : i < len.toNat) :
    ((s.sealed len).cryptPayload (len.toNat - 5)).readByte .fbuf i = s.readByte .fbuf i :=
  State.readByte_cryptPayload_twice (by omega) s.sealed_cfg s.sealed_keyBytes
    (fun a ha => s.readByte_sealed_of_lt (by omega)) (by omega)

/-- The MIC of the second SEAL is that of the plaintext frame (R204). -/
theorem State.sealMic_sealed (h5 : 5 ≤ len.toNat) : (s.sealed len).sealMic len = mic4 s.cfg (s.frameTag len) := by
  rw [State.sealMic, State.sealTag, State.sealed_cfg, State.sealed_keyBytes, State.frameTag,
    State.memRead_congr fun i hi => s.readByte_cryptPayload_sealed h5 (by omega)]

end

/-- Settles O19: OPEN finds SEAL's own MIC, and its transform undoes that of SEAL. -/
theorem sealThenOpenRestoresFrame : Obligations.SealThenOpenRestoresFrame := by
  intro len s hlen hmax hbound hkey
  have hlen' : len.toNat ≤ 251 := by omega
  have hadd : (len + 4).toNat = len.toNat + 4 := add_four_toNat hlen'
  have hn : (len + 4).toNat - 9 = len.toNat - 5 := by omega
  refine ⟨_, _, exec_sealFrame_keyed hlen hmax hkey,
    exec_openFrame_of_micMatches (by omega) (by rwa [hn, State.sealed_maxpl]) (s.sealed_keyv.trans hkey)
      (s.micMatches_sealed hlen'), State.report_result .., ?_, fun i hi => ?_⟩
  · rw [State.opened_rlen_toNat, hn]
  · rw [State.readByte_opened, hn, s.readByte_cryptPayload_sealed hlen hi]

/-- Settles O20: the second SEAL restores the plaintext, and so takes its MIC over what MICGEN does. -/
theorem sealTwiceGivesPlaintextMic : Obligations.SealTwiceGivesPlaintextMic := by
  intro len s hlen hmax _ hkey
  refine ⟨_, _, _, exec_sealFrame_keyed hlen hmax hkey,
    exec_sealFrame_keyed hlen (by rwa [State.sealed_maxpl]) (s.sealed_keyv.trans hkey),
    exec_micgen_keyed hlen hmax hkey, fun i hi => ?_, congrArg micNum (s.sealMic_sealed hlen)⟩
  rw [State.readByte_sealed_of_lt _ hi, s.readByte_cryptPayload_sealed hlen hi]

end Sys2Proof.Machine

/-! SUPPORT. The serial codec's commands (R236 to R249): what each gives past its check, what an encoded frame is made
of, and the next state of every kind of byte, said once per rule of the decoder. -/

namespace Sys2Proof.Machine

/-! ### Legal words are their effects (R119) -/

theorem exec_senc (len : Byte) (s : State) : exec (.senc 0 len) s = .next (sencEffect len s) := rfl

theorem exec_srxb (b : Byte) (s : State) : exec (.srxb 0 b) s = .next (decoderStep b s) := rfl

theorem exec_srxack (s : State) : exec (.srxack 0 0) s = .next (s.setRxrdy false) := rfl

theorem exec_srxrst (s : State) : exec (.srxrst 0 0) s = .next (s.setDec .reset) := rfl

/-- Settles O35: RXRDY is no buffer's byte. -/
theorem srxackReleasesFrame : Obligations.SrxackReleasesFrame := fun s =>
  ⟨_, exec_srxack s, fun c a => s.setRxrdy_readByte false c a, rfl⟩

/-- Settles O36: the decoder's registers are no buffer's bytes. -/
theorem srxrstReturnsToHunt : Obligations.SrxrstReturnsToHunt := fun s =>
  ⟨_, exec_srxrst s, fun c a => s.setDec_readByte .reset c a, rfl⟩

/-! ### Encoded frames -/

/-- The bytes that are escaped, for data that fits the length field's low byte (R234, R235). -/
theorem frameBody_of_length_le {d : List Byte} (h : d.length ≤ 255) :
    frameBody d = [0x00, BitVec.ofNat 8 d.length] ++ d ++ [checksum d] := by
  rw [frameBody, be16_small _ h]

/-- An encoded frame is a delimiter, the length, the data and the checksum, and a byte more for each one escaped
(R237). -/
theorem encodeFrame_length (d : List Byte) :
    (encodeFrame d).length = 4 + d.length + (frameBody d).countP (fun x => escSet.contains x) := by
  have hbody : (frameBody d).length = d.length + 3 := by
    rw [frameBody, List.length_append, List.length_append, be16_length, List.length_singleton]; omega
  rw [encodeFrame, List.length_cons, escAll_length, hbody]
  omega

/-- 255 data bytes leave no room for escaping the length field, which is 0x00FF (R237). -/
theorem encodeFrame_length_le_of_longest {d : List Byte} (h : d.length = 255) : (encodeFrame d).length ≤ 515 := by
  have hdata : d.countP (fun x => escSet.contains x) ≤ 255 := List.countP_le_length.trans h.le
  have hck : [checksum d].countP (fun x => escSet.contains x) ≤ 1 := List.countP_le_length
  have hlen : ([0x00, BitVec.ofNat 8 255] : List Byte).countP (fun x => escSet.contains x) = 0 := by decide
  rw [encodeFrame_length, frameBody_of_length_le h.le, h, List.countP_append, List.countP_append, hlen]
  omega

/-- The sum of n equal bytes (R233). -/
theorem byteSum_replicate (n : Nat) (b : Byte) : byteSum (List.replicate n b) = BitVec.ofNat 8 n * b := by
  induction n with
  | zero => simp [byteSum]
  | succ n ih =>
    rw [List.replicate_succ', byteSum_append_singleton, ih, BitVec.ofNat_add, BitVec.add_mul, BitVec.one_mul]

/-- The frame R237 names: every data byte and the checksum, 0x7D, are escaped. -/
theorem encodeFrame_length_allDelimiters : (encodeFrame (List.replicate 255 0x7E)).length = 515 := by
  have hck : checksum (List.replicate 255 0x7E) = 0x7D :=
    (congrArg (0xFF - ·) (byteSum_replicate 255 0x7E)).trans (by decide)
  have hdata : (List.replicate 255 (0x7E : Byte)).countP (fun x => escSet.contains x) = 255 := by
    rw [List.countP_replicate, if_pos (by decide)]
  have hlen : ([0x00, BitVec.ofNat 8 255] : List Byte).countP (fun x => escSet.contains x) = 0 := by decide
  have hend : ([0x7D] : List Byte).countP (fun x => escSet.contains x) = 1 := by decide
  rw [encodeFrame_length, frameBody_of_length_le List.length_replicate.le, List.length_replicate, List.countP_append,
    List.countP_append, hck, hdata, hlen, hend]

/-- Settles O27: the exact length, the bound of twice the data and six, and the data of 255 bytes apart. -/
theorem encodedFrameLength : Obligations.EncodedFrameLength := by
  refine ⟨fun d hd => ?_, encodeFrame_length_allDelimiters⟩
  have hbound := encodeFrame_length_le d hd
  refine ⟨encodeFrame_length d, hbound, ?_, by omega⟩
  rcases Nat.lt_or_eq_of_le hd with h | h
  · omega
  · exact encodeFrame_length_le_of_longest h

/-- Escaping leaves no delimiter (R232). -/
theorem delimiter_notMem_escOne (x : Byte) : (0x7E : Byte) ∉ escOne x := by
  rw [escOne_eq]
  split
  · next h => rcases h with rfl | rfl | rfl | rfl <;> decide
  · next h => exact fun hmem => h (.inl (List.mem_singleton.1 hmem).symm)

/-- Settles O28: what follows the first byte is escaped, byte by byte. -/
theorem delimiterOnlyStartsFrame : Obligations.DelimiterOnlyStartsFrame := fun d =>
  ⟨escAll (frameBody d), rfl, fun h =>
    have ⟨x, _, hx⟩ := List.mem_flatMap.1 h
    delimiter_notMem_escOne x hx⟩

/-- Settles O26: EBUF has room for the longest frame, and SER_ELEN for its length. -/
theorem sencWritesEncodedFrame : Obligations.SencWritesEncodedFrame := by
  intro len s d ck e
  have hd : d.length = len.toNat := s.memRead_length ..
  have he : e = encodeFrame d := by
    rw [encodeFrame, frameBody_of_length_le (by omega), hd, BitVec.ofNat_toNat, BitVec.setWidth_eq, escAll,
      funext escOne_eq]
    rfl
  have hlen : e.length ≤ 2 * d.length + 6 := by rw [he]; exact encodeFrame_length_le d (by omega)
  have hrange : 0 + e.length ≤ bufSize .ebuf := by rw [bufSize]; omega
  have helen : (BitVec.ofNat 10 e.length).toNat = e.length := by
    rw [BitVec.toNat_ofNat]; exact Nat.mod_eq_of_lt (by omega)
  refine ⟨(s.memWrite .ebuf 0 e).setElen (BitVec.ofNat 10 e.length), ?_, ?_, helen, fun c a h => ?_, rfl⟩
  · rw [exec_senc, he]; rfl
  · rw [State.setElen_memRead, State.memRead_memWrite _ _ _ _ hrange]
  · rw [State.setElen_readByte, State.readByte_memWrite_of_notMem _ h]

/-! ### The decoder's rules -/

/-- A delimiter (R239), as one next state. -/
theorem decodeDelimiter_eq (s : State) :
    decodeDelimiter s = { s with scu := { s.scu with
      synerr := s.scu.synerr || decide (s.scu.dec.phase ≠ .hunt), dec := ⟨.lenHi, false, 0, 0, 0⟩ } } := by
  unfold decodeDelimiter
  by_cases h : s.scu.dec.phase = .hunt <;> simp [h, State.setDec]

/-- Settles O29: the first three rules of the decoder. -/
theorem srxbDelimiterHuntAndEscape : Obligations.SrxbDelimiterHuntAndEscape := by
  intro b s
  refine ⟨?_, fun hb hhunt => ?_, ?_⟩
  · rintro rfl
    rw [exec_srxb, decoderStep_delimiter, decodeDelimiter_eq]
  · rw [exec_srxb, decoderStep_hunt hb hhunt]
  · rintro rfl hesc hphase
    rw [exec_srxb, decoderStep_escape hphase hesc]; rfl

section
variable {s : State} {v : Byte}

theorem decodeByPhase_lenHi (h : s.scu.dec.phase = .lenHi) : decodeByPhase v s = decodeLenHi v s := by
  simp only [decodeByPhase, h]

theorem decodeByPhase_lenLo (h : s.scu.dec.phase = .lenLo) : decodeByPhase v s = decodeLenLo v s := by
  simp only [decodeByPhase, h]

theorem decodeByPhase_data (h : s.scu.dec.phase = .data) : decodeByPhase v s = decodeData v s := by
  simp only [decodeByPhase, h]

theorem decodeByPhase_cksum (h : s.scu.dec.phase = .cksum) : decodeByPhase v s = decodeCksum v s := by
  simp only [decodeByPhase, h]

/-- A length above 255 (R244). -/
theorem decodeLenLo_of_gt (h : 255 < (s.scu.dec.dlen ||| v.setWidth 16).toNat) :
    decodeLenLo v s = s.setLenerr.setDec { s.scu.dec with dlen := s.scu.dec.dlen ||| v.setWidth 16, phase := .hunt } :=
  if_pos h

/-- The length 0 (R244): only the checksum is missing. -/
theorem decodeLenLo_of_zero (h : (s.scu.dec.dlen ||| v.setWidth 16).toNat = 0) :
    decodeLenLo v s = s.setDec { s.scu.dec with dlen := s.scu.dec.dlen ||| v.setWidth 16, phase := .cksum } :=
  (if_neg (by rw [h]; decide)).trans (if_pos (BitVec.eq_of_toNat_eq h))

/-- Any other length up to 255 (R244). -/
theorem decodeLenLo_of_pos (hpos : 0 < (s.scu.dec.dlen ||| v.setWidth 16).toNat)
    (hle : (s.scu.dec.dlen ||| v.setWidth 16).toNat ≤ 255) :
    decodeLenLo v s = s.setDec { s.scu.dec with dlen := s.scu.dec.dlen ||| v.setWidth 16, phase := .data } :=
  (if_neg (not_lt.2 hle)).trans (if_neg fun h => hpos.ne' (congrArg BitVec.toNat h))

/-- In DATA (R245) pos does not wrap. -/
theorem toNat_pos_succ {pos : Byte} {dlen : BitVec 16} (hroom : pos.toNat < dlen.toNat) (hlen : dlen.toNat ≤ 255) :
    (pos + 1).toNat = pos.toNat + 1 :=
  BitVec.toNat_add_of_lt (show pos.toNat + 1 < 2 ^ 8 by omega)

/-- A data byte in range (R245). -/
theorem decodeData_of_room (hroom : s.scu.dec.pos.toNat < s.scu.dec.dlen.toNat) (hlen : s.scu.dec.dlen.toNat ≤ 255) :
    decodeData v s = (s.memWrite .abuf s.scu.dec.pos.toNat [v]).setDec { s.scu.dec with
      sum := s.scu.dec.sum + v
      pos := s.scu.dec.pos + 1
      phase := if s.scu.dec.pos.toNat + 1 = s.scu.dec.dlen.toNat then .cksum else .data } := by
  have hlast : (s.scu.dec.pos + 1).setWidth 16 = s.scu.dec.dlen ↔ s.scu.dec.pos.toNat + 1 = s.scu.dec.dlen.toNat := by
    rw [← BitVec.toNat_inj, BitVec.toNat_setWidth, toNat_pos_succ hroom hlen, Nat.mod_eq_of_lt (by omega)]
  simp only [decodeData, hlast]

/-- A checksum byte that does not verify (R246). -/
theorem decodeCksum_of_bad (h : v ≠ 0xFF - s.scu.dec.sum) :
    decodeCksum v s = s.setCkerr.setDec { s.scu.dec with phase := .hunt } := by
  simp only [decodeCksum, if_neg h]

/-- A checksum byte that verifies while a frame is held (R246). -/
theorem decodeCksum_of_held (h : v = 0xFF - s.scu.dec.sum) (hrdy : s.scu.rxrdy = true) :
    decodeCksum v s = s.setOvr.setDec { s.scu.dec with phase := .hunt } := by
  simp only [decodeCksum, if_pos h, if_pos hrdy]

/-- A checksum byte that verifies while no frame is held (R246). -/
theorem decodeCksum_of_free (h : v = 0xFF - s.scu.dec.sum) (hrdy : s.scu.rxrdy = false) :
    decodeCksum v s = (deliver s).setDec { s.scu.dec with phase := .hunt } := by
  simp only [decodeCksum, if_pos h, hrdy, Bool.false_eq_true, if_false]

end

/-! ### Delivery (R246) -/

section
variable {s : State}

/-- A delivered frame is ABUF's first dlen bytes. -/
theorem deliver_memRead (h : s.scu.dec.dlen.toNat ≤ 255) :
    (deliver s).memRead .srbuf 0 s.scu.dec.dlen.toNat = s.memRead .abuf 0 s.scu.dec.dlen.toNat := by
  have hread := s.memRead_memWrite .srbuf 0 (s.memRead .abuf 0 s.scu.dec.dlen.toNat) (by simp [bufSize]; omega)
  rw [State.memRead_length] at hread
  rw [deliver, State.setRxrdy_memRead, State.setRxlen_memRead, hread]

/-- A delivery writes no byte but those of the frame. -/
theorem sameBytesOutside_deliver : sameBytesOutside s (deliver s) .srbuf 0 s.scu.dec.dlen.toNat := fun c a h => by
  rw [deliver, State.setRxrdy_readByte, State.setRxlen_readByte,
    State.readByte_memWrite_of_notMem _ (by rwa [State.memRead_length])]

/-- SER_RXLEN holds the delivered frame's length. -/
theorem deliver_rxlen_toNat (h : s.scu.dec.dlen.toNat ≤ 255) :
    (deliver s).scu.rxlen.toNat = s.scu.dec.dlen.toNat :=
  (BitVec.toNat_setWidth ..).trans (Nat.mod_eq_of_lt (by omega))

end

/-! ### One byte that reaches the phase rules (R242) -/

/-- The machine in which a byte that was not an escape is handed to the phase rules. -/
def State.unescaped (s : State) : State := s.setDec { s.scu.dec with esc := false }

theorem exec_srxb_takes {b : Byte} {s : State} (h : s.scu.dec.takesByte b) :
    exec (.srxb 0 b) s = .next (decodeByPhase (s.scu.dec.valueOf b) s.unescaped) := by
  rw [exec_srxb, decoderStep_takes h]; rfl

/-- Settles O30, by R243 and the two branches of R244. -/
theorem srxbLengthBytes : Obligations.SrxbLengthBytes := by
  intro b s htakes v dlen
  have hlenLo (hp : s.scu.dec.phase = .lenLo) : exec (.srxb 0 b) s = .next (decodeLenLo v s.unescaped) := by
    rw [exec_srxb_takes htakes, decodeByPhase_lenLo (s := s.unescaped) hp]
  refine ⟨fun hp => ?_, fun hp hgt => ?_, fun hp hzero => ?_, fun hp hpos hle => ?_⟩
  · rw [exec_srxb_takes htakes, decodeByPhase_lenHi (s := s.unescaped) hp]; rfl
  · rw [hlenLo hp, decodeLenLo_of_gt (s := s.unescaped) hgt]; rfl
  · rw [hlenLo hp, decodeLenLo_of_zero (s := s.unescaped) hzero]; rfl
  · rw [hlenLo hp, decodeLenLo_of_pos (s := s.unescaped) hpos hle]; rfl

/-- Settles O31: the address is below dlen, so ABUF takes the byte and pos does not wrap. -/
theorem srxbDataByte : Obligations.SrxbDataByte := by
  intro b s htakes hp hroom hlen v
  refine ⟨_, exec_srxb_takes htakes, ?_⟩
  rw [decodeByPhase_data (s := s.unescaped) hp, decodeData_of_room (s := s.unescaped) hroom hlen]
  refine ⟨?_, fun c a h => ?_, toNat_pos_succ hroom hlen, BitVec.toNat_add .., rfl, rfl, rfl, rfl⟩
  · have hsize : s.scu.dec.pos.toNat < bufSize .abuf := hroom.trans_le (hlen.trans (by decide))
    rw [State.setDec_readByte]
    refine (State.readByte_memWrite_of_mem _ le_rfl (Nat.lt_succ_self _) hsize).trans ?_
    rw [Nat.sub_self]; rfl
  · rw [State.setDec_readByte]
    exact (State.readByte_memWrite_of_notMem _ h).trans (s.setDec_readByte _ c a)

/-- Settles O32, by the three outcomes of R246. -/
theorem srxbChecksumByte : Obligations.SrxbChecksumByte := by
  intro b s htakes hp hlen good
  have hgood : s.scu.dec.valueOf b = 0xFF - s.unescaped.scu.dec.sum ↔ good := checksum_byte_iff ..
  rw [exec_srxb_takes htakes, decodeByPhase_cksum (s := s.unescaped) hp]
  refine ⟨fun h => ?_, fun h hrdy => ?_, fun h hrdy => ⟨_, rfl, ?_⟩⟩
  · rw [decodeCksum_of_bad (mt hgood.1 h)]; rfl
  · rw [decodeCksum_of_held (s := s.unescaped) (hgood.2 h) hrdy]; rfl
  · rw [decodeCksum_of_free (s := s.unescaped) (hgood.2 h) hrdy]
    exact ⟨deliver_memRead (s := s.unescaped) hlen, sameBytesOutside_deliver (s := s.unescaped),
      deliver_rxlen_toNat (s := s.unescaped) hlen, rfl⟩

end Sys2Proof.Machine

/-! SUPPORT. A stream of received bytes (R238, R250, R251): what one byte can change, a decoder run over a stream, the
run over an encoded frame, and a reference run that every state's run from a delimiter mirrors. -/

namespace Sys2Proof.Machine

/-! ### What one byte can change -/

/-- A state that differs from `s` at most in the decoder's registers and its error flags. -/
def State.sameButDecoder (s t : State) : Prop :=
  t = { s with scu := { s.scu with
    dec := t.scu.dec, synerr := t.scu.synerr, lenerr := t.scu.lenerr, ckerr := t.scu.ckerr, ovr := t.scu.ovr } }

/-- Of an unescaped or unmasked byte: a data byte stores, a checksum byte may deliver, and every other changes at most
the decoder's registers and its error flags (R243 to R246). -/
theorem decodeByPhase_cases (v : Byte) (s : State) :
    (s.scu.dec.phase = .data ∧ ∃ d, decodeByPhase v s = (s.memWrite .abuf s.scu.dec.pos.toNat [v]).setDec d) ∨
    ((s.scu.dec.phase = .cksum ∧ v = 0xFF - s.scu.dec.sum ∧ s.scu.rxrdy = false) ∧
      ∃ d, decodeByPhase v s = (deliver s).setDec d) ∨
    s.sameButDecoder (decodeByPhase v s) := by
  cases hp : s.scu.dec.phase with
  | hunt => exact .inr (.inr (by simp only [decodeByPhase, hp]; rfl))
  | lenHi => exact .inr (.inr (by rw [decodeByPhase_lenHi hp]; rfl))
  | lenLo =>
    refine .inr (.inr ?_)
    rw [decodeByPhase_lenLo hp]
    unfold decodeLenLo
    dsimp only
    split_ifs <;> rfl
  | data => exact .inl ⟨rfl, _, decodeByPhase_data hp⟩
  | cksum =>
    rw [decodeByPhase_cksum hp]
    by_cases hv : v = 0xFF - s.scu.dec.sum
    · cases hrdy : s.scu.rxrdy with
      | true => exact .inr (.inr (by rw [decodeCksum_of_held hv hrdy]; rfl))
      | false => exact .inr (.inl ⟨⟨rfl, hv, rfl⟩, _, decodeCksum_of_free hv hrdy⟩)
    · exact .inr (.inr (by rw [decodeCksum_of_bad hv]; rfl))

/-- The same of one byte fed to the decoder (R239 to R242). -/
theorem decoderStep_cases (b : Byte) (s : State) :
    ((s.scu.dec.takesByte b ∧ s.scu.dec.phase = .data) ∧
      ∃ d, decoderStep b s = (s.unescaped.memWrite .abuf s.scu.dec.pos.toNat [s.scu.dec.valueOf b]).setDec d) ∨
    ((s.scu.dec.takesByte b ∧ s.scu.dec.phase = .cksum ∧
        s.scu.dec.valueOf b = 0xFF - s.scu.dec.sum ∧ s.scu.rxrdy = false) ∧
      ∃ d, decoderStep b s = (deliver s.unescaped).setDec d) ∨
    s.sameButDecoder (decoderStep b s) := by
  rcases s.scu.dec.byte_cases b with rfl | ⟨hb, hhunt⟩ | ⟨rfl, hphase, hesc⟩ | htakes
  · rw [decoderStep_delimiter, decodeDelimiter_eq]; exact .inr (.inr rfl)
  · rw [decoderStep_hunt hb hhunt]; exact .inr (.inr rfl)
  · rw [decoderStep_escape hphase hesc]; exact .inr (.inr rfl)
  · rw [decoderStep_takes htakes]
    rcases decodeByPhase_cases (s.scu.dec.valueOf b) s.unescaped with ⟨hp, h⟩ | ⟨hgood, h⟩ | h
    · exact .inl ⟨⟨htakes, hp⟩, h⟩
    · exact .inr (.inl ⟨⟨htakes, hgood⟩, h⟩)
    · exact .inr (.inr h)

/-- The decoder's registers and flags are no buffer's bytes. -/
theorem State.sameButDecoder.readByte {s t : State} (h : s.sameButDecoder t) (c : Buf) (a : Nat) :
    t.readByte c a = s.readByte c a := by
  rw [h]; cases c <;> rfl

@[simp] theorem State.unescaped_readByte (s : State) (c : Buf) (a : Nat) :
    s.unescaped.readByte c a = s.readByte c a := s.setDec_readByte _ c a

/-- Settles O34: a data byte writes one buffer, a delivery another, and any other byte no buffer. -/
theorem srxbStoresOnlyDataAndDelivery : Obligations.SrxbStoresOnlyDataAndDelivery := by
  intro b s
  have hframe := (serialLocal_decoderStep b).frame s
  refine ⟨decoderStep b s, exec_srxb b s, ?_⟩
  rcases decoderStep_cases b s with ⟨hdata, d, h⟩ | ⟨hdelivery, d, h⟩ | h
  · have hread (c : Buf) (hc : c ≠ .abuf) (a : Nat) : (decoderStep b s).readByte c a = s.readByte c a := by
      rw [h, State.setDec_readByte, State.readByte_memWrite_of_notMem _ fun g => hc g.1, State.unescaped_readByte]
    exact ⟨fun g => absurd hdata g, fun _ => ⟨by rw [h]; rfl, hread .srbuf (by decide)⟩,
      fun c a hc _ => hread c hc a, hframe, by rw [h]; rfl⟩
  · have hread (c : Buf) (hc : c ≠ .srbuf) (a : Nat) : (decoderStep b s).readByte c a = s.readByte c a := by
      rw [h, State.setDec_readByte, sameBytesOutside_deliver c a fun g => hc g.1, State.unescaped_readByte]
    exact ⟨fun _ => hread .abuf (by decide), fun g => absurd hdelivery g, fun c a _ hc => hread c hc a, hframe,
      by rw [h]; rfl⟩
  · exact ⟨fun _ => h.readByte .abuf, fun _ => ⟨by rw [h], h.readByte .srbuf⟩, fun c a _ _ => h.readByte c a,
      hframe, by rw [h]⟩

/-! ### A run over a stream of bytes -/

/-- The decoder fed the bytes of a stream one after another (R238). -/
def decoderRun (bs : List Byte) (s : State) : State := bs.foldl (fun s b => decoderStep b s) s

@[simp] theorem decoderRun_nil (s : State) : decoderRun [] s = s := rfl

@[simp] theorem decoderRun_cons (b : Byte) (bs : List Byte) (s : State) :
    decoderRun (b :: bs) s = decoderRun bs (decoderStep b s) := rfl

theorem decoderRun_append (bs cs : List Byte) (s : State) :
    decoderRun (bs ++ cs) s = decoderRun cs (decoderRun bs s) := List.foldl_append

/-- A stream of SRXB commands runs the decoder over their bytes (R247). -/
theorem execAll_srxs (bs : List Byte) (s : State) : execAll (Asm.srxs bs) s = .next (decoderRun bs s) := by
  induction bs generalizing s with
  | nil => rfl
  | cons b bs ih => exact ih (decoderStep b s)

/-! ### The run over an encoded frame (R250) -/

theorem State.unescaped_of_esc {s : State} (h : s.scu.dec.esc = false) : s.unescaped = s := by
  rw [State.unescaped, ← h]; rfl

/-- The bytes an encoder sends for one byte hand that byte to the phase rules, whether it was escaped or not (R232,
R241, R242). -/
theorem decoderRun_escOne (v : Byte) {s : State} (hphase : s.scu.dec.phase ≠ .hunt) (hesc : s.scu.dec.esc = false) :
    decoderRun (escOne v) s = decodeByPhase v s := by
  have hback : s.unescaped = s := State.unescaped_of_esc hesc
  rw [escOne_eq]
  split
  · next hv =>
    have hmasked : v ^^^ 0x20 ≠ 0x7E := by rcases hv with rfl | rfl | rfl | rfl <;> decide
    have htakes : (s.setDec { s.scu.dec with esc := true }).scu.dec.takesByte (v ^^^ 0x20) :=
      ⟨hmasked, hphase, .inr rfl⟩
    have hvalue : (s.setDec { s.scu.dec with esc := true }).scu.dec.valueOf (v ^^^ 0x20) = v := by
      simp [Decoder.valueOf]
    rw [decoderRun_cons, decoderStep_escape hphase hesc, decoderRun_cons, decoderRun_nil, decoderStep_takes htakes,
      hvalue]
    exact congrArg (decodeByPhase v) hback
  · next hv =>
    have htakes : s.scu.dec.takesByte v := ⟨fun h => hv (.inl h), hphase, .inl fun h => hv (.inr (.inl h))⟩
    have hvalue : s.scu.dec.valueOf v = v := by simp [Decoder.valueOf, hesc]
    rw [decoderRun_cons, decoderRun_nil, decoderStep_takes htakes, hvalue]
    exact congrArg (decodeByPhase v) hback

/-- Since `s0` the decoder has taken the length n and the data bytes `d`, and nothing but its registers and ABUF has
changed. -/
structure Receiving (s0 : State) (n : Nat) (d : List Byte) (s : State) : Prop where
  phase : s.scu.dec.phase = if d.length = n then .cksum else .data
  esc : s.scu.dec.esc = false
  pos : s.scu.dec.pos.toNat = d.length
  dlen : s.scu.dec.dlen.toNat = n
  sum : s.scu.dec.sum = byteSum d
  stored : s.memRead .abuf 0 d.length = d
  frame : s = { s0 with scu := { s0.scu with dec := s.scu.dec, abuf := s.scu.abuf } }

/-- A frame is being received in DATA or CKSUM. -/
theorem Receiving.phase_ne_hunt {s0 s : State} {n : Nat} {d : List Byte} (h : Receiving s0 n d s) :
    s.scu.dec.phase ≠ .hunt := by
  rw [h.phase]; split <;> decide

/-- The length field after a delimiter starts the reception (R243, R244). -/
theorem receiving_nil {s0 : State} (hdec : s0.scu.dec = ⟨.lenHi, false, 0, 0, 0⟩) {n : Nat} (hn : n ≤ 255) :
    Receiving s0 n [] (decoderRun (escAll [0x00, BitVec.ofNat 8 n]) s0) := by
  have hhi : decoderRun (escOne 0x00) s0 = s0.setDec ⟨.lenLo, false, 0, 0, 0⟩ := by
    rw [decoderRun_escOne _ (by rw [hdec]; decide) (by rw [hdec]), decodeByPhase_lenHi (by rw [hdec]), decodeLenHi,
      hdec]
    rfl
  have hlen : (0#16 ||| (BitVec.ofNat 8 n).setWidth 16).toNat = n := by
    rw [BitVec.zero_or, BitVec.toNat_setWidth, BitVec.toNat_ofNat]
    omega
  have hlo : decoderRun (escAll [0x00, BitVec.ofNat 8 n]) s0 =
      decodeLenLo (BitVec.ofNat 8 n) (s0.setDec ⟨.lenLo, false, 0, 0, 0⟩) := by
    rw [escAll, List.flatMap_cons, List.flatMap_singleton, decoderRun_append, hhi,
      decoderRun_escOne _ (show Phase.lenLo ≠ .hunt by decide) rfl, decodeByPhase_lenLo rfl]
  rw [hlo]
  rcases Nat.eq_zero_or_pos n with hzero | hpos
  · rw [decodeLenLo_of_zero (hlen.trans hzero)]
    exact ⟨(if_pos hzero.symm).symm, rfl, rfl, hlen, rfl, rfl, rfl⟩
  · rw [decodeLenLo_of_pos (hpos.trans_eq hlen.symm) (hlen.trans_le hn)]
    exact ⟨(if_neg hpos.ne).symm, rfl, rfl, hlen, rfl, rfl, rfl⟩

/-- One more data byte is received (R245). -/
theorem Receiving.snoc {s0 s : State} {n : Nat} {d : List Byte} (h : Receiving s0 n d s) (hlt : d.length < n)
    (hn : n ≤ 255) (v : Byte) : Receiving s0 n (d ++ [v]) (decoderRun (escOne v) s) := by
  have hp : s.scu.dec.phase = .data := h.phase.trans (if_neg hlt.ne)
  have hroom : s.scu.dec.pos.toNat < s.scu.dec.dlen.toNat := by rw [h.pos, h.dlen]; exact hlt
  have hmax : s.scu.dec.dlen.toNat ≤ 255 := h.dlen.trans_le hn
  have hlength : (d ++ [v]).length = d.length + 1 := List.length_append
  rw [decoderRun_escOne v h.phase_ne_hunt h.esc, decodeByPhase_data hp, decodeData_of_room hroom hmax, h.pos, h.dlen]
  refine ⟨by rw [hlength]; rfl, h.esc, ?_, h.dlen, ?_, ?_, ?_⟩
  · exact (toNat_pos_succ hroom hmax).trans (by rw [h.pos, hlength])
  · exact (congrArg (· + v) h.sum).trans (byteSum_append_singleton d v).symm
  · rw [State.setDec_memRead, hlength, State.memRead_memWrite_next _ (by rw [bufSize]; omega), h.stored]
  · rw [h.frame]; rfl

/-- Data bytes are received up to the announced length. -/
theorem Receiving.append {s0 s : State} {n : Nat} {d : List Byte} (h : Receiving s0 n d s) (hn : n ≤ 255)
    {rest : List Byte} (hle : d.length + rest.length ≤ n) :
    Receiving s0 n (d ++ rest) (decoderRun (escAll rest) s) := by
  induction rest generalizing d s with
  | nil => rwa [List.append_nil]
  | cons v rest ih =>
    rw [List.length_cons] at hle
    have hnext := ih (h.snoc (by omega) hn v) (by rw [List.length_append, List.length_singleton]; omega)
    rwa [List.append_assoc, ← decoderRun_append] at hnext

/-- The checksum of all the data received delivers it, while no frame is held (R246). -/
theorem Receiving.decoderRun_checksum {s0 s : State} {d : List Byte} (h : Receiving s0 d.length d s)
    (hrdy : s0.scu.rxrdy = false) :
    decoderRun (escOne (checksum d)) s = (deliver s).setDec { s.scu.dec with phase := .hunt } := by
  have hgood : checksum d = 0xFF - s.scu.dec.sum := by rw [h.sum]; rfl
  have hfree : s.scu.rxrdy = false := by rw [h.frame]; exact hrdy
  rw [decoderRun_escOne _ h.phase_ne_hunt h.esc, decodeByPhase_cksum (h.phase.trans (if_pos rfl)),
    decodeCksum_of_free hgood hfree]

/-- The run over a whole encoded frame: the delimiter, the reception of its data, and its delivery. -/
theorem decoderRun_encodeFrame {d : List Byte} {s : State} (hd : d.length ≤ 255) (hrdy : s.scu.rxrdy = false) :
    ∃ r, Receiving (decodeDelimiter s) d.length d r ∧
      decoderRun (encodeFrame d) s = (deliver r).setDec { r.scu.dec with phase := .hunt } := by
  have hdec : (decodeDelimiter s).scu.dec = ⟨.lenHi, false, 0, 0, 0⟩ := rfl
  have hreceived := (receiving_nil hdec hd).append hd (rest := d) (by simp)
  have hfree : (decodeDelimiter s).scu.rxrdy = false := by rw [decodeDelimiter_eq]; exact hrdy
  have hstart : decoderStep delimiter s = decodeDelimiter s := decoderStep_delimiter s
  refine ⟨_, hreceived, ?_⟩
  rw [encodeFrame, frameBody_of_length_le hd, escAll, List.flatMap_append, List.flatMap_append, List.flatMap_singleton,
    decoderRun_cons, hstart, decoderRun_append, decoderRun_append]
  exact hreceived.decoderRun_checksum hfree

/-- Settles O37, from the state the run over the frame ends in. -/
theorem encodedFrameDecodesToItself : Obligations.EncodedFrameDecodesToItself := by
  intro d s hd hrdy
  obtain ⟨r, hr, hrun⟩ := decoderRun_encodeFrame hd hrdy
  have hdlen : r.scu.dec.dlen.toNat ≤ 255 := hr.dlen.trans_le hd
  have hread : (deliver r).memRead .srbuf 0 d.length = d := by
    have h := deliver_memRead hdlen
    rwa [hr.dlen, hr.stored] at h
  refine ⟨_, execAll_srxs _ s, ?_⟩
  rw [hrun]
  refine ⟨rfl, (deliver_rxlen_toNat hdlen).trans hr.dlen, hread, rfl, ?_⟩
  rw [hr.frame, decodeDelimiter_eq]
  exact ⟨rfl, rfl, rfl, rfl, rfl⟩

/-! ### Runs that mirror one another (R251) -/

/-- `t`, which has come from `u`, is where the reference `r` is: the same decoder and the same frame, stored and (when
none was held in `u`) delivered, with the flags that `r` has set added to those of `u`. -/
structure Mirrors (u r t : State) : Prop where
  dec : t.scu.dec = r.scu.dec
  rxrdy : t.scu.rxrdy = r.scu.rxrdy
  synerr : t.scu.synerr = (u.scu.synerr || r.scu.synerr)
  lenerr : t.scu.lenerr = (u.scu.lenerr || r.scu.lenerr)
  ckerr : t.scu.ckerr = (u.scu.ckerr || r.scu.ckerr)
  ovr : t.scu.ovr = (u.scu.ovr || r.scu.ovr)
  stored : t.memRead .abuf 0 r.scu.dec.pos.toNat = r.memRead .abuf 0 r.scu.dec.pos.toNat
  held : u.scu.rxrdy = false → r.scu.rxrdy = true →
    t.scu.rxlen = r.scu.rxlen ∧ t.memRead .srbuf 0 r.scu.rxlen.toNat = r.memRead .srbuf 0 r.scu.rxlen.toNat

section
variable {u r t : State} (h : Mirrors u r t)
include h

theorem Mirrors.setSynerr : Mirrors u r.setSynerr t.setSynerr := { h with synerr := (Bool.or_true _).symm }
theorem Mirrors.setLenerr : Mirrors u r.setLenerr t.setLenerr := { h with lenerr := (Bool.or_true _).symm }
theorem Mirrors.setCkerr : Mirrors u r.setCkerr t.setCkerr := { h with ckerr := (Bool.or_true _).symm }
theorem Mirrors.setOvr : Mirrors u r.setOvr t.setOvr := { h with ovr := (Bool.or_true _).symm }

/-- New decoder registers that count the same stored bytes. -/
theorem Mirrors.setDec {d : Decoder} (hpos : d.pos = r.scu.dec.pos) : Mirrors u (r.setDec d) (t.setDec d) :=
  { h with dec := rfl, stored := by rw [State.setDec_scu, hpos]; exact h.stored }

/-- A delimiter forgets the stored bytes (R239). -/
theorem Mirrors.decodeDelimiter : Mirrors u (decodeDelimiter r) (decodeDelimiter t) := by
  have hflag : Mirrors u (if r.scu.dec.phase ≠ .hunt then r.setSynerr else r)
      (if t.scu.dec.phase ≠ .hunt then t.setSynerr else t) := by
    rw [h.dec]
    split
    · exact h.setSynerr
    · exact h
  exact { hflag with dec := rfl, stored := rfl }

/-- The high length byte (R243). -/
theorem Mirrors.decodeLenHi (v : Byte) : Mirrors u (decodeLenHi v r) (decodeLenHi v t) := by
  rw [Machine.decodeLenHi, Machine.decodeLenHi, h.dec]
  exact h.setDec rfl

/-- The low length byte (R244). -/
theorem Mirrors.decodeLenLo (v : Byte) : Mirrors u (decodeLenLo v r) (decodeLenLo v t) := by
  simp only [Machine.decodeLenLo, h.dec]
  split
  · exact h.setLenerr.setDec rfl
  · split <;> exact h.setDec rfl

/-- A data byte in range (R245) goes to the same place. -/
theorem Mirrors.decodeData (hroom : r.scu.dec.pos.toNat < r.scu.dec.dlen.toNat) (hlen : r.scu.dec.dlen.toNat ≤ 255)
    (v : Byte) : Mirrors u (decodeData v r) (decodeData v t) := by
  rw [decodeData_of_room hroom hlen, decodeData_of_room (s := t) (by rwa [h.dec]) (by rwa [h.dec]), h.dec]
  refine { h with dec := rfl, stored := ?_ }
  rw [State.setDec_memRead, State.setDec_memRead, State.setDec_scu, toNat_pos_succ hroom hlen,
    State.memRead_memWrite_next _ (hroom.trans_le (hlen.trans (by decide))),
    State.memRead_memWrite_next _ (hroom.trans_le (hlen.trans (by decide))), h.stored]

/-- A delivery copies stored bytes only (R246). -/
theorem Mirrors.deliver (hfull : r.scu.dec.pos.toNat = r.scu.dec.dlen.toNat) : Mirrors u (deliver r) (deliver t) := by
  have hlen : r.scu.dec.dlen.toNat ≤ 255 := by omega
  have hread := deliver_memRead (s := t) (by rwa [h.dec])
  rw [h.dec, ← hfull, h.stored, hfull, ← deliver_memRead hlen] at hread
  refine { h with rxrdy := rfl, stored := h.stored, held := fun _ _ => ⟨?_, ?_⟩ }
  · exact congrArg (fun d : Decoder => d.dlen.setWidth 8) h.dec
  · rw [deliver_rxlen_toNat hlen, hread]

/-- A checksum byte (R246) meets the same sum, and RXRDY as it is in both. -/
theorem Mirrors.decodeCksum (hfull : r.scu.dec.pos.toNat = r.scu.dec.dlen.toNat) (v : Byte) :
    Mirrors u (decodeCksum v r) (decodeCksum v t) := by
  simp only [Machine.decodeCksum, h.dec, h.rxrdy]
  split
  · split
    · exact h.setOvr.setDec rfl
    · exact (h.deliver hfull).setDec rfl
  · exact h.setCkerr.setDec rfl

/-- An unescaped or unmasked byte (R242), by the phase that takes it. -/
theorem Mirrors.decodeByPhase (hr : DecoderInv r) (v : Byte) : Mirrors u (decodeByPhase v r) (decodeByPhase v t) := by
  cases hp : r.scu.dec.phase with
  | hunt => simpa only [Machine.decodeByPhase, h.dec, hp] using h
  | lenHi => rw [decodeByPhase_lenHi hp, decodeByPhase_lenHi (h.dec ▸ hp)]; exact h.decodeLenHi v
  | lenLo => rw [decodeByPhase_lenLo hp, decodeByPhase_lenLo (h.dec ▸ hp)]; exact h.decodeLenLo v
  | data =>
    obtain ⟨hroom, hlen⟩ := hr.dataRoom hp
    rw [decodeByPhase_data hp, decodeByPhase_data (h.dec ▸ hp)]; exact h.decodeData hroom hlen v
  | cksum =>
    rw [decodeByPhase_cksum hp, decodeByPhase_cksum (h.dec ▸ hp)]; exact h.decodeCksum (hr.cksumFull hp) v

/-- One byte fed to both, by the four kinds of byte of R239 to R242. -/
theorem Mirrors.decoderStep (hr : Inv r) (b : Byte) : Mirrors u (decoderStep b r) (decoderStep b t) := by
  rcases r.scu.dec.byte_cases b with rfl | ⟨hb, hhunt⟩ | ⟨rfl, hphase, hesc⟩ | htakes
  · rw [decoderStep_delimiter, decoderStep_delimiter]; exact h.decodeDelimiter
  · rw [decoderStep_hunt hb hhunt, decoderStep_hunt hb (h.dec ▸ hhunt)]; exact h
  · rw [decoderStep_escape hphase hesc, decoderStep_escape (h.dec ▸ hphase) (h.dec ▸ hesc), h.dec]
    exact h.setDec rfl
  · obtain ⟨-, hphase, -⟩ := id htakes
    rw [decoderStep_takes htakes, decoderStep_takes (h.dec ▸ htakes), h.dec]
    have hunescaped : Mirrors u (r.setDec { r.scu.dec with esc := false }) (t.setDec { r.scu.dec with esc := false }) :=
      h.setDec rfl
    exact hunescaped.decodeByPhase (hr.setEsc hphase).decoder _

/-- The same stream fed to both. -/
theorem Mirrors.decoderRun (hr : Inv r) (bs : List Byte) : Mirrors u (decoderRun bs r) (decoderRun bs t) := by
  induction bs generalizing r t with
  | nil => exact h
  | cons b bs ih => exact ih (h.decoderStep hr b) (hr.decoderStep b)

end

/-- The machine as at reset, with the given RXRDY, after a delimiter: the reference for what follows one. -/
def afterDelimiter (rdy : Bool) : State := decodeDelimiter (State.reset.setRxrdy rdy)

theorem inv_afterDelimiter (rdy : Bool) : Inv (afterDelimiter rdy) := by
  have h : Inv (State.reset.setRxrdy rdy) := resetMeetsInvariant.congr rfl
  exact h.decodeDelimiter

/-- After a delimiter every state is where the reference with its RXRDY is (R239). -/
theorem mirrors_decodeDelimiter (s : State) :
    Mirrors (decodeDelimiter s) (afterDelimiter s.scu.rxrdy) (decodeDelimiter s) := by
  rw [decodeDelimiter_eq s]
  refine ⟨rfl, rfl, (Bool.or_false _).symm, (Bool.or_false _).symm, (Bool.or_false _).symm, (Bool.or_false _).symm,
    rfl, fun hfree hheld => ?_⟩
  exact absurd (Eq.trans (Eq.symm hfree) hheld) Bool.false_ne_true

/-- Settles O38: both runs mirror the run of the reference. -/
theorem delimiterResynchronises : Obligations.DelimiterResynchronises := by
  intro bs s1 s2 hrdy
  have h1 := (mirrors_decodeDelimiter s1).decoderRun (inv_afterDelimiter _) bs
  have h2 := (mirrors_decodeDelimiter s2).decoderRun (inv_afterDelimiter _) bs
  rw [← hrdy] at h2
  refine ⟨_, _, _, _, exec_srxb .., exec_srxb .., execAll_srxs .., execAll_srxs .., ?_⟩
  rw [decoderStep_delimiter, decoderStep_delimiter]
  refine ⟨h1.dec.trans h2.dec.symm, h1.rxrdy.trans h2.rxrdy.symm,
    ⟨_, _, _, _, h1.synerr, h2.synerr, h1.lenerr, h2.lenerr, h1.ckerr, h2.ckerr, h1.ovr, h2.ovr⟩,
    fun hfree hheld => ?_⟩
  have hfree1 : (decodeDelimiter s1).scu.rxrdy = false := by rw [decodeDelimiter_eq]; exact hfree
  have hfree2 : (decodeDelimiter s2).scu.rxrdy = false := by rw [decodeDelimiter_eq]; exact hrdy.symm.trans hfree
  obtain ⟨hlen1, hread1⟩ := h1.held hfree1 (h1.rxrdy.symm.trans hheld)
  obtain ⟨hlen2, hread2⟩ := h2.held hfree2 (h1.rxrdy.symm.trans hheld)
  rw [hlen1, hlen2]
  exact ⟨rfl, hread1.trans hread2.symm⟩

end Sys2Proof.Machine

/-! SUPPORT. How an engine step ends (R271 to R273): every CE command is three checks before an effect, and it ends by
the first check that fails. -/

namespace Sys2Proof

/-! ### The checks of a CE command (R271, R272) -/

section
open Machine

/-- The command's length check fails (R272). -/
def Instr.lengthBad (i : Instr) (c : Ce) : Bool :=
  match i with
  | .ctrxor _ off len | .cmac _ off len => rangeLeavesFbuf off len
  | .micgen _ _ len | .sealFrame _ _ len => badFrameLen headerLen len c.maxpl
  | .openFrame _ _ len => badFrameLen (headerLen + micLen) len c.maxpl
  | _ => false

/-- The command needs a key and there is none (R272). -/
def Instr.keyMissing (i : Instr) (c : Ce) : Bool :=
  match i with
  | .keyclr .. => false
  | _ => !c.keyv

/-- The command is OPEN and the received MIC is not the computed one (R205). -/
def Instr.micBad (i : Instr) (s : State) : Prop :=
  match i with
  | .openFrame _ _ len => ¬ s.micMatches len.toNat
  | _ => False

end

end Sys2Proof

namespace Sys2Proof.Machine

/-! ### A CE command as its checks and its effect (R271) -/

/-- `e` ends as the command ends once its three checks have passed: it rejects a frame with a wrong MIC, and otherwise
ends OK (R205, R273). -/
def EffectOf (i : Instr) (e : State → Host.Outcome State Fault Refusal) : Prop :=
  ∀ s, (i.micBad s → e s = .next s.rejected) ∧ (¬ i.micBad s → ∃ t, e s = .next t ∧ t.ce.result = .ok)

/-- An effect that always ends OK is that of a command without a MIC check. -/
theorem effectOf_of_ok {i : Instr} {e : State → Host.Outcome State Fault Refusal} (hmic : ∀ s, ¬ i.micBad s)
    (he : ∀ s, ∃ t, e s = .next t ∧ t.ce.result = .ok) : EffectOf i e := fun s =>
  ⟨fun h => absurd h (hmic s), fun _ => he s⟩

/-- OPEN's effect, by its MIC check (R205). -/
theorem effectOf_openEffect (rsv off len : Byte) : EffectOf (.openFrame rsv off len) (openEffect len) := fun _ =>
  ⟨openEffect_of_not_micMatches, fun h => ⟨_, openEffect_of_micMatches (not_not.1 h), rfl⟩⟩

/-- Every CE command is the three checks of R271 in their order, and then its effect. -/
theorem exec_eq_checked {i : Instr} (hf : i.format = .ce) :
    ∃ e, EffectOf i e ∧ ∀ s, exec i s = checked i.wellFormed (i.lengthBad s.ce) (i.keyMissing s.ce) e s := by
  cases i with
  | aesenc => exact ⟨_, effectOf_of_ok (fun _ => id) fun _ => ⟨_, rfl, rfl⟩, fun _ => rfl⟩
  | ctrxor => exact ⟨_, effectOf_of_ok (fun _ => id) fun _ => ⟨_, rfl, rfl⟩, fun _ => rfl⟩
  | cmac => exact ⟨_, effectOf_of_ok (fun _ => id) fun _ => ⟨_, rfl, rfl⟩, fun _ => rfl⟩
  | micgen => exact ⟨_, effectOf_of_ok (fun _ => id) fun _ => ⟨_, rfl, rfl⟩, fun _ => rfl⟩
  | sealFrame => exact ⟨_, effectOf_of_ok (fun _ => id) fun _ => ⟨_, rfl, rfl⟩, fun _ => rfl⟩
  | openFrame rsv off len => exact ⟨_, effectOf_openEffect rsv off len, fun _ => rfl⟩
  | keyclr => exact ⟨_, effectOf_of_ok (fun _ => id) fun _ => ⟨_, rfl, rfl⟩, fun _ => rfl⟩
  | senc | srxb | srxack | srxrst => cases hf

/-! ### The ends of a command, by the first failing check (R271) -/

/-- `t` is how the command ends from `s`: the completion of the first check that fails, a rejection, or OK. -/
inductive CeEnd (i : Instr) (s : State) : State → Prop
  | param (hp : i.wellFormed = false) : CeEnd i s (s.complete .paramInvalid)
  | length (hp : i.wellFormed = true) (hl : i.lengthBad s.ce = true) : CeEnd i s (s.complete .lengthError)
  | key (hp : i.wellFormed = true) (hl : i.lengthBad s.ce = false) (hk : i.keyMissing s.ce = true) :
      CeEnd i s (s.complete .cryptoError)
  | mic (hp : i.wellFormed = true) (hl : i.lengthBad s.ce = false) (hk : i.keyMissing s.ce = false)
      (hm : i.micBad s) : CeEnd i s s.rejected
  | ok {t : State} (hp : i.wellFormed = true) (hl : i.lengthBad s.ce = false) (hk : i.keyMissing s.ce = false)
      (hm : ¬ i.micBad s) (hok : t.ce.result = .ok) : CeEnd i s t

/-- Every CE command ends in one of these ways. -/
theorem exec_ceEnd {i : Instr} (hf : i.format = .ce) (s : State) : ∃ t, exec i s = .next t ∧ CeEnd i s t := by
  obtain ⟨e, he, hexec⟩ := exec_eq_checked hf
  rw [hexec]
  cases hp : i.wellFormed with
  | false => exact ⟨_, checked_param .., .param hp⟩
  | true =>
    cases hl : i.lengthBad s.ce with
    | true => exact ⟨_, checked_length .., .length hp hl⟩
    | false =>
      cases hk : i.keyMissing s.ce with
      | true => exact ⟨_, checked_key .., .key hp hl hk⟩
      | false =>
        rw [checked_pass]
        by_cases hm : i.micBad s
        · exact ⟨_, (he s).1 hm, .mic hp hl hk hm⟩
        · obtain ⟨t, ht, hok⟩ := (he s).2 hm
          exact ⟨t, ht, .ok hp hl hk hm hok⟩

/-- The result codes in the order of the checks (R271). -/
theorem CeEnd.result {i : Instr} {s t : State} (h : CeEnd i s t) :
    (i.wellFormed = false → t.ce.result = .paramInvalid) ∧
    (¬ i.wellFormed = false → i.lengthBad s.ce = true → t.ce.result = .lengthError) ∧
    (¬ i.wellFormed = false → ¬ i.lengthBad s.ce = true → i.keyMissing s.ce = true → t.ce.result = .cryptoError) ∧
    (¬ i.wellFormed = false → ¬ i.lengthBad s.ce = true → ¬ i.keyMissing s.ce = true → i.micBad s →
      t.ce.result = .micFail) ∧
    (¬ i.wellFormed = false → ¬ i.lengthBad s.ce = true → ¬ i.keyMissing s.ce = true → ¬ i.micBad s →
      t.ce.result = .ok) := by
  cases h with
  | param hp => simp [hp]
  | length hp hl => simp [hp, hl]
  | key hp hl hk => simp [hp, hl, hk]
  | mic hp hl hk hm => simp [hp, hl, hk, hm, State.rejected]
  | ok hp hl hk hm hok => simp [hp, hl, hk, hm, hok]

/-! ### The checks of a decoded word (R272) -/

/-- The length check, by OPC (R272). -/
theorem lengthBad_iff {i : Instr} {w : Word} (h : decode .ce w = .ok i) (c : Ce) :
    i.lengthBad c = true ↔
      ((opcOf w = 2 ∨ opcOf w = 3) ∧ (offOf w).toNat + (lenOf w).toNat > 256) ∨
      ((opcOf w = 4 ∨ opcOf w = 5) ∧ ((lenOf w).toNat < 5 ∨ (lenOf w).toNat - 5 > c.maxpl.toNat)) ∨
      (opcOf w = 6 ∧ ((lenOf w).toNat < 9 ∨ (lenOf w).toNat - 9 > c.maxpl.toNat)) := by
  obtain ⟨hf, rfl⟩ := (decodeInvertsEncode .ce w i).1 h
  cases i with
  | ctrxor | cmac => simp [encode, Instr.opcode, Instr.lengthBad, rangeLeavesFbuf]
  | micgen | sealFrame | openFrame => simp [encode, Instr.opcode, Instr.lengthBad, badFrameLen, headerLen, micLen]
  | aesenc | keyclr => simp [encode, Instr.opcode, Instr.lengthBad]
  | senc | srxb | srxack | srxrst => cases hf

/-- The key check, by OPC (R272). -/
theorem keyMissing_iff {i : Instr} {w : Word} (h : decode .ce w = .ok i) (c : Ce) :
    i.keyMissing c = true ↔ opcOf w ≠ 7 ∧ c.keyv = false := by
  obtain ⟨hf, rfl⟩ := (decodeInvertsEncode .ce w i).1 h
  cases i with
  | aesenc | ctrxor | cmac | micgen | sealFrame | openFrame | keyclr =>
    simp [encode, Instr.opcode, Instr.keyMissing]
  | senc | srxb | srxack | srxrst => cases hf

/-- The MIC check, by OPC (R205). -/
theorem micBad_iff {i : Instr} {w : Word} (h : decode .ce w = .ok i) (s : State) :
    i.micBad s ↔ opcOf w = 6 ∧ ¬ s.micMatches (lenOf w).toNat := by
  obtain ⟨hf, rfl⟩ := (decodeInvertsEncode .ce w i).1 h
  cases i with
  | aesenc | ctrxor | cmac | micgen | sealFrame | openFrame | keyclr => simp [encode, Instr.opcode, Instr.micBad]
  | senc | srxb | srxack | srxrst => cases hf

/-! ### The statements -/

/-- Settles O6: a word that names no command ends ILLEGAL_CMD, and any other by its command's first failing check. -/
theorem firstFailingCheckGivesResult : Obligations.FirstFailingCheckGivesResult := by
  intro w s opc len off rsv illegal param length noKey micBad
  by_cases hill : illegal
  · exact ⟨_, engineRun_unassigned hill, fun _ => rfl, absurd hill, absurd hill, absurd hill, absurd hill, absurd hill⟩
  · have hassigned : 1 ≤ opc.toNat ∧ opc.toNat ≤ 7 := by omega
    obtain ⟨i, hi⟩ := exists_decode_ce hassigned.1 hassigned.2
    obtain ⟨t, hrun, hend⟩ := exec_ceEnd (format_of_decode hi) s
    have hparam : i.wellFormed = false ↔ param := by
      rw [← Bool.not_eq_true, wellFormed_ce_iff hi]
      tauto
    have hlength : i.lengthBad s.ce = true ↔ length := lengthBad_iff hi s.ce
    have hkey : i.keyMissing s.ce = true ↔ noKey := keyMissing_iff hi s.ce
    have hmic : i.micBad s ↔ micBad := micBad_iff hi s
    have hresult := hend.result
    rw [hparam, hlength, hkey, hmic] at hresult
    obtain ⟨hr1, hr2, hr3, hr4, hr5⟩ := hresult
    exact ⟨t, by rw [engineRun, hi]; exact hrun, fun h => absurd h hill, fun _ => hr1, fun _ => hr2, fun _ => hr3,
      fun _ => hr4, fun _ => hr5⟩

/-- What R273 allows an engine step from `s` to `t` to change when it ends in an error: what the completion step changes,
and for MIC_FAIL also TAG, MIC and RLEN. -/
def OnlyErrorEffect (s t : State) : Prop :=
  (t.ce.result ≠ .ok → t.ce.result ≠ .micFail →
    t = { s with ce := { s.ce with latch := none, done := true, result := t.ce.result } }) ∧
  (t.ce.result = .micFail →
    t = { s with ce := { s.ce with
            latch := none, done := true, result := .micFail, tag := .zero, mic := 0, rlen := 0 } }) ∧
  (t.ce.result ≠ .ok → sameBytes s t)

/-- A completion with any code but MIC_FAIL (R306). -/
theorem onlyErrorEffect_complete (s : State) {code : ResultCode} (hcode : code ≠ .micFail) :
    OnlyErrorEffect s (s.complete code) :=
  ⟨fun _ _ => rfl, fun h => absurd h hcode, fun _ b a => s.complete_readByte code b a⟩

/-- However a CE command ends, it keeps to R273. -/
theorem CeEnd.onlyErrorEffect {i : Instr} {s t : State} (h : CeEnd i s t) : OnlyErrorEffect s t := by
  cases h with
  | param | length | key => exact onlyErrorEffect_complete s (by decide)
  | mic => exact ⟨fun _ h => absurd rfl h, fun _ => s.rejected_frame, fun _ => s.readByte_rejected⟩
  | ok _ _ _ _ hok =>
    exact ⟨fun h => absurd hok h, fun h => ResultCode.noConfusion (hok.symm.trans h), fun h => absurd hok h⟩

/-- Settles O7: a word that names no command only completes, and a command ends by its first failing check. -/
theorem errorResultHasNoOtherEffect : Obligations.ErrorResultHasNoOtherEffect := by
  intro w s
  rw [engineRun]
  cases hi : decode .ce w with
  | error => exact ⟨_, rfl, onlyErrorEffect_complete s (by decide)⟩
  | ok i =>
    obtain ⟨t, hrun, hend⟩ := exec_ceEnd (format_of_decode hi) s
    exact ⟨t, hrun, hend.onlyErrorEffect⟩

end Sys2Proof.Machine

/-! SUPPORT. The flags one received byte sets (R278): each update of the SCU with the flags it adds, and each kind of
byte with the one flag it can set. -/

namespace Sys2Proof.Machine

/-- From `s` to `t` the flags SYNERR, LENERR, CKERR, OVR and RXRDY are set where the five Booleans say so; none is
cleared, and CMDERR is as it was. -/
structure AddsFlags (s t : State) (syn len ck ovr rdy : Bool) : Prop where
  synerr : t.scu.synerr = (s.scu.synerr || syn)
  lenerr : t.scu.lenerr = (s.scu.lenerr || len)
  ckerr : t.scu.ckerr = (s.scu.ckerr || ck)
  ovr : t.scu.ovr = (s.scu.ovr || ovr)
  rxrdy : t.scu.rxrdy = (s.scu.rxrdy || rdy)
  cmderr : t.scu.cmderr = s.scu.cmderr

section
variable (s : State)

/-! ### One update -/

theorem AddsFlags.none : AddsFlags s s false false false false false :=
  ⟨(Bool.or_false _).symm, (Bool.or_false _).symm, (Bool.or_false _).symm, (Bool.or_false _).symm,
    (Bool.or_false _).symm, rfl⟩

theorem addsFlags_setLenerr : AddsFlags s s.setLenerr false true false false false :=
  { AddsFlags.none s with lenerr := (Bool.or_true _).symm }

theorem addsFlags_setCkerr : AddsFlags s s.setCkerr false false true false false :=
  { AddsFlags.none s with ckerr := (Bool.or_true _).symm }

theorem addsFlags_setOvr : AddsFlags s s.setOvr false false false true false :=
  { AddsFlags.none s with ovr := (Bool.or_true _).symm }

/-- A delivery (R246) sets RXRDY. -/
theorem addsFlags_deliver : AddsFlags s (deliver s) false false false false true :=
  { AddsFlags.none s with rxrdy := (Bool.or_true _).symm }

/-- The decoder's registers hold no flag. -/
theorem AddsFlags.setDec {s t : State} {syn len ck ovr rdy : Bool} (h : AddsFlags s t syn len ck ovr rdy)
    (d : Decoder) : AddsFlags s (t.setDec d) syn len ck ovr rdy := { h with }

/-! ### One rule of the decoder -/

/-- A delimiter (R239) sets SYNERR or nothing. -/
theorem addsFlags_decodeDelimiter :
    AddsFlags s (decodeDelimiter s) (decide (s.scu.dec.phase ≠ .hunt)) false false false false := by
  rw [decodeDelimiter_eq]
  exact { AddsFlags.none s with synerr := rfl }

/-- The low length byte (R244) sets LENERR or nothing. -/
theorem addsFlags_decodeLenLo (v : Byte) : ∃ len, AddsFlags s (decodeLenLo v s) false len false false false := by
  simp only [decodeLenLo]
  split
  · exact ⟨true, (addsFlags_setLenerr s).setDec _⟩
  · split <;> exact ⟨false, (AddsFlags.none s).setDec _⟩

/-- A checksum byte (R246) sets exactly one of CKERR, OVR and RXRDY. -/
theorem addsFlags_decodeCksum (v : Byte) : ∃ ck ovr rdy, AddsFlags s (decodeCksum v s) false false ck ovr rdy ∧
    [ck, ovr, rdy].count true = 1 := by
  simp only [decodeCksum]
  split
  · split
    · exact ⟨false, true, false, (addsFlags_setOvr s).setDec _, rfl⟩
    · exact ⟨false, false, true, (addsFlags_deliver s).setDec _, rfl⟩
  · exact ⟨true, false, false, (addsFlags_setCkerr s).setDec _, rfl⟩

end

/-! ### One byte (R278) -/

/-- The byte `b`, fed to the decoder in `s`, may set these flags: at most one, SYNERR on a delimiter, LENERR on a
LEN_LO byte, and one of the others exactly on a CKSUM byte. -/
def FlagsAllowed (s : State) (b : Byte) (syn len ck ovr rdy : Bool) : Prop :=
  [syn, len, ck, ovr, rdy].count true ≤ 1 ∧
  (syn = true → b = 0x7E) ∧
  (len = true → s.scu.dec.takesByte b ∧ s.scu.dec.phase = .lenLo) ∧
  ([ck, ovr, rdy].count true = 1 ↔ s.scu.dec.takesByte b ∧ s.scu.dec.phase = .cksum)

section
variable {s : State} {b : Byte}

/-- A byte that is no CKSUM byte may set nothing. -/
theorem flagsAllowed_none (h : ¬ (s.scu.dec.takesByte b ∧ s.scu.dec.phase = .cksum)) :
    FlagsAllowed s b false false false false false :=
  ⟨by decide, Bool.noConfusion, Bool.noConfusion, iff_of_false (by decide) h⟩

/-- A delimiter may set SYNERR. -/
theorem flagsAllowed_delimiter (syn : Bool) : FlagsAllowed s 0x7E syn false false false false :=
  ⟨by revert syn; decide, fun _ => rfl, Bool.noConfusion, iff_of_false (by decide) fun ⟨⟨hne, _⟩, _⟩ => hne rfl⟩

/-- A LEN_LO byte may set LENERR. -/
theorem flagsAllowed_lenLo (htakes : s.scu.dec.takesByte b) (hp : s.scu.dec.phase = .lenLo) (len : Bool) :
    FlagsAllowed s b false len false false false :=
  ⟨by revert len; decide, Bool.noConfusion, fun _ => ⟨htakes, hp⟩,
    iff_of_false (by decide) fun ⟨_, hck⟩ => Phase.noConfusion (hp.symm.trans hck)⟩

/-- A CKSUM byte must set one of CKERR, OVR and RXRDY. -/
theorem flagsAllowed_cksum (htakes : s.scu.dec.takesByte b) (hp : s.scu.dec.phase = .cksum) {ck ovr rdy : Bool}
    (hone : [ck, ovr, rdy].count true = 1) : FlagsAllowed s b false false ck ovr rdy :=
  ⟨hone.le, Bool.noConfusion, Bool.noConfusion, iff_of_true hone ⟨htakes, hp⟩⟩

/-- A byte that reaches the phase rules (R242) sets what its phase allows. -/
theorem decodeByPhase_addsFlags (htakes : s.scu.dec.takesByte b) (v : Byte) : ∃ syn len ck ovr rdy,
    AddsFlags s (decodeByPhase v s.unescaped) syn len ck ovr rdy ∧ FlagsAllowed s b syn len ck ovr rdy := by
  have hunescaped := (AddsFlags.none s).setDec { s.scu.dec with esc := false }
  obtain ⟨-, hphase, -⟩ := id htakes
  cases hp : s.scu.dec.phase with
  | hunt => exact absurd hp hphase
  | lenHi =>
    rw [decodeByPhase_lenHi (s := s.unescaped) hp]
    exact ⟨_, _, _, _, _, hunescaped.setDec _, flagsAllowed_none (by simp [hp])⟩
  | lenLo =>
    rw [decodeByPhase_lenLo (s := s.unescaped) hp]
    obtain ⟨len, h⟩ := addsFlags_decodeLenLo s.unescaped v
    exact ⟨_, _, _, _, _, { h with }, flagsAllowed_lenLo htakes hp len⟩
  | data =>
    rw [decodeByPhase_data (s := s.unescaped) hp]
    exact ⟨_, _, _, _, _, { hunescaped with }, flagsAllowed_none (by simp [hp])⟩
  | cksum =>
    rw [decodeByPhase_cksum (s := s.unescaped) hp]
    obtain ⟨ck, ovr, rdy, h, hone⟩ := addsFlags_decodeCksum s.unescaped v
    exact ⟨_, _, _, _, _, { h with }, flagsAllowed_cksum htakes hp hone⟩

/-- One SRXB sets what its byte allows, by the four kinds of byte of R239 to R242. -/
theorem exec_srxb_addsFlags (b : Byte) (s : State) : ∃ t syn len ck ovr rdy, exec (.srxb 0 b) s = .next t ∧
    AddsFlags s t syn len ck ovr rdy ∧ FlagsAllowed s b syn len ck ovr rdy := by
  rcases s.scu.dec.byte_cases b with rfl | ⟨hb, hhunt⟩ | ⟨rfl, hphase, hesc⟩ | htakes
  · rw [exec_srxb, decoderStep_delimiter]
    exact ⟨_, _, _, _, _, _, rfl, addsFlags_decodeDelimiter s, flagsAllowed_delimiter _⟩
  · rw [exec_srxb, decoderStep_hunt hb hhunt]
    exact ⟨_, _, _, _, _, _, rfl, .none s, flagsAllowed_none (by simp [hhunt])⟩
  · rw [exec_srxb, decoderStep_escape hphase hesc]
    exact ⟨_, _, _, _, _, _, rfl, (AddsFlags.none s).setDec _, flagsAllowed_none (by simp [Decoder.takesByte, hesc])⟩
  · rw [exec_srxb_takes htakes]
    obtain ⟨syn, len, ck, ovr, rdy, h⟩ := decodeByPhase_addsFlags htakes (s.scu.dec.valueOf b)
    exact ⟨_, syn, len, ck, ovr, rdy, rfl, h⟩

end

/-- Settles O33: a legal SRXB sets what its byte allows, and one with RSV nonzero sets CMDERR alone (R119). -/
theorem srxbSetsAtMostOneFlag : Obligations.SrxbSetsAtMostOneFlag := by
  intro b s
  constructor
  · obtain ⟨t, syn, len, ck, ovr, rdy, hrun, hadds, hallowed⟩ := exec_srxb_addsFlags b s
    exact ⟨t, syn, len, ck, ovr, rdy, hrun, hadds.synerr, hadds.lenerr, hadds.ckerr, hadds.ovr, hadds.rxrdy,
      hadds.cmderr, hallowed⟩
  · intro rsv hrsv
    exact exec_sc_malformed (i := .srxb rsv b) rfl (beq_false_of_ne hrsv) s

end Sys2Proof.Machine

/-! SUPPORT. The key is hidden from the host (R40, R287): what each move of the host does in a state it does in the same
state with another key, and the two results differ at most in the key. -/

namespace Sys2Proof.Machine

/-- The same machine with another internal key value (R40). -/
def State.withKey (s : State) (q : Quad) : State := { s with ce := { s.ce with key := q } }

/-- Differing at most in the key is being the same machine with another key. -/
theorem sameButKey_iff (s t : State) : sameButKey s t ↔ ∃ q, t = s.withKey q := by
  constructor
  · exact fun h => ⟨_, h⟩
  · rintro ⟨q, rfl⟩; rfl

/-- With another key `f` answers, and with the same state but for the key. -/
def KeyBlind (f : State → Host.Outcome State Fault Refusal) : Prop :=
  ∀ (s t : State) (q : Quad), f s = .next t → ∃ q', f (s.withKey q) = .next (t.withKey q')

/-- An operation that neither reads nor writes the key. -/
theorem keyBlind_of_comm {f : State → State} (h : ∀ s q, f (s.withKey q) = (f s).withKey q) :
    KeyBlind fun s => .next (f s) := by
  rintro s _ q ⟨⟩
  exact ⟨q, congrArg _ (h s q)⟩

/-! ### Reads -/

@[simp] theorem State.withKey_readByte (s : State) (q : Quad) (b : Buf) (off : Nat) :
    (s.withKey q).readByte b off = s.readByte b off := by cases b <;> rfl

/-- No target's stored value holds a bit of the key: KEY words read 0 (R40). -/
theorem storedData_withKey (w : Width) (x : Target) (s : State) (q : Quad) :
    storedData w x (s.withKey q) = storedData w x s := by
  cases x with
  | reg r => cases r <;> rfl
  | buf b off => simp only [storedData, loadBuf, State.withKey_readByte]

theorem readTarget_withKey (w : Width) (x : Target) (s : State) (q : Quad) :
    readTarget w x (s.withKey q) = (readTarget w x s).withKey q := by
  have hbusy : (s.withKey q).ce.busy = s.ce.busy := rfl
  simp only [readTarget, hbusy, storedData_withKey]
  split <;> rfl

theorem pollAgain_withKey (addr : Nat) (m v : Word) (s : State) (q : Quad) :
    pollAgain addr m v (s.withKey q) = (pollAgain addr m v s).withKey q := by
  have hdata : (s.withKey q).hostData = s.hostData := rfl
  simp only [pollAgain, hdata]
  split <;> rfl

/-! ### Writes -/

/-- The reset action clears every key alike (R301). -/
theorem keyBlind_writeCtrlReg (v : Word) : KeyBlind fun s => .next (writeCtrlReg v s) := by
  rintro s _ q ⟨⟩
  unfold writeCtrlReg
  split
  · exact ⟨.zero, rfl⟩
  · exact ⟨q, rfl⟩

/-- A CMD write looks at BUSY alone (R35). -/
theorem writeCmd_withKey (v : Word) (s : State) (q : Quad) : writeCmd v (s.withKey q) = (writeCmd v s).withKey q := by
  have hbusy : (s.withKey q).ce.busy = s.ce.busy := rfl
  simp only [writeCmd, hbusy]
  split <;> rfl

/-- An SC command works on the SCU alone (R98). -/
theorem SerialLocal.withKey {f : State → State} (hf : SerialLocal f) (s : State) (q : Quad) :
    f (s.withKey q) = (f s).withKey q := by
  have hinto : f (s.withKey q) = { s.withKey q with scu := (f s).scu } := hf s (s.withKey q)
  rw [hinto, hf.frame s]
  rfl

theorem keyBlind_writeSerCmd (v : Word) : KeyBlind (writeSerCmd v) := by
  obtain ⟨f, hf, hrun⟩ := writeSerCmd_serialLocal v
  rw [funext hrun]
  exact keyBlind_of_comm hf.withKey

/-- A register write that is not dropped; a KEY write replaces one word of either key (R41). -/
theorem keyBlind_storeReg (r : Reg) (v : Word) : KeyBlind (storeReg r v) := by
  cases r with
  | ctrl => exact keyBlind_writeCtrlReg v
  | cmd => exact keyBlind_of_comm (writeCmd_withKey v)
  | serCmd => exact keyBlind_writeSerCmd v
  | key k => rintro s _ q ⟨⟩; exact ⟨q.set k v, rfl⟩
  | status | maxpl | arg0 | blk | serStatus => exact keyBlind_of_comm fun _ _ => rfl
  | id | rlen | mic | tag | serRxlen | serElen | serDbg | reserved => exact keyBlind_of_comm fun _ _ => rfl

theorem storeBuf_withKey (w : Width) (b : Buf) (off : Nat) (v : Word) (s : State) (q : Quad) :
    storeBuf w b off v (s.withKey q) = (storeBuf w b off v s).withKey q := by cases b <;> rfl

/-- An admitted write, dropped or not. -/
theorem keyBlind_writeTarget (w : Width) (x : Target) (v : Word) : KeyBlind (writeTarget w x v) := by
  intro s t q h
  have hbusy : (s.withKey q).ce.busy = s.ce.busy := rfl
  unfold writeTarget at h ⊢
  rw [hbusy]
  split at h
  · next hdrop =>
    cases h
    exact ⟨q, if_pos hdrop⟩
  · next hdrop =>
    rw [if_neg hdrop]
    cases x with
    | reg r => exact keyBlind_storeReg r v s t q h
    | buf b off => exact keyBlind_of_comm (storeBuf_withKey w b off v) s t q h

/-! ### The host's moves -/

/-- No move of the host, a reset among them, tells two keys apart. -/
theorem keyBlind_hostMove (op : HostOp) : KeyBlind (hostMove op) := by
  intro s t q h
  rcases hostMove_next h with ⟨w, addr, x, rfl, hx, rfl⟩ | ⟨w, addr, v, x, rfl, hx, hw⟩ |
    ⟨addr, m, v, x, rfl, hx, rfl⟩ | ⟨rfl, rfl⟩
  · exact ⟨q, by rw [hostMove, hostRead_of_reach (s := s.withKey q) hx, readTarget_withKey]⟩
  · obtain ⟨q', hq'⟩ := keyBlind_writeTarget w x v s t q hw
    exact ⟨q', by rw [hostMove, hostWrite_of_reach (s := s.withKey q) hx, hq']⟩
  · refine ⟨q, ?_⟩
    simp only [hostMove, hostRead_of_reach (s := s.withKey q) hx, readTarget_withKey, pollAgain_withKey]
  · exact ⟨.zero, rfl⟩

/-- Settles O52: the other state is the first with another key. -/
theorem hostMoveNeverShowsKey : Obligations.HostMoveNeverShowsKey := by
  intro op a b t hab h
  obtain ⟨q, rfl⟩ := (sameButKey_iff a b).1 hab
  obtain ⟨q', hq'⟩ := keyBlind_hostMove op a t q h
  exact ⟨_, hq', (sameButKey_iff t _).2 ⟨q', rfl⟩⟩

end Sys2Proof.Machine

/-! SUPPORT. The completion step at the end of every engine step (R306): no command but KEYCLR touches the key. -/

namespace Sys2Proof.Machine

/-- OPC is the word modulo 256 (R111, R112). -/
theorem toNat_opcOf (w : Word) : (opcOf w).toNat = w.toNat % 256 := by
  simp [opcOf]

/-- Bits 7:0 of a command's word are its OPC (R114, R115). -/
theorem opcOf_encode (i : Instr) : opcOf (encode i) = i.opcode := by
  cases i with
  | aesenc | ctrxor | cmac | micgen | sealFrame | openFrame | keyclr => exact opcOf_ceWord ..
  | senc | srxb | srxack | srxrst => exact opcOf_scWord ..

/-- `e` always answers, and the key and KW are then what they were. -/
def KeepsKey (e : State → Host.Outcome State Fault Refusal) : Prop :=
  ∀ s, ∃ t, e s = .next t ∧ t.ce.key = s.ce.key ∧ t.ce.kw = s.ce.kw

theorem keepsKey_raiseResult (code : ResultCode) : KeepsKey (raiseResult code) := fun _ => ⟨_, rfl, rfl, rfl⟩
theorem keepsKey_aesencEffect : KeepsKey aesencEffect := fun _ => ⟨_, rfl, rfl, rfl⟩
theorem keepsKey_ctrxorEffect (off len : Byte) : KeepsKey (ctrxorEffect off len) := fun _ => ⟨_, rfl, rfl, rfl⟩
theorem keepsKey_cmacEffect (off len : Byte) : KeepsKey (cmacEffect off len) := fun _ => ⟨_, rfl, rfl, rfl⟩
theorem keepsKey_micgenEffect (len : Byte) : KeepsKey (micgenEffect len) := fun _ => ⟨_, rfl, rfl, rfl⟩
theorem keepsKey_sealEffect (len : Byte) : KeepsKey (sealEffect len) := fun s =>
  ⟨s.sealed len, rfl, congrArg (·.ce.key) s.sealed_frame, congrArg (·.ce.kw) s.sealed_frame⟩

/-- A successful OPEN changes FBUF, TAG, MIC and RLEN, and ends OK (R205). -/
theorem State.opened_frame (s : State) (len : Byte) :
    s.opened len = { s with ce := { s.ce with
      latch := none, done := true, result := .ok, tag := (s.opened len).ce.tag, mic := (s.opened len).ce.mic,
      rlen := (s.opened len).ce.rlen, fbuf := (s.opened len).ce.fbuf } } :=
  s.report_frame _ _ _ ⟨_, s.cryptPayload_frame _⟩

/-- OPEN (R205) keeps the key whether the MIC matches or not. -/
theorem keepsKey_openEffect (len : Byte) : KeepsKey (openEffect len) := by
  intro s
  by_cases hmic : s.micMatches len.toNat
  · have hframe := s.opened_frame len
    exact ⟨s.opened len, openEffect_of_micMatches hmic, congrArg (·.ce.key) hframe, congrArg (·.ce.kw) hframe⟩
  · exact ⟨s.rejected, openEffect_of_not_micMatches hmic, rfl, rfl⟩

/-- A failed check only completes, so a checked command keeps the key when its effect does (R271, R273). -/
theorem KeepsKey.checked {p : Bool} {l k : State → Bool} {e : State → Host.Outcome State Fault Refusal}
    (he : KeepsKey e) : KeepsKey fun s => Machine.checked p (l s) (k s) e s := by
  intro s
  beta_reduce
  cases p with
  | false => exact keepsKey_raiseResult .paramInvalid s
  | true =>
    cases l s with
    | true => exact keepsKey_raiseResult .lengthError s
    | false =>
      cases k s with
      | true => exact keepsKey_raiseResult .cryptoError s
      | false => exact he s

/-- Every CE command but KEYCLR keeps the key and KW (R149). -/
theorem exec_keepsKey {i : Instr} (hf : i.format = .ce) (h7 : i.opcode ≠ 7) : KeepsKey (exec i) := by
  cases i with
  | aesenc rsv off len => exact keepsKey_aesencEffect.checked
  | ctrxor rsv off len => exact (keepsKey_ctrxorEffect off len).checked
  | cmac rsv off len => exact (keepsKey_cmacEffect off len).checked
  | micgen rsv off len => exact (keepsKey_micgenEffect len).checked
  | sealFrame rsv off len => exact (keepsKey_sealEffect len).checked
  | openFrame rsv off len => exact (keepsKey_openEffect len).checked
  | keyclr => exact absurd rfl h7
  | senc | srxb | srxack | srxrst => cases hf

/-- The engine step of every word whose OPC is not KEYCLR's keeps the key and KW (R116, R149). -/
theorem engineRun_keepsKey {w : Word} (h7 : opcOf w ≠ 7) : KeepsKey (engineRun w) := by
  unfold engineRun
  split
  · next i hi =>
    obtain ⟨hf, rfl⟩ := (decodeInvertsEncode .ce w i).1 hi
    exact exec_keepsKey hf (opcOf_encode i ▸ h7)
  · exact keepsKey_raiseResult .illegalCmd

/-- Settles O8: an engine step changes only its results, the latch and DONE; and all but KEYCLR keep the key. -/
theorem engineStepEndsWithCompletion : Obligations.EngineStepEndsWithCompletion := by
  intro w s
  obtain ⟨t, ht, -⟩ := engineRun_engineLocal w s
  have hframe : t = s.withResults t := (engineRun_engineLocal w).frame ht
  refine ⟨t, ht, ?_⟩
  rw [hframe]
  refine ⟨rfl, rfl, rfl, rfl, rfl, fun hopc => ?_⟩
  have h7 : opcOf w ≠ 7 := fun h => hopc (by rw [← toNat_opcOf, h]; rfl)
  obtain ⟨u, hu, hkey, hkw⟩ := engineRun_keepsKey h7 s
  obtain rfl : t = u := Host.Outcome.next.inj (ht.symm.trans hu)
  exact ⟨congrArg (fun kw => ({ s.ce with kw := kw } : Ce).keyv) hkw, hkey, hkw⟩

end Sys2Proof.Machine

/-! SUPPORT. What a host move can do to the hazard flags and to the engine's delay (R305, R308 to R311): it resets, it
is dropped or launches a command, or it leaves them as they are. -/

namespace Sys2Proof.Machine

/-! ### Whether a host move answers -/

/-- A host move gives a next state, or it faults the host; it is never refused (R279, R280). -/
theorem hostMove_answers_or_faults (op : HostOp) (s : State) :
    (∃ t, hostMove op s = .next t) ∨ ∃ f, hostMove op s = .fault f := by
  cases op with
  | read w addr =>
    by_cases hx : ∃ x, access s.cfg w addr = .reach x
    · obtain ⟨x, hx⟩ := hx
      exact .inl ⟨_, hostRead_of_reach hx⟩
    · exact .inr (host_faults_of_not_reach 0 hx).1
  | write w addr v =>
    by_cases hx : ∃ x, access s.cfg w addr = .reach x
    · obtain ⟨x, hx⟩ := hx
      rw [hostMove, hostWrite_of_reach hx]
      exact .inl (writeTarget_answers w x v s)
    · exact .inr (host_faults_of_not_reach v hx).2
  | poll addr m v =>
    by_cases hx : ∃ x, access s.cfg .w32 addr = .reach x
    · obtain ⟨x, hx⟩ := hx
      exact .inl ⟨_, by rw [hostMove, hostRead_of_reach hx]⟩
    · obtain ⟨f, hf⟩ := (host_faults_of_not_reach 0 hx).1
      exact .inr ⟨f, by rw [hostMove, hf]⟩
  | assertReset => exact .inl ⟨_, rfl⟩

/-! ### What a host move does to CMDOVR, WERR and the delay -/

/-- From `s` to `t` neither CMDOVR nor WERR rises, and the engine's delay stays. -/
structure State.Unhazarded (s t : State) : Prop where
  cmdovr : t.ce.cmdovr = true → s.ce.cmdovr = true
  werr : t.ce.werr = true → s.ce.werr = true
  engineDelay : t.engineDelay = s.engineDelay

/-- A change that does not write the flags or the delay. -/
theorem State.Unhazarded.of_eq {s t : State} (hcmdovr : t.ce.cmdovr = s.ce.cmdovr) (hwerr : t.ce.werr = s.ce.werr)
    (hdelay : t.engineDelay = s.engineDelay) : s.Unhazarded t :=
  ⟨hcmdovr ▸ id, hwerr ▸ id, hdelay⟩

section
variable {s t : State}

/-- A register write that is not dropped as a CE input: a reset, a CMD write, or neither (R33, R35). -/
theorem storeReg_hazards {r : Reg} {v : Word} (h : storeReg r v s = .next t) :
    t = s.resetAction ∨ (r = .cmd ∧ t = writeCmd v s) ∨ s.Unhazarded t := by
  cases r with
  | ctrl =>
    cases h
    unfold writeCtrlReg
    split
    · exact .inl rfl
    · exact .inr (.inr (.of_eq rfl rfl rfl))
  | status =>
    cases h
    exact .inr (.inr ⟨Bool.and_elim_left, Bool.and_elim_left, rfl⟩)
  | cmd => cases h; exact .inr (.inl ⟨rfl, rfl⟩)
  | serCmd =>
    obtain ⟨f, hf, hrun⟩ := writeSerCmd_serialLocal v
    obtain rfl : f s = t := Host.Outcome.next.inj ((hrun s).symm.trans h)
    rw [hf.frame s]
    exact .inr (.inr (.of_eq rfl rfl rfl))
  | maxpl | arg0 | key | blk | serStatus => cases h; exact .inr (.inr (.of_eq rfl rfl rfl))
  | id | rlen | mic | tag | serRxlen | serElen | serDbg | reserved =>
    cases h; exact .inr (.inr (.of_eq rfl rfl rfl))

/-- A host move: a reset, a write to a CE input dropped while BUSY = 1, a CMD write, or none of these. -/
theorem hostMove_hazards {op : HostOp} (h : hostMove op s = .next t) :
    t = s.resetAction ∨
    (∃ w addr v x, op = .write w addr v ∧ access s.cfg w addr = .reach x ∧ (s.ce.busy && x.isCeInput) = true ∧
      t = s.setWerr) ∨
    (∃ w addr v, op = .write w addr v ∧ access s.cfg w addr = .reach (.reg .cmd) ∧ t = writeCmd v s) ∨
    s.Unhazarded t := by
  rcases hostMove_next h with ⟨w, addr, x, -, -, rfl⟩ | ⟨w, addr, v, x, hop, hx, hw⟩ |
    ⟨addr, m, v, x, -, -, rfl⟩ | ⟨-, rfl⟩
  · rw [readTarget_frame]
    exact .inr (.inr (.inr (.of_eq rfl rfl rfl)))
  · rcases writeTarget_next hw with ⟨hin, rfl⟩ | ⟨-, ⟨r, rfl, hr⟩ | ⟨b, off, rfl, rfl⟩⟩
    · exact .inr (.inl ⟨w, addr, v, x, hop, hx, hin, rfl⟩)
    · rcases storeReg_hazards hr with hreset | ⟨rfl, hcmd⟩ | hnone
      · exact .inl hreset
      · exact .inr (.inr (.inl ⟨w, addr, v, hop, hx, hcmd⟩))
      · exact .inr (.inr (.inr hnone))
    · refine .inr (.inr (.inr ?_))
      cases b with
      | fbuf | stbuf | srbuf | ebuf | abuf => exact .of_eq rfl rfl rfl
  · refine .inr (.inr (.inr ?_))
    rcases pollAgain_cases addr m v (readTarget .w32 x s) with hp | hp
    · rw [hp, readTarget_frame]
      exact .of_eq rfl rfl rfl
    · rw [hp, readTarget_frame]
      exact .of_eq rfl rfl rfl
  · exact .inl rfl

/-! ### A host that keeps its duties (R309 to R311) -/

/-- A dutiful read is admitted, and not one of a CE output while BUSY = 1. -/
theorem keepsDuty_read_iff {w : Width} {addr : Nat} :
    (HostOp.read w addr).keepsDuty s = true ↔
      ∃ x, access s.cfg w addr = .reach x ∧ (s.ce.busy && x.isCeOutput) = false := by
  simp only [HostOp.keepsDuty]
  cases access s.cfg w addr with
  | noResponse | busError => simp
  | reach x => simp only [Access.reach.injEq, exists_eq_left', Bool.not_eq_true']

/-- A dutiful POLL reads dutifully (R125). -/
theorem keepsDuty_poll_iff {addr : Nat} {m v : Word} :
    (HostOp.poll addr m v).keepsDuty s = true ↔
      ∃ x, access s.cfg .w32 addr = .reach x ∧ (s.ce.busy && x.isCeOutput) = false := keepsDuty_read_iff

/-- A dutiful write is admitted, and while BUSY = 1 it reaches neither CMD nor a CE input. -/
theorem keepsDuty_write_iff {w : Width} {addr : Nat} {v : Word} :
    (HostOp.write w addr v).keepsDuty s = true ↔
      ∃ x, access s.cfg w addr = .reach x ∧ (s.ce.busy && (x.isCeInput || x == .reg .cmd)) = false := by
  simp only [HostOp.keepsDuty]
  cases access s.cfg w addr with
  | noResponse | busError => simp
  | reach x => simp only [Access.reach.injEq, exists_eq_left', Bool.not_eq_true']

/-- A dutiful move is never faulted. -/
theorem hostMove_answers_of_keepsDuty {op : HostOp} (hduty : op.keepsDuty s = true) : ∃ t, hostMove op s = .next t := by
  cases op with
  | read w addr =>
    obtain ⟨x, hx, -⟩ := keepsDuty_read_iff.1 hduty
    exact ⟨_, hostRead_of_reach hx⟩
  | write w addr v =>
    obtain ⟨x, hx, -⟩ := keepsDuty_write_iff.1 hduty
    rw [hostMove, hostWrite_of_reach hx]
    exact writeTarget_answers w x v s
  | poll addr m v =>
    obtain ⟨x, hx, -⟩ := keepsDuty_poll_iff.1 hduty
    exact ⟨_, by rw [hostMove, hostRead_of_reach hx]⟩
  | assertReset => exact ⟨_, rfl⟩

/-- A dutiful move raises neither CMDOVR nor WERR: the moves that would, its duties exclude (R309, R310). -/
theorem hostMove_flags_of_keepsDuty {op : HostOp} (hduty : op.keepsDuty s = true) (h : hostMove op s = .next t) :
    (t.ce.cmdovr = true → s.ce.cmdovr = true) ∧ (t.ce.werr = true → s.ce.werr = true) := by
  rcases hostMove_hazards h with rfl | ⟨w, addr, v, x, rfl, hx, hin, rfl⟩ | ⟨w, addr, v, rfl, hx, rfl⟩ | hnone
  · exact ⟨nofun, nofun⟩
  · obtain ⟨y, hy, hfree⟩ := keepsDuty_write_iff.1 hduty
    obtain rfl : x = y := Access.reach.inj (hx.symm.trans hy)
    obtain ⟨hbusy, hinput⟩ := Bool.and_eq_true_iff.1 hin
    exact absurd hfree (by simp [hbusy, hinput])
  · obtain ⟨y, hy, hfree⟩ := keepsDuty_write_iff.1 hduty
    obtain rfl : Target.reg .cmd = y := Access.reach.inj (hx.symm.trans hy)
    have hidle : ¬ s.ce.busy = true := by simpa using hfree
    rw [writeCmd, if_neg hidle]
    exact ⟨id, id⟩
  · exact ⟨hnone.cmdovr, hnone.werr⟩

/-- A dutiful read draws no unspecified value (R307, R311). -/
theorem readTarget_draws {w : Width} {x : Target} (hfree : (s.ce.busy && x.isCeOutput) = false) :
    (readTarget w x s).draws = s.draws := by
  rw [readTarget_stored hfree]
  rfl

/-- A round of POLL draws what its read draws. -/
theorem pollAgain_draws (addr : Nat) (m v : Word) (s : State) : (pollAgain addr m v s).draws = s.draws := by
  rcases pollAgain_cases addr m v s with hp | hp
  · rw [hp]
  · rw [hp]

end

/-- Settles O54: a dutiful move is admitted, it is none of the moves that raise a flag, and what it reads is stored. -/
theorem dutifulHostMeetsNoHazard : Obligations.DutifulHostMeetsNoHazard := by
  intro op s hduty
  obtain ⟨t, ht⟩ := hostMove_answers_of_keepsDuty hduty
  obtain ⟨hcmdovr, hwerr⟩ := hostMove_flags_of_keepsDuty hduty ht
  refine ⟨t, ht, hcmdovr, hwerr, ?_⟩
  rintro (⟨w, addr, rfl⟩ | ⟨addr, m, v, rfl⟩)
  · obtain ⟨x, hx, hfree⟩ := keepsDuty_read_iff.1 hduty
    rw [hostMove, hostRead_of_reach hx] at ht
    cases ht
    exact readTarget_draws hfree
  · obtain ⟨x, hx, hfree⟩ := keepsDuty_poll_iff.1 hduty
    rw [hostMove, hostRead_of_reach hx] at ht
    cases ht
    rw [pollAgain_draws, readTarget_draws hfree]

end Sys2Proof.Machine

/-! SUPPORT. Steps and runs (R12, R305): a step by whose turn it is, and how the drawn delay counts down to the engine
step. -/

namespace Sys2Proof.Machine

/-! ### A step by whose turn it is -/

theorem step_of_turn_engine {s : State} {w : Word} (h : turn s = .engine w) : step s = engineRun w s := by
  rw [step, move, h]

theorem step_of_turn_host {s : State} {op : HostOp} (h : turn s = .host op) : step s = hostMove op s.popHost := by
  rw [step, move, h]

theorem step_of_idle {s : State} (hlatch : s.ce.latch = none) (hqueue : s.hostQueue = []) : step s = .next s := by
  rw [step, move, turn, hlatch, hqueue]

/-- The engine step of a CE command's word is exec of the command (R305). -/
theorem engineRun_encode {i : Instr} (hf : i.format = .ce) (s : State) : engineRun (encode i) s = exec i s := by
  rw [engineRun, ← hf, decode_encode]

/-- A write of an SC command's word to SER_CMD is exec of the command (R44, R231). -/
theorem hostWrite_serCmd_encode {i : Instr} (hf : i.format = .sc) (s : State) :
    hostWrite .w32 (s.cfg.pBase + 0x050) (encode i) s = exec i s := by
  rw [hostWrite_reg (r := .serCmd) _ (by decide) (by decide) rfl (Bool.and_false _), storeReg, writeSerCmd, ← hf,
    decode_encode]

/-- Settles O55: by whose turn it is, and then by what the host's move is. -/
theorem stepRunsTheDecodedCommand : Obligations.StepRunsTheDecodedCommand := by
  have hengine : ∀ (w : Word) (s : State), s.ce.latch = some w → (s.hostQueue = [] ∨ s.engineDelay = 0) →
      step s = engineRun w s := fun w s hlatch hnext => step_of_turn_engine ((turn_engine_iff s w).2 ⟨hlatch, hnext⟩)
  refine ⟨fun i s hf hlatch hnext => ?_, hengine, fun op s rest hqueue hnext => ?_,
    fun s hlatch hqueue => step_of_idle hlatch hqueue⟩
  · rw [hengine _ s hlatch hnext, engineRun_encode hf]
  · intro s1
    have hpop : s.popHost = s1 := by rw [State.popHost, hqueue]; rfl
    have hstep : step s = hostMove op s1 := hpop ▸ step_of_turn_host ((turn_host_iff s op).2 ⟨⟨rest, hqueue⟩, hnext⟩)
    rw [hstep]
    refine ⟨rfl, ?_, ?_, ?_, ?_, ?_, ?_⟩
    · rintro w addr rfl; rfl
    · rintro w addr v rfl; rfl
    · rintro i hf rfl
      exact hostWrite_serCmd_encode hf s1
    · rintro addr m v t rfl ht
      rw [hostMove, ht]; rfl
    · rintro addr m v f rfl hf
      rw [hostMove, hf]
    · rintro rfl; rfl

/-! ### The delay of the engine step (R305) -/

/-- While a command is pending, no host move makes the engine's delay longer (log entry 4). -/
theorem hostMove_engineDelay_le {op : HostOp} {s t : State} (h : hostMove op s = .next t) (hs : s.ce.busy = true) :
    t.engineDelay ≤ s.engineDelay := by
  rcases hostMove_hazards h with rfl | ⟨_, _, _, _, -, -, -, rfl⟩ | ⟨_, _, v, -, -, rfl⟩ | hnone
  · exact Nat.zero_le _
  · exact le_rfl
  · rw [writeCmd, if_pos hs]; exact le_rfl
  · exact hnone.engineDelay.le

/-- With a command pending and its engine step not next, a step is the host's: it faults, it cancels the command (R303),
or the same word stays pending with a shorter delay. -/
theorem step_of_pending {w : Word} {s : State} (hlatch : s.ce.latch = some w) (hturn : turn s ≠ .engine w) :
    (∃ f, step s = .fault f) ∨ ∃ t, step s = .next t ∧
      (t.ce.latch = none ∨ t.ce.latch = some w ∧ t.engineDelay < s.engineDelay) := by
  have hwait : ¬ (s.hostQueue = [] ∨ s.engineDelay = 0) := fun h => hturn ((turn_engine_iff s w).2 ⟨hlatch, h⟩)
  obtain ⟨hqueue, hdelay⟩ := not_or.1 hwait
  obtain ⟨op, rest, hqueue⟩ := List.exists_cons_of_ne_nil hqueue
  have hbusy : s.ce.busy = true := by rw [Ce.busy, hlatch]; rfl
  have hpop : s.popHost.engineDelay = s.engineDelay - 1 := if_pos hbusy
  rw [step_of_turn_host ((turn_host_iff s op).2 ⟨⟨rest, hqueue⟩, .inr hdelay⟩)]
  rcases hostMove_answers_or_faults op s.popHost with ⟨t, ht⟩ | hfault
  · refine .inr ⟨t, ht, ?_⟩
    cases hend : t.ce.busy with
    | false => exact .inl (Option.isNone_iff_eq_none.1 (by simpa [Ce.busy] using hend))
    | true =>
      have hsame : s.popHost.engineInto t = t := hostMove_engineInto ht hbusy hend
      have hshorter : t.engineDelay ≤ s.popHost.engineDelay := hostMove_engineDelay_le ht hbusy
      exact .inr ⟨by rw [← hsame]; exact hlatch, by omega⟩
  · exact .inl hfault

/-! ### Runs -/

theorem run_succ_of_next {M : Host.Core} {s t : M.State} (h : M.step s = .next t) (k : Nat) :
    M.run (k + 1) s = M.run k t := by rw [Host.Core.run, h]

theorem run_succ_of_fault {M : Host.Core} {s : M.State} {f : M.Fault} (h : M.step s = .fault f) (k : Nat) :
    M.run (k + 1) s = .fault f := by rw [Host.Core.run, h]

/-- Within any bound on the delay, a pending command comes to its engine step, unless a fault or a reset comes first. -/
theorem exists_run_to_engine {w : Word} (n : Nat) : ∀ s : State, s.ce.latch = some w → s.engineDelay ≤ n →
    ∃ k, k ≤ n ∧ ((∃ f, Host.Core.run core k s = .fault f) ∨
      ∃ t, Host.Core.run core k s = .next t ∧ (t.ce.latch = none ∨ turn t = .engine w)) := by
  induction n with
  | zero =>
    intro s hlatch hdelay
    exact ⟨0, le_rfl, .inr ⟨s, rfl, .inr ((turn_engine_iff s w).2 ⟨hlatch, .inr (Nat.le_zero.1 hdelay)⟩)⟩⟩
  | succ n ih =>
    intro s hlatch hdelay
    by_cases hturn : turn s = .engine w
    · exact ⟨0, Nat.zero_le _, .inr ⟨s, rfl, .inr hturn⟩⟩
    · rcases step_of_pending hlatch hturn with ⟨f, hf⟩ | ⟨t, ht, hend | ⟨hkept, hshorter⟩⟩
      · exact ⟨1, Nat.le_add_left 1 n, .inl ⟨f, run_succ_of_fault (M := core) hf 0⟩⟩
      · exact ⟨1, Nat.le_add_left 1 n, .inr ⟨t, run_succ_of_next (M := core) ht 0, .inl hend⟩⟩
      · obtain ⟨k, hk, hrun⟩ := ih t hkept (by omega)
        exact ⟨k + 1, Nat.succ_le_succ hk, by rwa [run_succ_of_next (M := core) ht]⟩

/-- Settles O60: the drawn delay itself is the bound. -/
theorem engineStepComesWithinDelay : Obligations.EngineStepComesWithinDelay := fun _ s hlatch =>
  exists_run_to_engine s.engineDelay s hlatch le_rfl

end Sys2Proof.Machine
